-- ==== Sys2Proof/Word.lean ====
section
/-! DEFINITION. The word types of FPC (00_scope.md R14, R15): a byte, the field widths 16, 24 and 32,
and the four bytes of a frame's header. -/

namespace Sys2Proof

/-- A u8 (00_scope.md R15). -/
abbrev Byte := BitVec 8

/-- A u16: `n_frame`, `status`, `data_len`, `checksum`, `id` (10_state.md R23, R24, R28, R29, R30). -/
abbrev Half := BitVec 16

/-- A u24: `n_total_frame`, COUNT and P24 (10_state.md R25, R31, R34). -/
abbrev Tri := BitVec 24

/-- A u32: a register as the host sees it, a command word (10_state.md R35, 30_encoding.md R90). -/
abbrev Word := BitVec 32

/-- The four `header` bytes of a frame: a byte string, not a number (30_encoding.md R113).
`b0` is first on the wire. -/
structure Header where
  b0 : Byte
  b1 : Byte
  b2 : Byte
  b3 : Byte
deriving DecidableEq, Repr

end Sys2Proof
end

