-- ==== Sys2Proof/Config.lean ====
section
/-! DEFINITION. The configuration of an FPC build (00_scope.md R6 to R13), what one pull of the
byte source answers (20_memory.md R72), and the values the spec leaves unspecified, as opaque
constants about which nothing can be proved. -/

namespace Sys2Proof

/-- The record `CRC` that fixes the function `CRC16` (00_scope.md R10). -/
structure CrcParams where
  poly : Half
  init : Half
  refIn : Bool
  refOut : Bool
  xorOut : Half
deriving DecidableEq, Repr

/-- `SEQ_MODE` (00_scope.md R11). -/
inductive SeqMode where
  /-- The increment and decrement the source documents (42_sequencer.md R181, R182). -/
  | documented
  /-- The identity the source observed in the reference code (42_sequencer.md R183, R184). -/
  | identity
deriving DecidableEq, Repr

/-- The parameters a configuration fixes (00_scope.md R6 to R11). -/
structure Config where
  /-- `F` = FRAME_DATA_MAX, bytes of `data` in a Data Frame (R6). -/
  fdMax : Nat
  /-- `S` = N_SLOTS, slots of the frame store (R7). -/
  nSlots : Nat
  /-- `P` = PMEM_SIZE, bytes of the payload memory (R8). -/
  pmemSize : Nat
  /-- `MAGIC` (R9). -/
  magic : Header
  /-- `CRC` (R10). -/
  crc : CrcParams
  /-- `SEQ_MODE` (R11). -/
  seqMode : SeqMode
deriving DecidableEq, Repr

/-- The constraints of 00_scope.md R6, R7 and R8. -/
abbrev Config.Valid (c : Config) : Prop :=
  (1 ≤ c.fdMax ∧ c.fdMax ≤ 65535) ∧ (1 ≤ c.nSlots ∧ c.nSlots ≤ 65535) ∧
    (1 ≤ c.pmemSize ∧ c.pmemSize ≤ 4294967295)

/-- The instance called CRC-16/ARC (00_scope.md R13, 40_checksum.md R132). -/
def CrcParams.arc : CrcParams := ⟨0x8005, 0x0000, true, true, 0x0000⟩

/-- The MAGIC of the two named configurations (00_scope.md R13). -/
def Header.namedMagic : Header := ⟨0xA5, 0x5A, 0xC3, 0x3C⟩

/-- `CFG-4` (00_scope.md R13). -/
def Config.cfg4 : Config := ⟨4, 4, 64, .namedMagic, .arc, .documented⟩

/-- `CFG-256` (00_scope.md R13). -/
def Config.cfg256 : Config := ⟨256, 16, 4096, .namedMagic, .arc, .documented⟩

/-- What one pull of the byte source answers (20_memory.md R72). -/
inductive SrcAnswer where
  /-- `Ok(b)`: the bytes delivered. -/
  | ok (bytes : List Byte)
  /-- `Err`: the source's read error. -/
  | err
deriving DecidableEq, Repr, Inhabited

/-- One pull that has been made: how many bytes were asked for and what was answered. -/
structure SrcPull where
  request : Nat
  answer : SrcAnswer
deriving DecidableEq, Repr

/-- FREE VALUE (notes/assumptions/5.md). The pull-based source as an oracle: "a function from the
history of pulls to the next answer" (20_memory.md R72), asked for a number of bytes. It answers
where no answer is scheduled. -/
opaque Config.srcOracle : List SrcPull → Nat → SrcAnswer

/-- FREE VALUE (notes/assumptions/6.md). Byte `j` of the `data` of slot `i` after the `draw`-th
CHUNK.SRC that failed with SRC_ERROR (93_implementation_defined.md U2). -/
opaque Config.freeData : (draw i j : Nat) → Byte

/-- FREE VALUE (notes/assumptions/6.md). The `data_len` of slot `i` after the `draw`-th CHUNK.SRC
that failed with SRC_ERROR (93_implementation_defined.md U2). -/
opaque Config.freeDataLen : (draw i : Nat) → Half

end Sys2Proof
end

