-- ==== Sys2Proof/Syntax.lean ====
section
/-! DEFINITION. The 25 commands of FPC, one constructor per row of spec/opcode_table.json
(30_encoding.md R100), in the table's order. -/

namespace Sys2Proof

/-- A command. A format-S command carries its slot number, a natural number; which numbers can be
encoded is `Instr.wf`, which slots exist is the command's own range check. -/
inductive Instr where
  /-- `NOP` (44_access_and_system.md R224). -/
  | nop
  /-- `CLRERR` (44_access_and_system.md R225). -/
  | clrerr
  /-- `SRST` (44_access_and_system.md R226). -/
  | srst
  /-- `CRC.CALC` (40_checksum.md R135). -/
  | crcCalc
  /-- `CRC.STAMP` (40_checksum.md R136). -/
  | crcStamp
  /-- `CRC.CHECK` (40_checksum.md R137). -/
  | crcCheck
  /-- `SER.CTRL` (41_wire_codec.md R160). -/
  | serCtrl
  /-- `DES.CTRL` (41_wire_codec.md R161). -/
  | desCtrl
  /-- `SER.DATA s` (41_wire_codec.md R162). -/
  | serData (slot : Nat)
  /-- `DES.DATA s` (41_wire_codec.md R163). -/
  | desData (slot : Nat)
  /-- `PACK24` (41_wire_codec.md R164). -/
  | pack24
  /-- `UNPACK24` (41_wire_codec.md R165). -/
  | unpack24
  /-- `SEQ.I2W` (42_sequencer.md R186). -/
  | seqI2w
  /-- `SEQ.W2I` (42_sequencer.md R187). -/
  | seqW2i
  /-- `CHUNK.BUF` (43_frame_chunker.md R192). -/
  | chunkBuf
  /-- `CHUNK.SRC` (43_frame_chunker.md R193). -/
  | chunkSrc
  /-- `TOTLEN` (43_frame_chunker.md R194). -/
  | totlen
  /-- `REASM` (43_frame_chunker.md R195). -/
  | reasm
  /-- `INIT` (43_frame_chunker.md R196). -/
  | init
  /-- `STAMP s` (43_frame_chunker.md R197). -/
  | stamp (slot : Nat)
  /-- `STAMP.ALL` (43_frame_chunker.md R198). -/
  | stampAll
  /-- `FGET s` (44_access_and_system.md R220). -/
  | fget (slot : Nat)
  /-- `FPUT s` (44_access_and_system.md R221). -/
  | fput (slot : Nat)
  /-- `DGET s` (44_access_and_system.md R222). -/
  | dget (slot : Nat)
  /-- `DPUT s` (44_access_and_system.md R223). -/
  | dput (slot : Nat)
deriving DecidableEq, Repr

/-- The slot operand of a format-S command; none for format N (30_encoding.md R91). -/
def Instr.slotOperand : Instr → Option Nat
  | .nop => none
  | .clrerr => none
  | .srst => none
  | .crcCalc => none
  | .crcStamp => none
  | .crcCheck => none
  | .serCtrl => none
  | .desCtrl => none
  | .serData s => some s
  | .desData s => some s
  | .pack24 => none
  | .unpack24 => none
  | .seqI2w => none
  | .seqW2i => none
  | .chunkBuf => none
  | .chunkSrc => none
  | .totlen => none
  | .reasm => none
  | .init => none
  | .stamp s => some s
  | .stampAll => none
  | .fget s => some s
  | .fput s => some s
  | .dget s => some s
  | .dput s => some s

end Sys2Proof
end

