-- ==== Sys2Proof/WellFormed.lean ====
section
/-! DEFINITION. Which commands have an encoding: a slot number is "an unsigned value 0..65535"
(30_encoding.md R92). A slot number of `S` or more is well formed: it is a legal word that raises
RANGE (R101). -/

namespace Sys2Proof

/-- The command can be written as a command word. -/
def Instr.wf (i : Instr) : Bool :=
  match i.slotOperand with
  | none => true
  | some s => decide (s < 65536)

end Sys2Proof
end

