-- ==== Sys2Proof/Decode.lean ====
section
/-! DEFINITION. The command word (30_encoding.md R90 to R92, R100, R101): a total decoder that
rejects by name, the encoder, and the host's `decodeTableWord`. -/

namespace Sys2Proof

/-- Why a command word is illegal: the three cases of 30_encoding.md R101. -/
inductive IllegalWord where
  /-- `w[15:8] ≠ 0`. -/
  | reservedBitsSet
  /-- `w[7:0]` is none of the 25 opcodes. -/
  | unknownOpcode
  /-- The opcode's format is N and `w[31:16] ≠ 0`. -/
  | immediateSet
deriving DecidableEq, Repr

/-- Field `op` of a command word (30_encoding.md R90). -/
def wordOp (w : Word) : Byte := w.extractLsb' 0 8

/-- Field `rsv` of a command word (30_encoding.md R90). -/
def wordRsv (w : Word) : Byte := w.extractLsb' 8 8

/-- Field `imm` of a command word (30_encoding.md R90). -/
def wordImm (w : Word) : Half := w.extractLsb' 16 16

/-- A row of the opcode map: a format-N command, or a format-S command awaiting its slot. -/
inductive OpcodeForm where
  | formatN (i : Instr)
  | formatS (mk : Nat → Instr)

/-- The opcode map (30_encoding.md R100). -/
def opcodeForm (op : Byte) : Option OpcodeForm :=
  match op.toNat with
  | 0x00 => some (.formatN .nop)
  | 0x01 => some (.formatN .clrerr)
  | 0x02 => some (.formatN .srst)
  | 0x10 => some (.formatN .crcCalc)
  | 0x11 => some (.formatN .crcStamp)
  | 0x12 => some (.formatN .crcCheck)
  | 0x20 => some (.formatN .serCtrl)
  | 0x21 => some (.formatN .desCtrl)
  | 0x22 => some (.formatS .serData)
  | 0x23 => some (.formatS .desData)
  | 0x24 => some (.formatN .pack24)
  | 0x25 => some (.formatN .unpack24)
  | 0x30 => some (.formatN .seqI2w)
  | 0x31 => some (.formatN .seqW2i)
  | 0x40 => some (.formatN .chunkBuf)
  | 0x41 => some (.formatN .chunkSrc)
  | 0x42 => some (.formatN .totlen)
  | 0x43 => some (.formatN .reasm)
  | 0x44 => some (.formatN .init)
  | 0x45 => some (.formatS .stamp)
  | 0x46 => some (.formatN .stampAll)
  | 0x50 => some (.formatS .fget)
  | 0x51 => some (.formatS .fput)
  | 0x52 => some (.formatS .dget)
  | 0x53 => some (.formatS .dput)
  | _ => none

/-- Decodes a command word; every word that matches no row of the map is rejected by name
(30_encoding.md R101, R102). The slot number is `zext(w[31:16])` (R92). -/
def decode (w : Word) : Except IllegalWord Instr :=
  if wordRsv w ≠ 0 then .error .reservedBitsSet
  else
    match opcodeForm (wordOp w) with
    | none => .error .unknownOpcode
    | some (.formatN i) => if wordImm w ≠ 0 then .error .immediateSet else .ok i
    | some (.formatS mk) => .ok (mk (wordImm w).toNat)

/-- The opcode of a command (30_encoding.md R100). -/
def Instr.opcode : Instr → Byte
  | .nop => 0x00
  | .clrerr => 0x01
  | .srst => 0x02
  | .crcCalc => 0x10
  | .crcStamp => 0x11
  | .crcCheck => 0x12
  | .serCtrl => 0x20
  | .desCtrl => 0x21
  | .serData _ => 0x22
  | .desData _ => 0x23
  | .pack24 => 0x24
  | .unpack24 => 0x25
  | .seqI2w => 0x30
  | .seqW2i => 0x31
  | .chunkBuf => 0x40
  | .chunkSrc => 0x41
  | .totlen => 0x42
  | .reasm => 0x43
  | .init => 0x44
  | .stamp _ => 0x45
  | .stampAll => 0x46
  | .fget _ => 0x50
  | .fput _ => 0x51
  | .dget _ => 0x52
  | .dput _ => 0x53

/-- The command word of a command: `op(M)`, or `op(M) + s × 2^16` (30_encoding.md R103). DESIGN CHOICE:
for a slot number above 65535 (not `Instr.wf`), where that sum does not fit 32 bits and no rule says what
happens, the word keeps the sum's low 32 bits (notes/assumptions/18.md). -/
def encode (i : Instr) : Word :=
  BitVec.ofNat 32 (i.opcode.toNat + i.slotOperand.getD 0 * 2 ^ 16)

/-- The command the decoder reads from an opcode-table word of `nbits` bits; the bits above are 0.
A command word is one 32-bit value written to CMD, so there are no bytes to lay out
(30_encoding.md R90). -/
def decodeTableWord (nbits w : Nat) : Option Instr :=
  match decode (BitVec.ofNat 32 (w % 2 ^ nbits)) with
  | .ok i => some i
  | .error _ => none

end Sys2Proof
end

