-- ==== Sys2Proof/Machine/Bytes.lean ====
section
/-! DEFINITION. Bytes and byte sequences (00_scope.md R14, R15), the packing of the header into a
register (10_state.md R21), the 24-bit packing (30_encoding.md R112) and the sizes derived from the
configuration (00_scope.md R12). -/

namespace Sys2Proof

/-- `le_k(v)`: byte `i` is `v[8i+7:8i]` (00_scope.md R15). -/
def leBytes : (k : Nat) → (v : Nat) → List Byte
  | 0, _ => []
  | k + 1, v => BitVec.ofNat 8 v :: leBytes k (v / 256)

/-- `from_le(b)` = Σ b[i] × 2^(8i) (00_scope.md R15). -/
def fromLe : List Byte → Nat
  | [] => 0
  | b :: bs => b.toNat + 256 * fromLe bs

/-- `b[i .. i+n)` (00_scope.md R15). -/
def slice (b : List Byte) (i n : Nat) : List Byte := (b.drop i).take n

/-- Exactly `n` bytes: `b ++ zeros(n − |b|)`, cut at `n`. -/
def padTo (n : Nat) (b : List Byte) : List Byte := (b ++ List.replicate (n - b.length) 0#8).take n

/-- `ceil_div(a, b)` for `b > 0` (00_scope.md R14). -/
def ceilDiv (a b : Nat) : Nat := (a + (b - 1)) / b

/-- The four header bytes in wire order (30_encoding.md R113). -/
def Header.bytes (h : Header) : List Byte := [h.b0, h.b1, h.b2, h.b3]

/-- The header whose bytes are `b[0..4)`. -/
def Header.ofBytes (b : List Byte) : Header :=
  ⟨b.getD 0 0#8, b.getD 1 0#8, b.getD 2 0#8, b.getD 3 0#8⟩

/-- Header byte `k` in bits `8k+7:8k` (10_state.md R21). -/
def Header.pack (h : Header) : Word := h.b3 ++ h.b2 ++ h.b1 ++ h.b0

/-- The header held in a register: byte `k` is `v[8k+7:8k]` (10_state.md R21). -/
def Header.unpack (v : Word) : Header :=
  ⟨v.extractLsb' 0 8, v.extractLsb' 8 8, v.extractLsb' 16 8, v.extractLsb' 24 8⟩

/-- `bswap32` (00_scope.md R14). -/
def bswap32 (v : Word) : Word :=
  v.extractLsb' 0 8 ++ v.extractLsb' 8 8 ++ v.extractLsb' 16 8 ++ v.extractLsb' 24 8

/-- `pack24(v) = bswap32(zext_32(v)) >> 8` (30_encoding.md R112), a u24 (41_wire_codec.md R164). -/
def pack24 (v : Tri) : Tri := (bswap32 (v.setWidth 32) >>> 8).setWidth 24

/-- `unpack24(p) = trunc_24(bswap32(zext_32(p) << 8))` (30_encoding.md R112). -/
def unpack24 (p : Tri) : Tri := (bswap32 (p.setWidth 32 <<< 8)).setWidth 24

/-- `CTRL_SIZE`, the wire size of a Control Frame (00_scope.md R12). -/
def ctrlSize : Nat := 14

/-- `DATA_OFF`, the offset of `data` in a Data Frame (00_scope.md R12). -/
def dataOff : Nat := 20

/-- `DATA_SIZE` = 22 + F, the wire size of a Data Frame (00_scope.md R12). -/
def Config.dataSize (c : Config) : Nat := 22 + c.fdMax

/-- `WBUF_SIZE` = `DATA_SIZE` (00_scope.md R12). -/
def Config.wbufSize (c : Config) : Nat := c.dataSize

end Sys2Proof
end

