-- ==== Sys2Proof/Machine/State.lean ====
section
/-! DEFINITION. The state of FPC (10_state.md R20), plain data, the reasons a step can stop, and the
state after reset (10_state.md R48, 70_reset_and_hazards.md R280). -/

namespace Sys2Proof.Machine

/-- Why the machine stops for good. FPC has no such reason: "No FPC error is fatal and none makes
FPC stop accepting commands" (60_exceptions.md R255), so the type has no constructor. A failed
command is a NEXT state (`State.raise`). Safe. -/
inductive Fault
deriving DecidableEq, Repr

/-- Actions that are not part of the model. -/
inductive Refusal where
  /-- Raised by an arm of `exec` whose command has no meaning yet. No arm raises it. Safe. -/
  | notModelled (mnemonic : String)
  /-- Raised by a host access to a register number above 31 (93_implementation_defined.md U4). Safe. -/
  | registerOutsideMap (n : Nat)
  /-- Raised by a host access to a PMEM address of `P` or more (93_implementation_defined.md U4). Safe. -/
  | pmemOutsideMap (a : Nat)
  /-- Raised by a host access to a WBUF address of `22 + F` or more (93_implementation_defined.md U4). Safe. -/
  | wbufOutsideMap (a : Nat)
  /-- Raised by `step` where the configuration breaks a constraint of 00_scope.md R6 to R8
  (93_implementation_defined.md U8). Safe. -/
  | configOutsideConstraints
deriving DecidableEq, Repr

/-- A byte memory: the cells that do not read as 0, addresses strictly rising (`Memory.wf`). -/
abbrev Memory := List Host.Cell

/-- The fourteen operand registers (10_state.md R21 to R34), each at its own width. -/
structure Regs where
  /-- No. 0, HDR (R21). -/
  hdr : Word
  /-- No. 1, NFILE (R22). -/
  nfile : Word
  /-- No. 2, NFRAME (R23). -/
  nframe : Half
  /-- No. 3, STATUS (R24). -/
  status : Half
  /-- No. 4, NTOTAL (R25). -/
  ntotal : Tri
  /-- No. 5, FLAG (R26). -/
  flag : Byte
  /-- No. 6, TLEN (R27). -/
  tlen : Word
  /-- No. 7, DLEN (R28). -/
  dlen : Half
  /-- No. 8, CSUM (R29). -/
  csum : Half
  /-- No. 9, ID (R30). -/
  id : Half
  /-- No. 10, COUNT (R31). -/
  count : Tri
  /-- No. 11, ADDR (R32). -/
  addr : Word
  /-- No. 12, LEN (R33). -/
  len : Word
  /-- No. 13, P24 (R34). -/
  p24 : Tri
deriving DecidableEq, Repr

/-- The fields of STAT (10_state.md R38). Its reserved bits hold nothing and read as 0
(`Stat.toWord`). -/
structure Stat where
  /-- Bits 3:0. -/
  err : BitVec 4
  /-- Bit 4. -/
  crcok : Bool
  /-- Bit 5. -/
  limit : Bool
  /-- Bits 15:8; bit `k` here is STAT bit `8 + k`. -/
  sticky : Byte
deriving DecidableEq, Repr

/-- One slot of the frame store: a Data Frame in field form (10_state.md R41). -/
structure Slot where
  header : Header
  nFile : Word
  nFrame : Half
  nTotal : Tri
  flag : Byte
  totalLen : Word
  dataLen : Half
  /-- `F` bytes (`State.Wf` says so). -/
  data : List Byte
  checksum : Half
deriving DecidableEq, Repr

/-- The Control Frame in field form (10_state.md R42). -/
structure CtrlFrame where
  header : Header
  nFile : Word
  nFrame : Half
  status : Half
  checksum : Half
deriving DecidableEq, Repr

/-- The pull-based byte source (20_memory.md R72, 10_state.md R46), outside FPC: the answers it is
scheduled to give, and the pulls made so far, which the oracle is asked with once the schedule is
empty (notes/assumptions/5.md). -/
structure Source where
  queue : List SrcAnswer
  history : List SrcPull
deriving DecidableEq, Repr

/-- What reset leaves unspecified (10_state.md R48, 93_implementation_defined.md U1, U3): the contents
of FS, WBUF and PMEM, and what the source will answer. Bytes and slots that are not listed are 0. -/
structure Contents where
  fs : List Slot
  wbuf : List Byte
  pmem : List Byte
  srcQueue : List SrcAnswer
deriving DecidableEq, Repr

/-- An action on FPC from outside (30_encoding.md R105, 70_reset_and_hazards.md R280). A command is
`regWrite 16 w` (10_state.md R37). -/
inductive HostAction where
  /-- `RegRead(n)` (10_state.md R35). -/
  | regRead (n : Nat)
  /-- `RegWrite(n, v)` (10_state.md R35). -/
  | regWrite (n : Nat) (v : Word)
  /-- `PmemRead(a)` (20_memory.md R61). -/
  | pmemRead (a : Nat)
  /-- `PmemWrite(a, b)` (20_memory.md R61). -/
  | pmemWrite (a : Nat) (b : Byte)
  /-- `WbufRead(a)` (20_memory.md R62). -/
  | wbufRead (a : Nat)
  /-- `WbufWrite(a, b)` (20_memory.md R62). -/
  | wbufWrite (a : Nat) (b : Byte)
  /-- Reset, with the contents it happens to leave (70_reset_and_hazards.md R280). -/
  | reset (c : Contents)
deriving DecidableEq, Repr

/-- The whole state (10_state.md R20), the configuration the read-only registers show (R45), and the
model's own fields `src`, `script`, `reports`, `freeDraws`. -/
structure State where
  /-- The configuration: constant, shown by registers 24 to 31 (R45). -/
  cfg : Config
  /-- Operand registers 0 to 13. -/
  regs : Regs
  /-- Register 17, STAT (R38). -/
  stat : Stat
  /-- Register 18, WLEN (R39). -/
  wlen : Word
  /-- The frame store, slot 0 first (R40). -/
  fs : List Slot
  /-- The wire buffer (R43). -/
  wbuf : Memory
  /-- The payload memory (R44). -/
  pmem : Memory
  /-- The pull-based source, outside FPC (R46; notes/assumptions/5.md). -/
  src : Source
  /-- The host's actions still to come (R36; notes/assumptions/3.md). -/
  script : List HostAction
  /-- The values the host's reads have reported, in order (30_encoding.md R105; notes/assumptions/4.md). -/
  reports : List Word
  /-- How many times free values have been drawn (notes/assumptions/6.md). -/
  freeDraws : Nat
deriving DecidableEq, Repr

/-- What an action or a command ends in. -/
abbrev Result := Host.Outcome State Fault Refusal

/-- The operand registers after reset (10_state.md R48). -/
def Regs.reset (c : Config) : Regs :=
  { hdr := c.magic.pack, nfile := 0, nframe := 0, status := 0, ntotal := 0, flag := 0, tlen := 0,
    dlen := 0, csum := 0, id := 0, count := 0, addr := 0, len := 0, p24 := 0 }

/-- STAT after reset (10_state.md R48). -/
def Stat.reset : Stat := { err := 0, crcok := false, limit := false, sticky := 0 }

/-- A slot of zeros: what a slot that nothing has written reads as in `State.reset`
(notes/assumptions/2.md). -/
def Slot.blank (fdMax : Nat) : Slot :=
  { header := ⟨0, 0, 0, 0⟩, nFile := 0, nFrame := 0, nTotal := 0, flag := 0, totalLen := 0,
    dataLen := 0, data := List.replicate fdMax 0#8, checksum := 0 }

/-- The machine right after reset (10_state.md R48), in the configuration CFG-4 (00_scope.md R13;
notes/assumptions/1.md). FS, WBUF and PMEM, which the spec leaves unspecified, are zeros
(notes/assumptions/2.md); `resetTo` is reset with arbitrary contents and configuration. -/
def State.reset : State :=
  { cfg := .cfg4, regs := .reset .cfg4, stat := .reset, wlen := 0,
    fs := List.replicate Config.cfg4.nSlots (.blank Config.cfg4.fdMax), wbuf := [], pmem := [],
    src := ⟨[], []⟩, script := [], reports := [], freeDraws := 0 }

end Sys2Proof.Machine
end

