-- ==== Sys2Proof/Machine/Flags.lean ====
section
/-! DEFINITION. The error codes (60_exceptions.md R240) and every computation of a field of STAT
(10_state.md R38). -/

namespace Sys2Proof.Machine

/-- The error kinds (60_exceptions.md R240). -/
inductive ErrCode where
  /-- Reserved for the transport; no command raises it (R241). -/
  | timeout
  /-- WLEN is not the frame's wire size (R242). -/
  | short
  /-- Computed and stored checksums differ (R243). -/
  | csum
  /-- The source gave no byte at all (R244). -/
  | srcExhausted
  /-- A pull answered `Err` (R245). -/
  | srcError
  /-- The command word is illegal (R246). -/
  | illegal
  /-- An operand is out of range (R247). -/
  | range
deriving DecidableEq, Repr

/-- The code of an error kind, as held in STAT.ERR (60_exceptions.md R240). -/
def ErrCode.code : ErrCode → BitVec 4
  | .timeout => 1
  | .short => 2
  | .csum => 3
  | .srcExhausted => 4
  | .srcError => 5
  | .illegal => 6
  | .range => 7

/-- STAT as the host reads it: ERR 3:0, CRCOK 4, LIMIT 5, STICKY 15:8, the rest 0 (10_state.md R38). -/
def Stat.toWord (t : Stat) : Word :=
  0#16 ++ t.sticky ++ 0#2 ++ BitVec.ofBool t.limit ++ BitVec.ofBool t.crcok ++ t.err

/-- STAT after a failed command: `ERR <- code; STICKY[code] <- 1` (60_exceptions.md R250). -/
def Stat.raise (t : Stat) (e : ErrCode) : Stat :=
  { t with err := e.code, sticky := t.sticky ||| (1#8 <<< e.code.toNat) }

/-- STAT after a successful command: `ERR <- 0` (10_state.md R38). -/
def Stat.succeed (t : Stat) : Stat := { t with err := 0 }

/-- `STAT.CRCOK <- b` (10_state.md R38). -/
def Stat.withCrcok (t : Stat) (b : Bool) : Stat := { t with crcok := b }

/-- `STAT.LIMIT <- b` (10_state.md R38). -/
def Stat.withLimit (t : Stat) (b : Bool) : Stat := { t with limit := b }

/-- `STAT.ERR <- 0; STAT.STICKY <- 0` (44_access_and_system.md R225). -/
def Stat.clearErrors (t : Stat) : Stat := { t with err := 0, sticky := 0 }

end Sys2Proof.Machine
end

