-- ==== Sys2Proof/Machine/Operands.lean ====
section
/-! DEFINITION. The operand forms: registers by name and number (10_state.md R35, R45), the checks on
slot, count and range operands (20_memory.md R75), the slots of the frame store (10_state.md R40),
and the Control Frame held in registers (10_state.md R42). -/

namespace Sys2Proof.Machine

/-- A slot operand names an existing slot: `s < S` (30_encoding.md R92, 20_memory.md R75). -/
abbrev State.hasSlot (s : State) (k : Nat) : Prop := k < s.cfg.nSlots

/-- The count operand `x[COUNT]` (10_state.md R31). -/
def State.countOperand (s : State) : Nat := s.regs.count.toNat

/-- A frame count fits the frame store: `n ≤ S` (20_memory.md R75). -/
abbrev State.fitsStore (s : State) (n : Nat) : Prop := n ≤ s.cfg.nSlots

/-- The PMEM range `[a, a+n)` is valid: `a + n ≤ P`, in exact integers (20_memory.md R75). -/
abbrev State.fitsPmem (s : State) (a n : Nat) : Prop := a + n ≤ s.cfg.pmemSize

/-- The WBUF range `[0, n)` is valid: `n ≤ WBUF_SIZE` (20_memory.md R75). -/
abbrev State.fitsWbuf (s : State) (n : Nat) : Prop := n ≤ s.cfg.wbufSize

/-- `FS[k]` (00_scope.md R16). Where a state that no run reaches holds fewer than `S` slots, or a
slot whose `data` is not `F` bytes, the missing ones read as zeros (notes/assumptions/13.md). -/
def State.slot (s : State) (k : Nat) : Slot :=
  let f := s.fs.getD k (.blank s.cfg.fdMax)
  { f with data := padTo s.cfg.fdMax f.data }

/-- `FS[k] <- f` (00_scope.md R16). -/
def State.setSlot (s : State) (k : Nat) (f : Slot) : State := { s with fs := s.fs.set k f }

/-- `updateFirst g i n l` replaces the first `n` elements of `l`; the element that stands `j` places
into `l` becomes `g (i + j)` of itself. -/
def updateFirst (g : Nat → Slot → Slot) : (i n : Nat) → List Slot → List Slot
  | _, 0, l => l
  | _, _, [] => []
  | i, n + 1, f :: l => g i f :: updateFirst g (i + 1) n l

/-- `for i in 0..n: FS[i] <- g(i, FS[i])` (00_scope.md R16). -/
def State.updateSlots (s : State) (n : Nat) (g : Nat → Slot → Slot) : State :=
  { s with fs := updateFirst (fun i f => g i { f with data := padTo s.cfg.fdMax f.data }) 0 n s.fs }

/-- The frame set `FS[0] .. FS[n−1]` (43_frame_chunker.md). -/
def State.frameSet (s : State) (n : Nat) : List Slot := (List.range n).map s.slot

/-- `Σ_{i in 0..n} FS[i].data_len`, exact (43_frame_chunker.md R194). -/
def sumDataLen (fs : List Slot) : Nat := (fs.map (fun f => f.dataLen.toNat)).sum

/-- The Control Frame held in HDR, NFILE, NFRAME, STATUS, CSUM (10_state.md R42). -/
def Regs.ctrlFrame (x : Regs) : CtrlFrame :=
  { header := .unpack x.hdr, nFile := x.nfile, nFrame := x.nframe, status := x.status,
    checksum := x.csum }

/-- The registers that hold a Control Frame take its fields (10_state.md R42). -/
def Regs.loadCtrlFrame (x : Regs) (f : CtrlFrame) : Regs :=
  { x with hdr := f.header.pack, nfile := f.nFile, nframe := f.nFrame, status := f.status,
           csum := f.checksum }

/-- The staging registers take the header fields of a slot (44_access_and_system.md R220). -/
def Regs.loadSlot (x : Regs) (f : Slot) : Regs :=
  { x with hdr := f.header.pack, nfile := f.nFile, nframe := f.nFrame, ntotal := f.nTotal,
           flag := f.flag, tlen := f.totalLen, dlen := f.dataLen, csum := f.checksum }

/-- A slot takes its header fields from the staging registers (44_access_and_system.md R221). -/
def Regs.stageInto (x : Regs) (f : Slot) : Slot :=
  { f with header := .unpack x.hdr, nFile := x.nfile, nFrame := x.nframe, nTotal := x.ntotal,
           flag := x.flag, totalLen := x.tlen, dataLen := x.dlen, checksum := x.csum }

end Sys2Proof.Machine
end

