-- ==== Sys2Proof/Machine/Crc.lean ====
section
/-! DEFINITION. The checksum function `CRC16` (40_checksum.md R130, R131). -/

namespace Sys2Proof

/-- One of the eight shifts of 40_checksum.md R131. -/
def crcShift (poly reg : Half) : Half :=
  if reg.getLsbD 15 then (reg <<< 1) ^^^ poly else reg <<< 1

/-- The register after one byte of the input (40_checksum.md R131). -/
def crcByte (c : CrcParams) (reg : Half) (b : Byte) : Half :=
  let t := if c.refIn then b.reverse else b
  Nat.repeat (crcShift c.poly) 8 (reg ^^^ (t.setWidth 16 <<< 8))

/-- `CRC16(b)` (40_checksum.md R131). -/
def crc16 (c : CrcParams) (bytes : List Byte) : Half :=
  let reg := bytes.foldl (crcByte c) c.init
  (if c.refOut then reg.reverse else reg) ^^^ c.xorOut

end Sys2Proof
end

