-- ==== Sys2Proof/Machine/Wire.lean ====
section
/-! DEFINITION. The wire images of the two frame kinds (30_encoding.md R110, R111), their inverses
(41_wire_codec.md R151, R152) and the checksum of a frame (40_checksum.md R134). -/

namespace Sys2Proof.Machine

/-- `body_ctrl`: the 12 bytes before the checksum (30_encoding.md R110). -/
def bodyCtrl (f : CtrlFrame) : List Byte :=
  f.header.bytes ++ leBytes 4 f.nFile.toNat ++ leBytes 2 f.nFrame.toNat ++ leBytes 2 f.status.toNat

/-- `wire_ctrl`: the 14 bytes of a Control Frame (30_encoding.md R110). -/
def wireCtrl (f : CtrlFrame) : List Byte := bodyCtrl f ++ leBytes 2 f.checksum.toNat

/-- `parse_ctrl` (41_wire_codec.md R151). -/
def parseCtrl (b : List Byte) : CtrlFrame :=
  { header := .ofBytes (slice b 0 4)
    nFile := BitVec.ofNat 32 (fromLe (slice b 4 4))
    nFrame := BitVec.ofNat 16 (fromLe (slice b 8 2))
    status := BitVec.ofNat 16 (fromLe (slice b 10 2))
    checksum := BitVec.ofNat 16 (fromLe (slice b 12 2)) }

/-- The 20 bytes of a Data Frame before `data` (30_encoding.md R111). -/
def headData (f : Slot) : List Byte :=
  f.header.bytes ++ leBytes 4 f.nFile.toNat ++ leBytes 2 f.nFrame.toNat ++
    leBytes 3 f.nTotal.toNat ++ [f.flag] ++ leBytes 4 f.totalLen.toNat ++ leBytes 2 f.dataLen.toNat

/-- `body_data`: the `20 + F` bytes before the checksum (30_encoding.md R111). -/
def bodyData (f : Slot) : List Byte := headData f ++ f.data

/-- `wire_data`: the `22 + F` bytes of a Data Frame (30_encoding.md R111). -/
def wireData (f : Slot) : List Byte := bodyData f ++ leBytes 2 f.checksum.toNat

/-- `parse_data` (41_wire_codec.md R152). -/
def parseData (fdMax : Nat) (b : List Byte) : Slot :=
  { header := .ofBytes (slice b 0 4)
    nFile := BitVec.ofNat 32 (fromLe (slice b 4 4))
    nFrame := BitVec.ofNat 16 (fromLe (slice b 8 2))
    nTotal := BitVec.ofNat 24 (fromLe (slice b 10 3))
    flag := b.getD 13 0#8
    totalLen := BitVec.ofNat 32 (fromLe (slice b 14 4))
    dataLen := BitVec.ofNat 16 (fromLe (slice b 18 2))
    data := slice b dataOff fdMax
    checksum := BitVec.ofNat 16 (fromLe (slice b (dataOff + fdMax) 2)) }

/-- `csum_ctrl` (40_checksum.md R134). -/
def csumCtrl (c : CrcParams) (f : CtrlFrame) : Half := crc16 c (bodyCtrl f)

/-- `csum_data` (40_checksum.md R134). -/
def csumData (c : CrcParams) (f : Slot) : Half := crc16 c (bodyData f)

/-- `f.checksum <- csum_data(f)` (40_checksum.md R134). -/
def Slot.stamped (c : CrcParams) (f : Slot) : Slot := { f with checksum := csumData c f }

end Sys2Proof.Machine
end

