-- ==== Sys2Proof/Machine/Ops.lean ====
section
/-! DEFINITION. The named operations over memories, status and the byte source: reading and writing
bytes, how a command ends (60_exceptions.md R250), a pull (20_memory.md R72) and reset
(70_reset_and_hazards.md R280). -/

namespace Sys2Proof.Machine

/-! ### Byte memories -/

/-- What an address that is not listed reads as (notes/assumptions/2.md). -/
def Memory.unlisted : Byte := 0

/-- `M[a]`. -/
def Memory.read : Memory → Nat → Byte
  | [], _ => Memory.unlisted
  | (c, b) :: m, a => if c = a then b else Memory.read m a

/-- Puts a cell before the first cell of a higher address. -/
def Memory.insertCell : Memory → Nat → Byte → Memory
  | [], a, b => [(a, b)]
  | (c, d) :: m, a, b => if a < c then (a, b) :: (c, d) :: m else (c, d) :: Memory.insertCell m a b

/-- `M[a] <- b`, keeping the canonical form. -/
def Memory.write (m : Memory) (a : Nat) (b : Byte) : Memory :=
  let rest := m.filter (fun c => c.1 ≠ a)
  if b = Memory.unlisted then rest else Memory.insertCell rest a b

/-- `MemRead(M, a, n)` (00_scope.md R16). -/
def Memory.readBytes (m : Memory) : (a n : Nat) → List Byte
  | _, 0 => []
  | a, n + 1 => m.read a :: Memory.readBytes m (a + 1) n

/-- `MemWrite(M, a, |b|, b)` (00_scope.md R16). -/
def Memory.writeBytes (m : Memory) : (a : Nat) → List Byte → Memory
  | _, [] => m
  | a, b :: bs => Memory.writeBytes (m.write a b) (a + 1) bs

/-- Every address is `lo` or more, addresses strictly rise, no byte equals what an unlisted address
reads as. -/
def Memory.wfFrom : (lo : Nat) → Memory → Bool
  | _, [] => true
  | lo, (a, b) :: m => decide (lo ≤ a) && decide (b ≠ Memory.unlisted) && Memory.wfFrom (a + 1) m

/-- The canonical form of a memory. -/
def Memory.wf (m : Memory) : Bool := m.wfFrom 0

/-- Every listed address is below `size`. -/
def Memory.inside (m : Memory) (size : Nat) : Bool := m.all (fun c => decide (c.1 < size))

/-- `MemRead(PMEM, a, n)`. -/
def State.readPmem (s : State) (a n : Nat) : List Byte := s.pmem.readBytes a n

/-- `MemWrite(PMEM, a, |b|, b)`. -/
def State.writePmem (s : State) (a : Nat) (b : List Byte) : State :=
  { s with pmem := s.pmem.writeBytes a b }

/-- `MemRead(WBUF, a, n)`. -/
def State.readWbuf (s : State) (a n : Nat) : List Byte := s.wbuf.readBytes a n

/-- `MemWrite(WBUF, a, |b|, b)`. -/
def State.writeWbuf (s : State) (a : Nat) (b : List Byte) : State :=
  { s with wbuf := s.wbuf.writeBytes a b }

/-! ### How a command ends -/

/-- `raise Err(code)`: FPC's counterpart of taking an exception. STAT records the code and nothing
else changes (60_exceptions.md R250); there is no saved state, no mode and no control transfer
(R253), and nothing to return to (R254). -/
def State.raise (s : State) (e : ErrCode) : State := { s with stat := s.stat.raise e }

/-- The command completes: `STAT.ERR <- 0` (10_state.md R38). -/
def State.succeed (s : State) : State := { s with stat := s.stat.succeed }

/-- `STAT.CRCOK <- b` (10_state.md R38). -/
def State.setCrcok (s : State) (b : Bool) : State := { s with stat := s.stat.withCrcok b }

/-- `STAT.LIMIT <- b` (10_state.md R38). -/
def State.setLimit (s : State) (b : Bool) : State := { s with stat := s.stat.withLimit b }

/-! ### Checksums of frames -/

/-- `csum_data(FS[k])` with the configuration's CRC (40_checksum.md R134). -/
def State.slotCsum (s : State) (k : Nat) : Half := csumData s.cfg.crc (s.slot k)

/-- `FS[k].checksum <- csum_data(FS[k])` (43_frame_chunker.md R197). -/
def State.stampSlot (s : State) (k : Nat) : State := s.setSlot k ((s.slot k).stamped s.cfg.crc)

/-! ### The pull-based source -/

/-- An answer within the length bound `k ≤ n` of 20_memory.md R72. -/
def boundAnswer (n : Nat) : SrcAnswer → SrcAnswer
  | .ok b => .ok (b.take n)
  | .err => .err

/-- What an answer to a pull of `n` bytes leaves scheduled: "the next pull continues after them"
(20_memory.md R72). -/
def leftover (n : Nat) : SrcAnswer → List SrcAnswer
  | .ok b => if n < b.length then [.ok (b.drop n)] else []
  | .err => []

/-- `SrcPull(n)` (20_memory.md R72): the next scheduled answer, or the oracle's. -/
def Source.pull (src : Source) (n : Nat) : SrcAnswer × Source :=
  match src.queue with
  | [] =>
    let r := boundAnswer n (Config.srcOracle src.history n)
    (r, { queue := [], history := src.history ++ [⟨n, r⟩] })
  | q :: rest =>
    let r := boundAnswer n q
    (r, { queue := leftover n q ++ rest, history := src.history ++ [⟨n, r⟩] })

/-! ### Reset -/

/-- The registers, STAT and WLEN at their reset values, everything else as it was
(44_access_and_system.md R226, 10_state.md R48). -/
def State.resetRegs (s : State) : State :=
  { s with regs := .reset s.cfg, stat := .reset, wlen := 0 }

/-- Exactly `n` slots of `F` bytes of `data`: those listed, then slots of zeros. -/
def padSlots (fdMax n : Nat) (l : List Slot) : List Slot :=
  ((l ++ List.replicate (n - l.length) (Slot.blank fdMax)).take n).map
    (fun (f : Slot) => { f with data := padTo fdMax f.data })

/-- Reset (70_reset_and_hazards.md R280): registers at their reset values; FS, WBUF, PMEM and the
source hold whatever reset happens to leave, given as an argument (93_implementation_defined.md U1,
U3). The host's own records stay. -/
def State.resetTo (s : State) (c : Contents) : State :=
  { s.resetRegs with
    fs := padSlots s.cfg.fdMax s.cfg.nSlots c.fs
    wbuf := Memory.writeBytes [] 0 (c.wbuf.take s.cfg.wbufSize)
    pmem := Memory.writeBytes [] 0 (c.pmem.take s.cfg.pmemSize)
    src := { queue := c.srcQueue, history := s.src.history } }

end Sys2Proof.Machine
end

