-- ==== Sys2Proof/Machine/Access.lean ====
section
/-! DEFINITION. The frame access commands (44_access_and_system.md R220 to R223). -/

namespace Sys2Proof.Machine

/-- `FGET s` (R220). -/
def execFget (k : Nat) (s : State) : Result :=
  if s.hasSlot k then .next { s with regs := s.regs.loadSlot (s.slot k) }.succeed
  else .next (s.raise .range)

/-- `FPUT s` (R221). -/
def execFput (k : Nat) (s : State) : Result :=
  if s.hasSlot k then .next (s.setSlot k (s.regs.stageInto (s.slot k))).succeed
  else .next (s.raise .range)

/-- `DGET s` (R222). -/
def execDget (k : Nat) (s : State) : Result :=
  let a := s.regs.addr.toNat
  if s.hasSlot k then
    if s.fitsPmem a s.cfg.fdMax then .next (s.writePmem a (s.slot k).data).succeed
    else .next (s.raise .range)
  else .next (s.raise .range)

/-- `DPUT s` (R223). -/
def execDput (k : Nat) (s : State) : Result :=
  let a := s.regs.addr.toNat
  if s.hasSlot k then
    if s.fitsPmem a s.cfg.fdMax then
      .next (s.setSlot k { s.slot k with data := s.readPmem a s.cfg.fdMax }).succeed
    else .next (s.raise .range)
  else .next (s.raise .range)

end Sys2Proof.Machine
end

