-- ==== Sys2Proof/Machine/Checksum.lean ====
section
/-! DEFINITION. The checksum commands (40_checksum.md R135 to R137). -/

namespace Sys2Proof.Machine

/-- `CRC.CALC` (R135). -/
def execCrcCalc (s : State) : Result :=
  let n := s.wlen.toNat
  if s.fitsWbuf n then
    .next { s with regs := { s.regs with csum := crc16 s.cfg.crc (s.readWbuf 0 n) } }.succeed
  else .next (s.raise .range)

/-- WLEN leaves room for the two checksum bytes and fits WBUF (R136, R137). -/
abbrev State.stampable (s : State) : Prop := 2 ≤ s.wlen.toNat ∧ s.fitsWbuf s.wlen.toNat

/-- `CRC16` of the WLEN bytes of WBUF but the last two (R136, R137). -/
def State.imageCsum (s : State) : Half := crc16 s.cfg.crc (s.readWbuf 0 (s.wlen.toNat - 2))

/-- `CRC.STAMP` (R136). -/
def execCrcStamp (s : State) : Result :=
  if s.stampable then
    let c := s.imageCsum
    let s' := s.writeWbuf (s.wlen.toNat - 2) (leBytes 2 c.toNat)
    .next { s' with regs := { s.regs with csum := c } }.succeed
  else .next (s.raise .range)

/-- `CRC.CHECK` (R137). -/
def execCrcCheck (s : State) : Result :=
  if s.stampable then
    let c := s.imageCsum
    let r := fromLe (s.readWbuf (s.wlen.toNat - 2) 2)
    if c.toNat = r then
      .next ({ s with regs := { s.regs with csum := c } }.setCrcok true).succeed
    else .next ((s.setCrcok false).raise .csum)
  else .next ((s.setCrcok false).raise .range)

end Sys2Proof.Machine
end

