-- ==== Sys2Proof/Machine/Sequencer.lean ====
section
/-! DEFINITION. The sequencer (42_sequencer.md): its two functions in both modes and its two
commands. -/

namespace Sys2Proof.Machine

/-- `index_to_wire(id, len)` (R181, R183, R185). -/
def indexToWire (mode : SeqMode) (id : Half) (len : Tri) : Half :=
  match mode with
  | .documented => if len = 1 then id else id + 1
  | .identity => id

/-- `wire_to_index(n_frame, len)` (R182, R184, R185). -/
def wireToIndex (mode : SeqMode) (nFrame : Half) (len : Tri) : Half :=
  match mode with
  | .documented => if len = 1 then nFrame else nFrame - 1
  | .identity => nFrame

/-- `SEQ.I2W` (R186). -/
def execSeqI2w (s : State) : Result :=
  .next { s with regs :=
    { s.regs with nframe := indexToWire s.cfg.seqMode s.regs.id s.regs.count } }.succeed

/-- `SEQ.W2I` (R187). -/
def execSeqW2i (s : State) : Result :=
  .next { s with regs :=
    { s.regs with id := wireToIndex s.cfg.seqMode s.regs.nframe s.regs.count } }.succeed

end Sys2Proof.Machine
end

