-- ==== Sys2Proof/Machine/Chunker.lean ====
section
/-! DEFINITION. The frame chunker commands (43_frame_chunker.md R190 to R198). -/

namespace Sys2Proof.Machine

/-- The slot of a frame set of `n` frames and `total` payload bytes that carries the bytes `b`: the
fields a chunk command writes, the checksum last (R192, R193). -/
def Slot.chunked (c : Config) (n total : Nat) (b : List Byte) (f : Slot) : Slot :=
  Slot.stamped c.crc
    { f with data := padTo c.fdMax b, dataLen := BitVec.ofNat 16 b.length,
             nTotal := BitVec.ofNat 24 n, totalLen := BitVec.ofNat 32 total }

/-- `dl(i)`: the payload bytes frame `i` of `n` carries (R191). -/
def frameLen (fdMax total n i : Nat) : Nat :=
  if i + 1 < n then fdMax else total - (n - 1) * fdMax

/-- `CHUNK.BUF` (R192). -/
def execChunkBuf (s : State) : Result :=
  let total := s.regs.len.toNat
  let a := s.regs.addr.toNat
  let n := ceilDiv total s.cfg.fdMax
  if s.fitsStore n then
    if s.fitsPmem a total then
      let s' := s.updateSlots n (fun i f => f.chunked s.cfg n total
        (s.readPmem (a + i * s.cfg.fdMax) (frameLen s.cfg.fdMax total n i)))
      .next { s' with regs := { s.regs with count := BitVec.ofNat 24 n } }.succeed
    else .next (s.raise .range)
  else .next (s.raise .range)

/-- How the pull loop of CHUNK.SRC ends (R193). -/
inductive PullRun where
  /-- A pull answered `Err` after `done` frames had been completed. -/
  | failed (done : Nat) (src : Source)
  /-- The loop ended: the non-empty chunks in order, and whether a short read was seen. -/
  | finished (chunks : List (List Byte)) (ended : Bool) (src : Source)
deriving DecidableEq, Repr

/-- The `while` loop of R193 with `max` = M: `chunks` are the frames completed so far, `total` their
bytes. `fuel` bounds the pulls; `ceil_div(M, F)` is enough (R193). -/
def pullLoop (fdMax max : Nat) : (fuel total : Nat) → (chunks : List (List Byte)) → Source → PullRun
  | 0, _, chunks, src => .finished chunks false src
  | fuel + 1, total, chunks, src =>
    if total < max then
      let req := min fdMax (max - total)
      match src.pull req with
      | (.err, src') => .failed chunks.length src'
      | (.ok b, src') =>
        let chunks' := if b.length = 0 then chunks else chunks ++ [b]
        if b.length < req then .finished chunks' true src'
        else pullLoop fdMax max fuel (total + b.length) chunks' src'
    else .finished chunks false src

/-- Slot `i` after the `draw`-th SRC_ERROR: `data` and `data_len` are free values (R193,
93_implementation_defined.md U2; notes/assumptions/6.md). -/
def Slot.scrambled (fdMax draw i : Nat) (f : Slot) : Slot :=
  { f with data := (List.range fdMax).map (Config.freeData draw i),
           dataLen := Config.freeDataLen draw i }

/-- SRC_ERROR after `done` completed frames: `data` and `data_len` of slots `0..done` become
unspecified (R193). -/
def State.srcFailed (s : State) (done : Nat) : State :=
  { s.updateSlots (done + 1) (Slot.scrambled s.cfg.fdMax s.freeDraws) with
    freeDraws := s.freeDraws + 1 }.raise .srcError

/-- The frame set made of pulled chunks (R193). -/
def State.frameChunks (s : State) (chunks : List (List Byte)) (ended : Bool) : State :=
  let total := (chunks.map List.length).sum
  let n := chunks.length
  let s' := s.updateSlots n (fun i f => f.chunked s.cfg n total (chunks.getD i []))
  ({ s' with regs := { s.regs with count := BitVec.ofNat 24 n,
                                   len := BitVec.ofNat 32 total } }.setLimit (!ended)).succeed

/-- `CHUNK.SRC` (R193). -/
def execChunkSrc (s : State) : Result :=
  let max := s.regs.len.toNat
  let n := ceilDiv max s.cfg.fdMax
  if s.fitsStore n then
    match pullLoop s.cfg.fdMax max n 0 [] s.src with
    | .failed done src => .next ({ s with src := src }.srcFailed done)
    | .finished chunks ended src =>
      if chunks = [] then .next ({ s with src := src }.raise .srcExhausted)
      else .next ({ s with src := src }.frameChunks chunks ended)
  else .next (s.raise .range)

/-- `TOTLEN` (R194). -/
def execTotlen (s : State) : Result :=
  let n := s.countOperand
  if s.fitsStore n then
    let total := sumDataLen (s.frameSet n)
    .next { s with regs := { s.regs with len := BitVec.ofNat 32 total } }.succeed
  else .next (s.raise .range)

/-- The valid bytes of a frame set in slot order (R195). -/
def payloadOf (fs : List Slot) : List Byte := fs.flatMap (fun f => f.data.take f.dataLen.toNat)

/-- `REASM` (R195). -/
def execReasm (s : State) : Result :=
  let n := s.countOperand
  let a := s.regs.addr.toNat
  if s.fitsStore n then
    let fs := s.frameSet n
    let total := sumDataLen fs
    if ∀ f ∈ fs, f.dataLen.toNat ≤ s.cfg.fdMax then
      if s.fitsPmem a total then
        .next { s.writePmem a (payloadOf fs) with
                regs := { s.regs with len := BitVec.ofNat 32 total } }.succeed
      else .next (s.raise .range)
    else .next (s.raise .range)
  else .next (s.raise .range)

/-- Slot `i` of a frame set of `n` frames with its identity stamped (R196). -/
def Slot.initialised (c : Config) (x : Regs) (n i : Nat) (f : Slot) : Slot :=
  { f with header := c.magic, nFile := x.nfile,
           nFrame := indexToWire c.seqMode (BitVec.ofNat 16 i) (BitVec.ofNat 24 n), flag := x.flag }

/-- `INIT` (R196). -/
def execInit (s : State) : Result :=
  let n := s.countOperand
  if s.fitsStore n then .next (s.updateSlots n (Slot.initialised s.cfg s.regs n)).succeed
  else .next (s.raise .range)

/-- `STAMP s` (R197). -/
def execStamp (k : Nat) (s : State) : Result :=
  if s.hasSlot k then .next (s.stampSlot k).succeed else .next (s.raise .range)

/-- `STAMP.ALL` (R198). -/
def execStampAll (s : State) : Result :=
  let n := s.countOperand
  if s.fitsStore n then .next (s.updateSlots n (fun _ f => f.stamped s.cfg.crc)).succeed
  else .next (s.raise .range)

end Sys2Proof.Machine
end

