-- ==== Sys2Proof/Machine/Codec.lean ====
section
/-! DEFINITION. The wire codec commands (41_wire_codec.md R160 to R165). -/

namespace Sys2Proof.Machine

/-- `SER.CTRL` (R160). -/
def execSerCtrl (s : State) : Result :=
  let c := csumCtrl s.cfg.crc s.regs.ctrlFrame
  let s' := { s with regs := { s.regs with csum := c } }
  .next { s'.writeWbuf 0 (wireCtrl s'.regs.ctrlFrame) with wlen := BitVec.ofNat 32 ctrlSize }.succeed

/-- `DES.CTRL` (R161). -/
def execDesCtrl (s : State) : Result :=
  if s.wlen.toNat = ctrlSize then
    let b := s.readWbuf 0 ctrlSize
    let c := crc16 s.cfg.crc (slice b 0 12)
    if c.toNat = fromLe (slice b 12 2) then
      .next ({ s with regs := s.regs.loadCtrlFrame (parseCtrl b) }.setCrcok true).succeed
    else .next ((s.setCrcok false).raise .csum)
  else .next ((s.setCrcok false).raise .short)

/-- `SER.DATA s` (R162). -/
def execSerData (k : Nat) (s : State) : Result :=
  if s.hasSlot k then
    let f := (s.slot k).stamped s.cfg.crc
    let s' := (s.setSlot k f).writeWbuf 0 (wireData f)
    .next { s' with wlen := BitVec.ofNat 32 s.cfg.dataSize }.succeed
  else .next (s.raise .range)

/-- `DES.DATA s` (R163). -/
def execDesData (k : Nat) (s : State) : Result :=
  if s.hasSlot k then
    if s.wlen.toNat = s.cfg.dataSize then
      let b := s.readWbuf 0 s.cfg.dataSize
      let c := crc16 s.cfg.crc (slice b 0 (dataOff + s.cfg.fdMax))
      if c.toNat = fromLe (slice b (dataOff + s.cfg.fdMax) 2) then
        .next ((s.setSlot k (parseData s.cfg.fdMax b)).setCrcok true).succeed
      else .next ((s.setCrcok false).raise .csum)
    else .next ((s.setCrcok false).raise .short)
  else .next (s.raise .range)

/-- `PACK24` (R164). -/
def execPack24 (s : State) : Result :=
  .next { s with regs := { s.regs with p24 := pack24 s.regs.ntotal } }.succeed

/-- `UNPACK24` (R165). -/
def execUnpack24 (s : State) : Result :=
  .next { s with regs := { s.regs with ntotal := unpack24 s.regs.p24 } }.succeed

end Sys2Proof.Machine
end

