-- ==== Sys2Proof/Machine/System.lean ====
section
/-! DEFINITION. The system commands (44_access_and_system.md R224 to R226). -/

namespace Sys2Proof.Machine

/-- `NOP` (R224). -/
def execNop (s : State) : Result := .next s.succeed

/-- `CLRERR` (R225). -/
def execClrerr (s : State) : Result := .next { s with stat := s.stat.clearErrors }

/-- `SRST` (R226). -/
def execSrst (s : State) : Result := .next s.resetRegs

end Sys2Proof.Machine
end

