-- ==== Sys2Proof/Machine/Dispatch.lean ====
section
/-! DEFINITION. The command executor: one arm per command, in the order of the opcode map
(30_encoding.md R100). -/

namespace Sys2Proof.Machine

def exec (i : Instr) (s : State) : Host.Outcome State Fault Refusal :=
  match i with
  | .nop => Sys2Proof.Machine.execNop s
  | .clrerr => Sys2Proof.Machine.execClrerr s
  | .srst => Sys2Proof.Machine.execSrst s
  | .crcCalc => Sys2Proof.Machine.execCrcCalc s
  | .crcStamp => Sys2Proof.Machine.execCrcStamp s
  | .crcCheck => Sys2Proof.Machine.execCrcCheck s
  | .serCtrl => Sys2Proof.Machine.execSerCtrl s
  | .desCtrl => Sys2Proof.Machine.execDesCtrl s
  | .serData k => Sys2Proof.Machine.execSerData k s
  | .desData k => Sys2Proof.Machine.execDesData k s
  | .pack24 => Sys2Proof.Machine.execPack24 s
  | .unpack24 => Sys2Proof.Machine.execUnpack24 s
  | .seqI2w => Sys2Proof.Machine.execSeqI2w s
  | .seqW2i => Sys2Proof.Machine.execSeqW2i s
  | .chunkBuf => Sys2Proof.Machine.execChunkBuf s
  | .chunkSrc => Sys2Proof.Machine.execChunkSrc s
  | .totlen => Sys2Proof.Machine.execTotlen s
  | .reasm => Sys2Proof.Machine.execReasm s
  | .init => Sys2Proof.Machine.execInit s
  | .stamp k => Sys2Proof.Machine.execStamp k s
  | .stampAll => Sys2Proof.Machine.execStampAll s
  | .fget k => Sys2Proof.Machine.execFget k s
  | .fput k => Sys2Proof.Machine.execFput k s
  | .dget k => Sys2Proof.Machine.execDget k s
  | .dput k => Sys2Proof.Machine.execDput k s

end Sys2Proof.Machine
end

