-- ==== Sys2Proof/Machine/Port.lean ====
section
/-! DEFINITION. What the host can do to FPC: register access by name and number (10_state.md R35, R37
to R39, R45), byte access to PMEM and WBUF (20_memory.md R61, R62), command words (10_state.md R37)
and reset (70_reset_and_hazards.md R280). -/

namespace Sys2Proof.Machine

/-- The 25 registers that exist, by name (10_state.md, tables of sections 2 and 4). -/
inductive RegName where
  | HDR | NFILE | NFRAME | STATUS | NTOTAL | FLAG | TLEN | DLEN | CSUM | ID | COUNT | ADDR | LEN | P24
  | CMD | STAT | WLEN
  | VERSION | CFG_FDMAX | CFG_SLOTS | CFG_PMEM | CFG_MAGIC | CFG_CRC0 | CFG_CRC1 | CFG_SEQ
deriving DecidableEq, Repr

/-- `no(reg)`: the number of a register (10_state.md). -/
def RegName.number : RegName → Nat
  | .HDR => 0 | .NFILE => 1 | .NFRAME => 2 | .STATUS => 3 | .NTOTAL => 4 | .FLAG => 5 | .TLEN => 6
  | .DLEN => 7 | .CSUM => 8 | .ID => 9 | .COUNT => 10 | .ADDR => 11 | .LEN => 12 | .P24 => 13
  | .CMD => 16 | .STAT => 17 | .WLEN => 18
  | .VERSION => 24 | .CFG_FDMAX => 25 | .CFG_SLOTS => 26 | .CFG_PMEM => 27 | .CFG_MAGIC => 28
  | .CFG_CRC0 => 29 | .CFG_CRC1 => 30 | .CFG_SEQ => 31

/-- The register of a number; none for the unimplemented 14, 15 and 19 to 23 (10_state.md R35). -/
def regOfNumber : Nat → Option RegName
  | 0 => some .HDR | 1 => some .NFILE | 2 => some .NFRAME | 3 => some .STATUS | 4 => some .NTOTAL
  | 5 => some .FLAG | 6 => some .TLEN | 7 => some .DLEN | 8 => some .CSUM | 9 => some .ID
  | 10 => some .COUNT | 11 => some .ADDR | 12 => some .LEN | 13 => some .P24
  | 16 => some .CMD | 17 => some .STAT | 18 => some .WLEN
  | 24 => some .VERSION | 25 => some .CFG_FDMAX | 26 => some .CFG_SLOTS | 27 => some .CFG_PMEM
  | 28 => some .CFG_MAGIC | 29 => some .CFG_CRC0 | 30 => some .CFG_CRC1 | 31 => some .CFG_SEQ
  | _ => none

/-- CFG_CRC0: bits 15:0 = POLY, bits 31:16 = INIT (10_state.md R45). -/
def cfgCrc0 (c : CrcParams) : Word := c.init ++ c.poly

/-- CFG_CRC1: bits 15:0 = XOROUT, bit 16 = REFIN, bit 17 = REFOUT, the rest 0 (10_state.md R45). -/
def cfgCrc1 (c : CrcParams) : Word :=
  0#14 ++ BitVec.ofBool c.refOut ++ BitVec.ofBool c.refIn ++ c.xorOut

/-- CFG_SEQ: 1 for IDENTITY, 0 for DOCUMENTED (10_state.md R45). -/
def cfgSeq : SeqMode → Word
  | .documented => 0
  | .identity => 1

/-- The value a register shows the host, widened with zeros (10_state.md R35, R37, R38, R45). -/
def State.readReg (s : State) : RegName → Word
  | .HDR => s.regs.hdr
  | .NFILE => s.regs.nfile
  | .NFRAME => s.regs.nframe.setWidth 32
  | .STATUS => s.regs.status.setWidth 32
  | .NTOTAL => s.regs.ntotal.setWidth 32
  | .FLAG => s.regs.flag.setWidth 32
  | .TLEN => s.regs.tlen
  | .DLEN => s.regs.dlen.setWidth 32
  | .CSUM => s.regs.csum.setWidth 32
  | .ID => s.regs.id.setWidth 32
  | .COUNT => s.regs.count.setWidth 32
  | .ADDR => s.regs.addr
  | .LEN => s.regs.len
  | .P24 => s.regs.p24.setWidth 32
  | .CMD => 0
  | .STAT => s.stat.toWord
  | .WLEN => s.wlen
  | .VERSION => 0x46504301
  | .CFG_FDMAX => BitVec.ofNat 32 s.cfg.fdMax
  | .CFG_SLOTS => BitVec.ofNat 32 s.cfg.nSlots
  | .CFG_PMEM => BitVec.ofNat 32 s.cfg.pmemSize
  | .CFG_MAGIC => s.cfg.magic.pack
  | .CFG_CRC0 => cfgCrc0 s.cfg.crc
  | .CFG_CRC1 => cfgCrc1 s.cfg.crc
  | .CFG_SEQ => cfgSeq s.cfg.seqMode

/-- `RegRead(n)` for `n ≤ 31`: 0 for an unimplemented number (10_state.md R35). -/
def State.regRead (s : State) (n : Nat) : Word :=
  match regOfNumber n with
  | some r => s.readReg r
  | none => 0

/-- The command word `w` is written to CMD: decode it and run the command, or raise ILLEGAL before
any operand is examined (10_state.md R37, 60_exceptions.md R246). -/
def State.runCommand (s : State) (w : Word) : Result :=
  match decode w with
  | .ok i => exec i s
  | .error _ => .next (s.raise .illegal)

/-- A host write to a register: the low N bits are kept; STAT, the configuration registers and
unimplemented numbers ignore it; CMD runs the word (10_state.md R35, R37 to R39). -/
def State.writeReg (s : State) (v : Word) : RegName → Result
  | .HDR => .next { s with regs := { s.regs with hdr := v } }
  | .NFILE => .next { s with regs := { s.regs with nfile := v } }
  | .NFRAME => .next { s with regs := { s.regs with nframe := v.setWidth 16 } }
  | .STATUS => .next { s with regs := { s.regs with status := v.setWidth 16 } }
  | .NTOTAL => .next { s with regs := { s.regs with ntotal := v.setWidth 24 } }
  | .FLAG => .next { s with regs := { s.regs with flag := v.setWidth 8 } }
  | .TLEN => .next { s with regs := { s.regs with tlen := v } }
  | .DLEN => .next { s with regs := { s.regs with dlen := v.setWidth 16 } }
  | .CSUM => .next { s with regs := { s.regs with csum := v.setWidth 16 } }
  | .ID => .next { s with regs := { s.regs with id := v.setWidth 16 } }
  | .COUNT => .next { s with regs := { s.regs with count := v.setWidth 24 } }
  | .ADDR => .next { s with regs := { s.regs with addr := v } }
  | .LEN => .next { s with regs := { s.regs with len := v } }
  | .P24 => .next { s with regs := { s.regs with p24 := v.setWidth 24 } }
  | .CMD => s.runCommand v
  | .STAT => .next s
  | .WLEN => .next { s with wlen := v }
  | .VERSION => .next s
  | .CFG_FDMAX => .next s
  | .CFG_SLOTS => .next s
  | .CFG_PMEM => .next s
  | .CFG_MAGIC => .next s
  | .CFG_CRC0 => .next s
  | .CFG_CRC1 => .next s
  | .CFG_SEQ => .next s

/-- `RegWrite(n, v)` for `n ≤ 31` (10_state.md R35). -/
def State.regWrite (s : State) (n : Nat) (v : Word) : Result :=
  match regOfNumber n with
  | some r => s.writeReg v r
  | none => .next s

/-- A read reports its value to the host (30_encoding.md R105). -/
def State.report (s : State) (v : Word) : State := { s with reports := s.reports ++ [v] }

/-- One action from outside. An index outside its space is refused by name
(93_implementation_defined.md U4). -/
def perform (s : State) : HostAction → Result
  | .regRead n => if n < 32 then .next (s.report (s.regRead n)) else .refused (.registerOutsideMap n)
  | .regWrite n v => if n < 32 then s.regWrite n v else .refused (.registerOutsideMap n)
  | .pmemRead a =>
    if a < s.cfg.pmemSize then .next (s.report ((s.pmem.read a).setWidth 32))
    else .refused (.pmemOutsideMap a)
  | .pmemWrite a b =>
    if a < s.cfg.pmemSize then .next (s.writePmem a [b]) else .refused (.pmemOutsideMap a)
  | .wbufRead a =>
    if a < s.cfg.wbufSize then .next (s.report ((s.wbuf.read a).setWidth 32))
    else .refused (.wbufOutsideMap a)
  | .wbufWrite a b =>
    if a < s.cfg.wbufSize then .next (s.writeWbuf a [b]) else .refused (.wbufOutsideMap a)
  | .reset c => .next (s.resetTo c)

/-- The host's next action; with none left FPC idles and keeps all its state (20_memory.md R71,
60_exceptions.md R260). A configuration outside its constraints is refused
(93_implementation_defined.md U8). -/
def nextAction (s : State) : Result :=
  if s.cfg.Valid then
    match s.script with
    | [] => .next s
    | a :: rest => perform { s with script := rest } a
  else .refused .configOutsideConstraints

/-- The host is about to write the command word `w` to CMD. -/
def State.withCommand (s : State) (w : Word) : State :=
  { s with script := .regWrite 16 w :: s.script }

end Sys2Proof.Machine
end

