-- ==== Sys2Proof/Machine/Script.lean ====
section
/-! DEFINITION. Command text (30_encoding.md R103), pseudo-instructions (R104) and host scripts (R105):
how a program, a list of host actions, is written and what it expands to. -/

namespace Sys2Proof.Machine

/-- The mnemonic of a command (30_encoding.md R100). -/
def mnemonic : Instr → String
  | .nop => "NOP"
  | .clrerr => "CLRERR"
  | .srst => "SRST"
  | .crcCalc => "CRC.CALC"
  | .crcStamp => "CRC.STAMP"
  | .crcCheck => "CRC.CHECK"
  | .serCtrl => "SER.CTRL"
  | .desCtrl => "DES.CTRL"
  | .serData _ => "SER.DATA"
  | .desData _ => "DES.DATA"
  | .pack24 => "PACK24"
  | .unpack24 => "UNPACK24"
  | .seqI2w => "SEQ.I2W"
  | .seqW2i => "SEQ.W2I"
  | .chunkBuf => "CHUNK.BUF"
  | .chunkSrc => "CHUNK.SRC"
  | .totlen => "TOTLEN"
  | .reasm => "REASM"
  | .init => "INIT"
  | .stamp _ => "STAMP"
  | .stampAll => "STAMP.ALL"
  | .fget _ => "FGET"
  | .fput _ => "FPUT"
  | .dget _ => "DGET"
  | .dput _ => "DPUT"

/-- One command per row of the opcode map, format S with slot 0. -/
def allCommands : List Instr :=
  [.nop, .clrerr, .srst, .crcCalc, .crcStamp, .crcCheck, .serCtrl, .desCtrl, .serData 0, .desData 0,
   .pack24, .unpack24, .seqI2w, .seqW2i, .chunkBuf, .chunkSrc, .totlen, .reasm, .init, .stamp 0,
   .stampAll, .fget 0, .fput 0, .dget 0, .dput 0]

/-- The command with its slot operand replaced; a format-N command has none to replace. -/
def withSlot (k : Nat) : Instr → Instr
  | .nop => .nop
  | .clrerr => .clrerr
  | .srst => .srst
  | .crcCalc => .crcCalc
  | .crcStamp => .crcStamp
  | .crcCheck => .crcCheck
  | .serCtrl => .serCtrl
  | .desCtrl => .desCtrl
  | .serData _ => .serData k
  | .desData _ => .desData k
  | .pack24 => .pack24
  | .unpack24 => .unpack24
  | .seqI2w => .seqI2w
  | .seqW2i => .seqW2i
  | .chunkBuf => .chunkBuf
  | .chunkSrc => .chunkSrc
  | .totlen => .totlen
  | .reasm => .reasm
  | .init => .init
  | .stamp _ => .stamp k
  | .stampAll => .stampAll
  | .fget _ => .fget k
  | .fput _ => .fput k
  | .dget _ => .dget k
  | .dput _ => .dput k

/-- The value of a digit of the given base; hexadecimal digits in either case
(notes/assumptions/14.md). -/
def digitValue (base : Nat) (c : Char) : Option Nat :=
  let n := c.toNat
  let d :=
    if 48 ≤ n ∧ n ≤ 57 then some (n - 48)
    else if 65 ≤ n ∧ n ≤ 70 then some (n - 55)
    else if 97 ≤ n ∧ n ≤ 102 then some (n - 87)
    else none
  d.filter (fun v => decide (v < base))

/-- Digits most significant first, continuing from `acc`. -/
def readDigits (base : Nat) : (acc : Nat) → List Char → Option Nat
  | acc, [] => some acc
  | acc, c :: cs => (digitValue base c).bind (fun d => readDigits base (acc * base + d) cs)

/-- A slot number "in decimal or 0x hexadecimal" (30_encoding.md R103). -/
def readSlotNumber : List Char → Option Nat
  | [] => none
  | ['0', 'x'] => none
  | '0' :: 'x' :: cs => readDigits 16 0 cs
  | cs => readDigits 10 0 cs

/-- The text of a format-N command is its mnemonic; of a format-S command its mnemonic, one space and
the slot number (30_encoding.md R103). -/
def readAs (text : List Char) (i : Instr) : Option Instr :=
  let m := (mnemonic i).toList
  match i.slotOperand with
  | none => if text = m then some i else none
  | some _ =>
    if text.take (m.length + 1) = m ++ [' '] then
      ((readSlotNumber (text.drop (m.length + 1))).map (fun k => withSlot k i)).filter Instr.wf
    else none

/-- The command a line of text stands for (30_encoding.md R103); none for any other text. DESIGN CHOICE: a
slot number above 65535 makes it no command (notes/assumptions/18.md). -/
def assemble (text : List Char) : Option Instr := allCommands.findSome? (readAs text)

/-- The pseudo-instructions (30_encoding.md R104). -/
inductive Pseudo where
  /-- `BUILD`. -/
  | build
  /-- `BUILD.SRC`. -/
  | buildSrc
  /-- `LOOP d, s`. -/
  | loop (d s : Nat)
deriving DecidableEq, Repr

/-- The commands a pseudo-instruction expands to, in order (30_encoding.md R104); a slot number of `LOOP`
above 65535 is kept as it stands (notes/assumptions/18.md). -/
def Pseudo.expand : Pseudo → List Instr
  | .build => [.chunkBuf, .init, .stampAll]
  | .buildSrc => [.chunkSrc, .init, .stampAll]
  | .loop d s => [.serData s, .desData d]

/-- One line of a host script (30_encoding.md R105). -/
inductive ScriptLine where
  /-- `SET reg, v`. -/
  | set (r : RegName) (v : Word)
  /-- `GET reg`. -/
  | get (r : RegName)
  /-- `PMW a, b0 b1 ...`. -/
  | pmw (a : Nat) (bytes : List Byte)
  /-- `PMR a, n`. -/
  | pmr (a n : Nat)
  /-- `WBW a, b0 b1 ...`. -/
  | wbw (a : Nat) (bytes : List Byte)
  /-- `WBR a, n`. -/
  | wbr (a n : Nat)
  /-- A command. -/
  | command (i : Instr)
  /-- A pseudo-instruction. -/
  | pseudo (p : Pseudo)
deriving DecidableEq, Repr

/-- A command is the host's write of its encoding to CMD (30_encoding.md R105). DESIGN CHOICE: a command
that is not `Instr.wf` writes the wrapped word of `encode` (notes/assumptions/18.md). -/
def commandAction (i : Instr) : HostAction := .regWrite RegName.CMD.number (encode i)

/-- Writes of consecutive bytes, in increasing address order (20_memory.md R67). -/
def writeActions (mk : Nat → Byte → HostAction) : (a : Nat) → List Byte → List HostAction
  | _, [] => []
  | a, b :: bs => mk a b :: writeActions mk (a + 1) bs

/-- The host actions of a script line (30_encoding.md R105). -/
def ScriptLine.actions : ScriptLine → List HostAction
  | .set r v => [.regWrite r.number v]
  | .get r => [.regRead r.number]
  | .pmw a bytes => writeActions .pmemWrite a bytes
  | .pmr a n => (List.range n).map (fun i => .pmemRead (a + i))
  | .wbw a bytes => writeActions .wbufWrite a bytes
  | .wbr a n => (List.range n).map (fun i => .wbufRead (a + i))
  | .command i => [commandAction i]
  | .pseudo p => p.expand.map commandAction

/-- The host actions of a script, line after line (30_encoding.md R105). -/
def scriptActions (lines : List ScriptLine) : List HostAction := lines.flatMap ScriptLine.actions

/-- The host is about to carry out a script. -/
def State.withScript (s : State) (lines : List ScriptLine) : State :=
  { s with script := s.script ++ scriptActions lines }

/-- Runs the host's remaining actions, one step each; a list always ends (30_encoding.md R105). -/
def runActions : (fuel : Nat) → State → Result
  | 0, s => .next s
  | fuel + 1, s =>
    match step s with
    | .next t => runActions fuel t
    | r => r

/-- The run of a script: every pending action is carried out (30_encoding.md R105). -/
def runScript (s : State) : Result := runActions s.script.length s

end Sys2Proof.Machine
end

