-- ==== Sys2Proof/Safety.lean ====
section
/-! DEFINITION. What counts as a good state and a safe run, and the few notions of the spec that
statements are made of. -/

namespace Sys2Proof.Machine

/-- STAT as FPC can hold it: ERR is a code of version 1 other than the reserved TIMEOUT, and STICKY has
neither bit 0 nor TIMEOUT's bit (10_state.md R38, 60_exceptions.md R240, R241). -/
abbrev Stat.Legal (t : Stat) : Prop :=
  t.err.toNat ≤ 7 ∧ t.err ≠ 1 ∧ t.sticky.getLsbD 0 = false ∧ t.sticky.getLsbD 1 = false

/-- The frame store has `S` slots of `F` data bytes (10_state.md R40, R41). -/
abbrev State.StoreWf (s : State) : Prop :=
  s.fs.length = s.cfg.nSlots ∧ ∀ f ∈ s.fs, f.data.length = s.cfg.fdMax

/-- Both memories are in canonical form and inside their address spaces (20_memory.md R60). -/
abbrev State.MemWf (s : State) : Prop :=
  (s.pmem.wf = true ∧ s.pmem.inside s.cfg.pmemSize = true) ∧
    (s.wbuf.wf = true ∧ s.wbuf.inside s.cfg.wbufSize = true)

/-- A good state: the configuration keeps its constraints (00_scope.md R6 to R8), the store and the
memories have their shape, STAT is legal. -/
abbrev State.Wf (s : State) : Prop :=
  s.cfg.Valid ∧ s.StoreWf ∧ s.MemWf ∧ s.stat.Legal

/-- The indices a host action uses lie inside their spaces (20_memory.md R69). -/
abbrev HostAction.InMap (c : Config) : HostAction → Prop
  | .regRead n => n < 32
  | .regWrite n _ => n < 32
  | .pmemRead a => a < c.pmemSize
  | .pmemWrite a _ => a < c.pmemSize
  | .wbufRead a => a < c.wbufSize
  | .wbufWrite a _ => a < c.wbufSize
  | .reset _ => True

/-- A slot's checksum is current (10_state.md R50). -/
abbrev State.ChecksumCurrent (s : State) (k : Nat) : Prop := (s.slot k).checksum = s.slotCsum k

/-- The opcodes of format N (30_encoding.md R100). -/
def opcodesN : List Nat :=
  [0x00, 0x01, 0x02, 0x10, 0x11, 0x12, 0x20, 0x21, 0x24, 0x25, 0x30, 0x31, 0x40, 0x41, 0x42, 0x43,
   0x44, 0x46]

/-- The opcodes of format S (30_encoding.md R100). -/
def opcodesS : List Nat := [0x22, 0x23, 0x45, 0x50, 0x51, 0x52, 0x53]

/-- The command word is illegal, in the words of 30_encoding.md R101. -/
abbrev IllegalByRule (w : Word) : Prop :=
  w.toNat / 256 % 256 ≠ 0 ∨ (w.toNat % 256 ∉ opcodesN ∧ w.toNat % 256 ∉ opcodesS) ∨
    (w.toNat % 256 ∈ opcodesN ∧ w.toNat / 65536 ≠ 0)

/-- The checksum the image of a Control Frame in WBUF should carry (41_wire_codec.md R161). -/
abbrev State.ctrlCsumOk (s : State) : Prop :=
  (crc16 s.cfg.crc (slice (s.readWbuf 0 ctrlSize) 0 12)).toNat =
    fromLe (slice (s.readWbuf 0 ctrlSize) 12 2)

/-- The checksum the image of a Data Frame in WBUF should carry (41_wire_codec.md R163). -/
abbrev State.dataCsumOk (s : State) : Prop :=
  (crc16 s.cfg.crc (slice (s.readWbuf 0 s.cfg.dataSize) 0 (dataOff + s.cfg.fdMax))).toNat =
    fromLe (slice (s.readWbuf 0 s.cfg.dataSize) (dataOff + s.cfg.fdMax) 2)

/-- The number of frames CHUNK.BUF makes, and the most CHUNK.SRC can make (43_frame_chunker.md R191). -/
def State.frameCount (s : State) : Nat := ceilDiv s.regs.len.toNat s.cfg.fdMax

/-- The store after CHUNK.BUF (43_frame_chunker.md R192). -/
def State.chunkedBuf (s : State) : State :=
  s.updateSlots s.frameCount (fun i f => f.chunked s.cfg s.frameCount s.regs.len.toNat
    (s.readPmem (s.regs.addr.toNat + i * s.cfg.fdMax)
      (frameLen s.cfg.fdMax s.regs.len.toNat s.frameCount i)))

/-- The pull loop CHUNK.SRC runs (43_frame_chunker.md R193). -/
def State.pullRun (s : State) : PullRun :=
  pullLoop s.cfg.fdMax s.regs.len.toNat s.frameCount 0 [] s.src

/-- The conditions under which REASM runs (43_frame_chunker.md R195). -/
abbrev State.reassemblable (s : State) : Prop :=
  s.fitsStore s.countOperand ∧
    (∀ f ∈ s.frameSet s.countOperand, f.dataLen.toNat ≤ s.cfg.fdMax) ∧
    s.fitsPmem s.regs.addr.toNat (sumDataLen (s.frameSet s.countOperand))

/-- The conditions under which DGET and DPUT run (44_access_and_system.md R222, R223). -/
abbrev State.windowOk (s : State) (k : Nat) : Prop :=
  s.hasSlot k ∧ s.fitsPmem s.regs.addr.toNat s.cfg.fdMax

/-- The state a failed command leaves when it changes nothing but STAT: `STAT.ERR <- code`,
`STAT.STICKY[code] <- 1` (60_exceptions.md R250). -/
def State.afterError (s : State) (code : Nat) : State :=
  { s with stat := { s.stat with
      err := BitVec.ofNat 4 code, sticky := s.stat.sticky ||| BitVec.ofNat 8 (2 ^ code) } }

/-- The same with `STAT.CRCOK <- 0` (60_exceptions.md R250, first exception). -/
def State.afterCheckError (s : State) (code : Nat) : State :=
  { s with stat := { s.stat with
      crcok := false, err := BitVec.ofNat 4 code,
      sticky := s.stat.sticky ||| BitVec.ofNat 8 (2 ^ code) } }

/-- The registers after reset (10_state.md R48): HDR holds MAGIC, the others 0. -/
abbrev Regs.AtReset (x : Regs) (m : Header) : Prop :=
  x.hdr.toNat = m.b0.toNat + m.b1.toNat * 2 ^ 8 + m.b2.toNat * 2 ^ 16 + m.b3.toNat * 2 ^ 24 ∧
    { x with hdr := 0 } = ⟨0, 0, 0, 0, 0, 0, 0, 0, 0, 0, 0, 0, 0, 0⟩

/-- Byte `k` of a value, as `le_k` numbers bytes (00_scope.md R15). -/
abbrev byteOf (n : Nat) (v : BitVec n) (k : Nat) : Byte := v.extractLsb' (8 * k) 8

/-- Slots `0 .. |chunks|−1` of `t` are the frame set a chunk command makes of `chunks`, `total` bytes in
all, over the slots of `s`; every other slot is as in `s` (43_frame_chunker.md R192, R193). -/
def FrameSetMade (s t : State) (chunks : List (List Byte)) (total : Nat) : Prop :=
  (∀ i, i < chunks.length →
    (t.slot i).data =
        chunks.getD i [] ++ List.replicate (s.cfg.fdMax - (chunks.getD i []).length) 0#8 ∧
      (t.slot i).dataLen.toNat = (chunks.getD i []).length ∧
      (t.slot i).nTotal.toNat = chunks.length ∧
      (t.slot i).totalLen.toNat = total ∧
      t.ChecksumCurrent i ∧
      (t.slot i).header = (s.slot i).header ∧ (t.slot i).nFile = (s.slot i).nFile ∧
      (t.slot i).nFrame = (s.slot i).nFrame ∧ (t.slot i).flag = (s.slot i).flag) ∧
    ∀ i, chunks.length ≤ i → t.slot i = s.slot i

/-- The pieces CHUNK.BUF cuts a payload of PMEM into (43_frame_chunker.md R191). -/
def State.payloadPieces (s : State) : List (List Byte) :=
  (List.range s.frameCount).map (fun i =>
    s.pmem.readBytes (s.regs.addr.toNat + i * s.cfg.fdMax)
      (min s.cfg.fdMax (s.regs.len.toNat - i * s.cfg.fdMax)))

/-- Commands run one after another (30_encoding.md R104). -/
def runCommands : List Instr → State → Result
  | [], s => .next s
  | i :: is, s =>
    match exec i s with
    | .next t => runCommands is t
    | r => r

end Sys2Proof.Machine
end

