-- ==== Sys2Proof/Certificates/Slice0/Obligations.lean ====
section
/-! DEFINITION. The statements about FPC, for the provers. Each docstring names the rule it states. -/

open Sys2Proof Sys2Proof.Machine

/-! ### Encoding -/

/-- Decode and encode agree: no bit of a command's encoding is dropped (30_encoding.md, section A). -/
def Obligations.DecodeOfEncodeIsTheCommand : Prop :=
  ∀ i : Instr, i.wf = true → decode (encode i) = .ok i

/-- Each legal word has one meaning and is the encoding of it (30_encoding.md, section A). -/
def Obligations.EncodeOfDecodeIsTheWord : Prop :=
  ∀ (w : Word) (i : Instr), decode w = .ok i → encode i = w ∧ i.wf = true

/-- 30_encoding.md R101 and 60_exceptions.md R246: which words are illegal, that they raise ILLEGAL and
change nothing else, and that a format-S word with a slot of `S` or more is legal and raises RANGE. -/
def Obligations.IllegalWordsAndOnlyThoseRaiseIllegal : Prop :=
  (∀ w : Word, IllegalByRule w ↔ ∃ e, decode w = .error e) ∧
  (∀ (s : State) (w : Word), IllegalByRule w → s.runCommand w = .next (s.afterError 6)) ∧
  (∀ (s : State) (w : Word), ¬ IllegalByRule w → w.toNat % 256 ∈ opcodesS →
    s.cfg.nSlots ≤ w.toNat / 65536 → s.runCommand w = .next (s.afterError 7))

/-- 30_encoding.md R100: the opcode map, row by row as (match, mnemonic, command); a word selects a row
when `(w & mask) = match`, and a word that matches no row is illegal. -/
def Obligations.OpcodeMapSelectsTheCommand : Prop :=
  let rowsN : List (Word × String × Instr) :=
    [(0x00, "NOP", .nop), (0x01, "CLRERR", .clrerr), (0x02, "SRST", .srst),
     (0x10, "CRC.CALC", .crcCalc), (0x11, "CRC.STAMP", .crcStamp), (0x12, "CRC.CHECK", .crcCheck),
     (0x20, "SER.CTRL", .serCtrl), (0x21, "DES.CTRL", .desCtrl), (0x24, "PACK24", .pack24),
     (0x25, "UNPACK24", .unpack24), (0x30, "SEQ.I2W", .seqI2w), (0x31, "SEQ.W2I", .seqW2i),
     (0x40, "CHUNK.BUF", .chunkBuf), (0x41, "CHUNK.SRC", .chunkSrc), (0x42, "TOTLEN", .totlen),
     (0x43, "REASM", .reasm), (0x44, "INIT", .init), (0x46, "STAMP.ALL", .stampAll)]
  let rowsS : List (Word × String × (Nat → Instr)) :=
    [(0x22, "SER.DATA", .serData), (0x23, "DES.DATA", .desData), (0x45, "STAMP", .stamp),
     (0x50, "FGET", .fget), (0x51, "FPUT", .fput), (0x52, "DGET", .dget), (0x53, "DPUT", .dput)]
  (∀ r ∈ rowsN, mnemonic r.2.2 = r.2.1 ∧
    ∀ w : Word, w &&& 0xFFFFFFFF#32 = r.1 → decode w = .ok r.2.2) ∧
  (∀ r ∈ rowsS, (∀ k, mnemonic (r.2.2 k) = r.2.1) ∧
    ∀ w : Word, w &&& 0x0000FFFF#32 = r.1 → decode w = .ok (r.2.2 (w.toNat / 65536))) ∧
  (∀ w : Word, (∀ r ∈ rowsN, w &&& 0xFFFFFFFF#32 ≠ r.1) →
    (∀ r ∈ rowsS, w &&& 0x0000FFFF#32 ≠ r.1) → IllegalByRule w ∧ ∃ e, decode w = .error e)

/-- Words written out in 95_test_vectors.md, section 2.8, and 30_encoding.md, section A.4, decode to
their commands; three illegal words are rejected by name. -/
def Obligations.SampleWordsDecode : Prop :=
  decode 0x00000040#32 = .ok .chunkBuf ∧ decode 0x00000041#32 = .ok .chunkSrc ∧
  decode 0x00020023#32 = .ok (.desData 2) ∧ decode 0x00010022#32 = .ok (.serData 1) ∧
  decode 0x00000031#32 = .ok .seqW2i ∧ decode 0x00010050#32 = .ok (.fget 1) ∧
  decode 0xFFFF0050#32 = .ok (.fget 65535) ∧ decode 0x00000010#32 = .ok .crcCalc ∧
  decode 0x00000001#32 = .ok .clrerr ∧ decode 0x00000003#32 = .error .unknownOpcode ∧
  decode 0x00000100#32 = .error .reservedBitsSet ∧ decode 0x00010020#32 = .error .immediateSet

/-! ### Steps and host accesses -/

/-- A step runs the decoded command: where the host's next action is the write of a command word to CMD
(the model's `script`, notes/assumptions/3.md), the step takes that action off the script and is the
command, run in the state that holds at that moment (10_state.md, CMD). -/
def Obligations.StepRunsTheDecodedCommand : Prop :=
  ∀ (s : State) (w : Word) (i : Instr) (rest : List HostAction), s.cfg.Valid →
    s.script = .regWrite 16 w :: rest → decode w = .ok i →
    i.wf = true ∧ step s = exec i { s with script := rest }

/-- With no action left FPC idles and keeps all its state. That an empty script is an idle FPC is the
model's choice (notes/assumptions/3.md). -/
def Obligations.IdleMachineKeepsItsState : Prop :=
  ∀ s : State, s.cfg.Valid → s.script = [] → step s = .next s

/-- 10_state.md R35: what RegRead and RegWrite do at each of the 32 register numbers. -/
def Obligations.HostRegisterAccess : Prop :=
  ∀ (s : State) (v : Word),
    (∀ n, n < 32 → perform s (.regRead n) = .next (s.report (s.regRead n)) ∧
      perform s (.regWrite n v) = s.regWrite n v) ∧
    (List.range 14).map s.regRead =
      [s.regs.hdr, s.regs.nfile, s.regs.nframe.setWidth 32, s.regs.status.setWidth 32,
       s.regs.ntotal.setWidth 32, s.regs.flag.setWidth 32, s.regs.tlen, s.regs.dlen.setWidth 32,
       s.regs.csum.setWidth 32, s.regs.id.setWidth 32, s.regs.count.setWidth 32, s.regs.addr,
       s.regs.len, s.regs.p24.setWidth 32] ∧
    s.regRead 17 = s.stat.toWord ∧ s.regRead 18 = s.wlen ∧
    (∀ n ∈ [14, 15, 19, 20, 21, 22, 23], s.regRead n = 0 ∧ s.regWrite n v = .next s) ∧
    (s.regRead 16 = 0 ∧ s.regWrite 16 v = s.runCommand v) ∧
    (∀ n ∈ [17, 24, 25, 26, 27, 28, 29, 30, 31], s.regWrite n v = .next s) ∧
    (∀ p ∈ [(0, 32), (1, 32), (2, 16), (3, 16), (4, 24), (5, 8), (6, 32), (7, 16), (8, 16), (9, 16),
        (10, 24), (11, 32), (12, 32), (13, 24), (18, 32)],
      ∃ t, s.regWrite p.1 v = .next t ∧ (t.regRead p.1).toNat = v.toNat % 2 ^ p.2 ∧
        (∀ m, m < 32 → m ≠ p.1 → t.regRead m = s.regRead m) ∧
        { t with regs := s.regs, wlen := s.wlen } = s)

/-- What STAT and the configuration registers show (10_state.md, sections 4 and 7). -/
def Obligations.StatusAndConfigurationViews : Prop :=
  (∀ t : Stat, t.toWord.extractLsb' 0 4 = t.err ∧ t.toWord.getLsbD 4 = t.crcok ∧
    t.toWord.getLsbD 5 = t.limit ∧ t.toWord.extractLsb' 6 2 = 0 ∧
    t.toWord.extractLsb' 8 8 = t.sticky ∧ t.toWord.extractLsb' 16 16 = 0) ∧
  (∀ s : State, s.cfg.Valid →
    s.regRead 24 = 0x46504301 ∧ (s.regRead 25).toNat = s.cfg.fdMax ∧
    (s.regRead 26).toNat = s.cfg.nSlots ∧ (s.regRead 27).toNat = s.cfg.pmemSize ∧
    (byteOf 32 (s.regRead 28) 0 = s.cfg.magic.b0 ∧ byteOf 32 (s.regRead 28) 1 = s.cfg.magic.b1 ∧
      byteOf 32 (s.regRead 28) 2 = s.cfg.magic.b2 ∧ byteOf 32 (s.regRead 28) 3 = s.cfg.magic.b3) ∧
    ((s.regRead 29).extractLsb' 0 16 = s.cfg.crc.poly ∧
      (s.regRead 29).extractLsb' 16 16 = s.cfg.crc.init) ∧
    ((s.regRead 30).extractLsb' 0 16 = s.cfg.crc.xorOut ∧
      (s.regRead 30).getLsbD 16 = s.cfg.crc.refIn ∧ (s.regRead 30).getLsbD 17 = s.cfg.crc.refOut ∧
      (s.regRead 30).extractLsb' 18 14 = 0) ∧
    (s.regRead 31 = 1 ↔ s.cfg.seqMode = .identity) ∧ (s.regRead 31 = 0 ↔ s.cfg.seqMode = .documented))

/-- The configuration registers never change (10_state.md, section 7): no step changes them. -/
def Obligations.ConfigurationNeverChanges : Prop :=
  ∀ s t : State, step s = .next t →
    t.cfg = s.cfg ∧ ∀ n, 24 ≤ n → n < 32 → t.regRead n = s.regRead n

/-- 20_memory.md R61 and R62: byte accesses of the host to PMEM and WBUF; an address outside the space
is refused. -/
def Obligations.HostAccessToMemories : Prop :=
  ∀ (s : State) (a : Nat) (b : Byte),
    (a < s.cfg.pmemSize →
      perform s (.pmemRead a) = .next { s with reports := s.reports ++ [(s.pmem.read a).setWidth 32] } ∧
      ∃ t, perform s (.pmemWrite a b) = .next t ∧ t.pmem.read a = b ∧
        (∀ x, x ≠ a → t.pmem.read x = s.pmem.read x) ∧ { t with pmem := s.pmem } = s) ∧
    (s.cfg.pmemSize ≤ a → perform s (.pmemRead a) = .refused (.pmemOutsideMap a) ∧
      perform s (.pmemWrite a b) = .refused (.pmemOutsideMap a)) ∧
    (a < 22 + s.cfg.fdMax →
      perform s (.wbufRead a) = .next { s with reports := s.reports ++ [(s.wbuf.read a).setWidth 32] } ∧
      ∃ t, perform s (.wbufWrite a b) = .next t ∧ t.wbuf.read a = b ∧
        (∀ x, x ≠ a → t.wbuf.read x = s.wbuf.read x) ∧ { t with wbuf := s.wbuf } = s) ∧
    (22 + s.cfg.fdMax ≤ a → perform s (.wbufRead a) = .refused (.wbufOutsideMap a) ∧
      perform s (.wbufWrite a b) = .refused (.wbufOutsideMap a))

/-- No host access other than a command and reset reaches the frame store, STAT, the configuration or
the source, and a read changes nothing at all (20_memory.md, sections 1 and 3). -/
def Obligations.HostAccessesKeepFramesAndStatus : Prop :=
  ∀ (s : State) (a : HostAction) (t : State), perform s a = .next t →
    (∀ w, a ≠ .regWrite 16 w) → (∀ c, a ≠ .reset c) →
    t.fs = s.fs ∧ t.stat = s.stat ∧ t.cfg = s.cfg ∧ t.src = s.src ∧
      (((∃ n, a = .regRead n) ∨ (∃ n, a = .pmemRead n) ∨ ∃ n, a = .wbufRead n) →
        { t with reports := s.reports } = s)

/-! ### Reset, invariants, whole-machine rules -/

/-- The state after reset (10_state.md, section 9). That reset is a host action that brings the contents of
FS, WBUF and PMEM as its argument is the model's form of it (notes/assumptions/9.md). That the model's reset
state is the one of CFG-4 is the model's choice (notes/assumptions/1.md). -/
def Obligations.ResetLeavesTheResetValues : Prop :=
  (∀ (s : State) (c : Contents), c.pmem.length = s.cfg.pmemSize → c.wbuf.length = 22 + s.cfg.fdMax →
    c.fs.length = s.cfg.nSlots → (∀ f ∈ c.fs, f.data.length = s.cfg.fdMax) →
    ∃ t, perform s (.reset c) = .next t ∧ t.regs.AtReset s.cfg.magic ∧ t.stat.toWord = 0 ∧
      t.wlen = 0 ∧ t.cfg = s.cfg ∧ (∀ n, 24 ≤ n → n < 32 → t.regRead n = s.regRead n) ∧
      t.pmem.readBytes 0 s.cfg.pmemSize = c.pmem ∧ t.wbuf.readBytes 0 (22 + s.cfg.fdMax) = c.wbuf ∧
      t.fs = c.fs) ∧
  State.reset.regs.AtReset Config.cfg4.magic ∧ State.reset.stat.toWord = 0 ∧ State.reset.wlen = 0

/-- The model's reset state is good, and so is the state any reset leaves, whatever contents it brings. -/
def Obligations.ResetStatesAreGood : Prop :=
  State.reset.Wf ∧ ∀ (s : State) (c : Contents), s.cfg.Valid → (s.resetTo c).Wf

/-- Every step keeps a good state good: the configuration its constraints, the store and the memories
their shape and canonical form, STAT a legal error code and no TIMEOUT bit. -/
def Obligations.EveryStepKeepsGoodStates : Prop :=
  ∀ s t : State, s.Wf → step s = .next t → t.Wf

/-- A host script whose indices lie inside their spaces runs to its end: no action stops the machine
(30_encoding.md, section A.4; 60_exceptions.md, section 2). -/
def Obligations.ScriptsInsideTheMapRunToTheirEnd : Prop :=
  ∀ s : State, s.cfg.Valid → (∀ a ∈ s.script, a.InMap s.cfg) →
    ∃ t, runScript s = .next t ∧ t.script = []

/-- 60_exceptions.md R255: every command ends, in a state from which FPC goes on. -/
def Obligations.EveryCommandEnds : Prop :=
  ∀ (i : Instr) (s : State), ∃ t, exec i s = .next t

/-- 60_exceptions.md R250: a failed command has changed nothing but STAT.ERR and STICKY[code], with
exactly two exceptions; an illegal command word is the failure of the decoder. -/
def Obligations.FailedCommandsAreAllOrNothing : Prop :=
  (∀ (s : State) (w : Word), (∃ e, decode w = .error e) → s.runCommand w = .next (s.afterError 6)) ∧
  ∀ (i : Instr) (s t : State), exec i s = .next t → t.stat.err ≠ 0 →
    (t.stat.sticky = s.stat.sticky ||| (1#8 <<< t.stat.err.toNat) ∧ t.stat.limit = s.stat.limit) ∧
    (((i = .crcCheck ∨ ((i = .desCtrl ∨ ∃ k, i = .desData k) ∧ t.stat.err ≠ 7)) →
        t.stat.crcok = false) ∧
      (¬ (i = .crcCheck ∨ ((i = .desCtrl ∨ ∃ k, i = .desData k) ∧ t.stat.err ≠ 7)) →
        t.stat.crcok = s.stat.crcok)) ∧
    (t.regs = s.regs ∧ t.wlen = s.wlen ∧ t.wbuf = s.wbuf ∧ t.pmem = s.pmem ∧ t.cfg = s.cfg ∧
      t.script = s.script ∧ t.reports = s.reports) ∧
    (i ≠ .chunkSrc → t.src = s.src) ∧
    (¬ (i = .chunkSrc ∧ t.stat.err = 5) → t.fs = s.fs) ∧
    ∀ k, t.slot k = { s.slot k with data := (t.slot k).data, dataLen := (t.slot k).dataLen }

/-- What a successful command does to the flags it is not named for (10_state.md, STAT): STICKY is kept
by all but CLRERR and SRST; CRCOK is written by CRC.CHECK, DES.CTRL and DES.DATA only, LIMIT by CHUNK.SRC
only (and both by SRST). -/
def Obligations.SuccessfulCommandsKeepTheOtherFlags : Prop :=
  ∀ (i : Instr) (s t : State), exec i s = .next t → t.stat.err = 0 →
    (i ≠ .clrerr → i ≠ .srst → t.stat.sticky = s.stat.sticky) ∧
    ((i = .crcCheck ∨ i = .desCtrl ∨ ∃ k, i = .desData k) → t.stat.crcok = true) ∧
    (¬ (i = .crcCheck ∨ i = .desCtrl ∨ i = .srst ∨ ∃ k, i = .desData k) →
      t.stat.crcok = s.stat.crcok) ∧
    (i ≠ .chunkSrc → i ≠ .srst → t.stat.limit = s.stat.limit)

/-- Which command raises which code (60_exceptions.md, section 1): no command raises TIMEOUT, ILLEGAL or a
reserved code. -/
def Obligations.ErrorCodesByCommand : Prop :=
  ∀ (i : Instr) (s t : State), exec i s = .next t →
    t.stat.err.toNat ∈ [0, 2, 3, 4, 5, 7] ∧
    (t.stat.err = 2 → i = .desCtrl ∨ ∃ k, i = .desData k) ∧
    (t.stat.err = 3 → i = .crcCheck ∨ i = .desCtrl ∨ ∃ k, i = .desData k) ∧
    (t.stat.err = 4 → i = .chunkSrc) ∧ (t.stat.err = 5 → i = .chunkSrc) ∧
    (i ∈ [.nop, .clrerr, .srst, .serCtrl, .pack24, .unpack24, .seqI2w, .seqW2i] → t.stat.err = 0) ∧
    (t.stat.err = 7 → i ∉ [.nop, .clrerr, .srst, .serCtrl, .desCtrl, .pack24, .unpack24, .seqI2w,
      .seqW2i])

/-- The pull-based source (20_memory.md, section 5): an answer has at most the bytes asked for, an answer
scheduled is given and what is left of it comes next, and only CHUNK.SRC pulls. The schedule is the
model's (notes/assumptions/5.md). -/
def Obligations.OnlyChunkSrcPullsAndPullsAreBounded : Prop :=
  (∀ (src src' : Source) (n : Nat) (b : List Byte), src.pull n = (.ok b, src') → b.length ≤ n) ∧
  (∀ (src : Source) (n : Nat) (b : List Byte) (q : List SrcAnswer), src.queue = .ok b :: q →
    (src.pull n).1 = .ok (b.take n) ∧
      (b.length ≤ n → (src.pull n).2.queue = q) ∧
      (n < b.length → (src.pull n).2.queue = .ok (b.drop n) :: q)) ∧
  (∀ (i : Instr) (s t : State), i ≠ .chunkSrc → exec i s = .next t → t.src = s.src)

/-! ### The checksum function and the wire images -/

/-- 40_checksum.md R132: the named configurations take CRC-16/ARC, its right-shift form computes the same
function, and the check values. -/
def Obligations.CrcArcByRightShifts : Prop :=
  Config.cfg4.crc = ⟨0x8005, 0x0000, true, true, 0x0000⟩ ∧ Config.cfg256.crc = Config.cfg4.crc ∧
  (∀ b : List Byte, crc16 Config.cfg4.crc b =
    b.foldl (fun reg x => Nat.repeat
      (fun r : Half => if r.getLsbD 0 then (r >>> 1) ^^^ 0xA001#16 else r >>> 1) 8
      (reg ^^^ x.setWidth 16)) 0#16) ∧
  crc16 Config.cfg4.crc [0x31, 0x32, 0x33, 0x34, 0x35, 0x36, 0x37, 0x38, 0x39] = 0xBB3D ∧
  crc16 Config.cfg4.crc [] = 0x0000 ∧ crc16 Config.cfg4.crc [0x00] = 0x0000 ∧
  crc16 Config.cfg4.crc [0x01] = 0xC0C1 ∧ crc16 Config.cfg4.crc [0xFF] = 0x4040 ∧
  crc16 Config.cfg4.crc [0x41] = 0x30C0

/-- 40_checksum.md R133: with `POLY[0] = 1`, two byte sequences that differ in exactly one bit have
different CRCs. -/
def Obligations.CrcDetectsEverySingleBitError : Prop :=
  ∀ (c : CrcParams) (before after : List Byte) (x : Byte) (k : Nat), c.poly.getLsbD 0 = true → k < 8 →
    crc16 c (before ++ x :: after) ≠ crc16 c (before ++ (x ^^^ (1#8 <<< k)) :: after)

/-- 30_encoding.md R110: the 14 bytes of a Control Frame, offset by offset. -/
def Obligations.ControlFrameWireImage : Prop :=
  ∀ f : CtrlFrame, (wireCtrl f).length = 14 ∧ bodyCtrl f = (wireCtrl f).take 12 ∧
    (wireCtrl f).take 4 = [f.header.b0, f.header.b1, f.header.b2, f.header.b3] ∧
    (∀ k, k < 4 → (wireCtrl f).getD (4 + k) 0#8 = byteOf 32 f.nFile k) ∧
    (∀ k, k < 2 → (wireCtrl f).getD (8 + k) 0#8 = byteOf 16 f.nFrame k) ∧
    (∀ k, k < 2 → (wireCtrl f).getD (10 + k) 0#8 = byteOf 16 f.status k) ∧
    (∀ k, k < 2 → (wireCtrl f).getD (12 + k) 0#8 = byteOf 16 f.checksum k)

/-- 30_encoding.md R111: the `22 + F` bytes of a Data Frame, offset by offset. -/
def Obligations.DataFrameWireImage : Prop :=
  ∀ (fdMax : Nat) (f : Slot), f.data.length = fdMax →
    (wireData f).length = 22 + fdMax ∧ bodyData f = (wireData f).take (20 + fdMax) ∧
    (wireData f).take 4 = [f.header.b0, f.header.b1, f.header.b2, f.header.b3] ∧
    (∀ k, k < 4 → (wireData f).getD (4 + k) 0#8 = byteOf 32 f.nFile k) ∧
    (∀ k, k < 2 → (wireData f).getD (8 + k) 0#8 = byteOf 16 f.nFrame k) ∧
    (∀ k, k < 3 → (wireData f).getD (10 + k) 0#8 = byteOf 24 f.nTotal k) ∧
    (wireData f).getD 13 0#8 = f.flag ∧
    (∀ k, k < 4 → (wireData f).getD (14 + k) 0#8 = byteOf 32 f.totalLen k) ∧
    (∀ k, k < 2 → (wireData f).getD (18 + k) 0#8 = byteOf 16 f.dataLen k) ∧
    (∀ j, j < fdMax → (wireData f).getD (20 + j) 0#8 = f.data.getD j 0#8) ∧
    (∀ k, k < 2 → (wireData f).getD (20 + fdMax + k) 0#8 = byteOf 16 f.checksum k)

/-- 41_wire_codec.md R151 and R152: parsing and forming the wire images are mutually inverse. -/
def Obligations.ParseAndWireAreInverse : Prop :=
  (∀ f : CtrlFrame, parseCtrl (wireCtrl f) = f) ∧
  (∀ b : List Byte, b.length = 14 → wireCtrl (parseCtrl b) = b) ∧
  (∀ (fdMax : Nat) (f : Slot), f.data.length = fdMax → parseData fdMax (wireData f) = f) ∧
  (∀ (fdMax : Nat) (b : List Byte), b.length = 22 + fdMax →
    wireData (parseData fdMax b) = b ∧ (parseData fdMax b).data.length = fdMax ∧
      (parseData fdMax b).nTotal =
        unpack24 (b.getD 10 0#8 ++ b.getD 11 0#8 ++ b.getD 12 0#8 : BitVec 24))

/-! ### System commands -/

/-- 44_access_and_system.md R224. -/
def Obligations.NopEffect : Prop :=
  decode 0x00000000#32 = .ok .nop ∧
  ∀ s : State, exec .nop s = .next { s with stat := { s.stat with err := 0 } }

/-- 44_access_and_system.md R225. -/
def Obligations.ClrerrEffect : Prop :=
  decode 0x00000001#32 = .ok .clrerr ∧
  ∀ s : State, exec .clrerr s = .next { s with stat := { s.stat with err := 0, sticky := 0 } }

/-- 44_access_and_system.md R226. -/
def Obligations.SrstEffect : Prop :=
  decode 0x00000002#32 = .ok .srst ∧
  ∀ s : State, ∃ t, exec .srst s = .next t ∧ t.regs.AtReset s.cfg.magic ∧ t.stat.toWord = 0 ∧
    t.wlen = 0 ∧ { t with regs := s.regs, stat := s.stat, wlen := s.wlen } = s

/-! ### Checksum commands -/

/-- 40_checksum.md R135. -/
def Obligations.CrcCalcEffect : Prop :=
  decode 0x00000010#32 = .ok .crcCalc ∧
  ∀ s : State,
    (s.wlen.toNat ≤ 22 + s.cfg.fdMax → exec .crcCalc s = .next { s with
      regs := { s.regs with csum := crc16 s.cfg.crc (s.wbuf.readBytes 0 s.wlen.toNat) },
      stat := { s.stat with err := 0 } }) ∧
    (22 + s.cfg.fdMax < s.wlen.toNat → exec .crcCalc s = .next (s.afterError 7))

/-- 40_checksum.md R136: the two bytes before `WLEN` and CSUM take the CRC of what precedes them. -/
def Obligations.CrcStampEffect : Prop :=
  decode 0x00000011#32 = .ok .crcStamp ∧
  ∀ s : State, let n := s.wlen.toNat
    let c := crc16 s.cfg.crc (s.wbuf.readBytes 0 (n - 2))
    (2 ≤ n → n ≤ 22 + s.cfg.fdMax → ∃ t, exec .crcStamp s = .next t ∧
      t.wbuf.read (n - 2) = byteOf 16 c 0 ∧ t.wbuf.read (n - 1) = byteOf 16 c 1 ∧
      (∀ a, a ≠ n - 2 → a ≠ n - 1 → t.wbuf.read a = s.wbuf.read a) ∧
      t.regs = { s.regs with csum := c } ∧ t.stat = { s.stat with err := 0 } ∧
      { t with wbuf := s.wbuf, regs := s.regs, stat := s.stat } = s) ∧
    (n < 2 ∨ 22 + s.cfg.fdMax < n → exec .crcStamp s = .next (s.afterError 7))

/-- 40_checksum.md R137. -/
def Obligations.CrcCheckEffect : Prop :=
  decode 0x00000012#32 = .ok .crcCheck ∧
  ∀ s : State, let n := s.wlen.toNat
    let c := crc16 s.cfg.crc (s.wbuf.readBytes 0 (n - 2))
    let r := (s.wbuf.read (n - 2)).toNat + 256 * (s.wbuf.read (n - 1)).toNat
    (2 ≤ n → n ≤ 22 + s.cfg.fdMax → c.toNat = r → exec .crcCheck s = .next { s with
      regs := { s.regs with csum := c }, stat := { s.stat with err := 0, crcok := true } }) ∧
    (2 ≤ n → n ≤ 22 + s.cfg.fdMax → c.toNat ≠ r →
      exec .crcCheck s = .next (s.afterCheckError 3)) ∧
    (n < 2 ∨ 22 + s.cfg.fdMax < n → exec .crcCheck s = .next (s.afterCheckError 7))

/-! ### Wire codec commands -/

/-- 41_wire_codec.md R160. -/
def Obligations.SerCtrlEffect : Prop :=
  decode 0x00000020#32 = .ok .serCtrl ∧
  ∀ s : State, ∃ t, exec .serCtrl s = .next t ∧
    let c := crc16 s.cfg.crc (t.wbuf.readBytes 0 12)
    (∀ k, k < 4 → t.wbuf.read k = byteOf 32 s.regs.hdr k) ∧
    (∀ k, k < 4 → t.wbuf.read (4 + k) = byteOf 32 s.regs.nfile k) ∧
    (∀ k, k < 2 → t.wbuf.read (8 + k) = byteOf 16 s.regs.nframe k) ∧
    (∀ k, k < 2 → t.wbuf.read (10 + k) = byteOf 16 s.regs.status k) ∧
    (∀ k, k < 2 → t.wbuf.read (12 + k) = byteOf 16 c k) ∧
    (∀ a, 14 ≤ a → t.wbuf.read a = s.wbuf.read a) ∧
    t.regs = { s.regs with csum := c } ∧ t.wlen = 14 ∧ t.stat = { s.stat with err := 0 } ∧
    { t with wbuf := s.wbuf, regs := s.regs, wlen := s.wlen, stat := s.stat } = s

/-- 41_wire_codec.md R161. -/
def Obligations.DesCtrlEffect : Prop :=
  decode 0x00000021#32 = .ok .desCtrl ∧
  ∀ s : State,
    let c := crc16 s.cfg.crc (s.wbuf.readBytes 0 12)
    let r := (s.wbuf.read 12).toNat + 256 * (s.wbuf.read 13).toNat
    (s.wlen ≠ 14 → exec .desCtrl s = .next (s.afterCheckError 2)) ∧
    (s.wlen = 14 → c.toNat ≠ r → exec .desCtrl s = .next (s.afterCheckError 3)) ∧
    (s.wlen = 14 → c.toNat = r → ∃ t, exec .desCtrl s = .next t ∧
      (∀ k, k < 4 → byteOf 32 t.regs.hdr k = s.wbuf.read k) ∧
      (∀ k, k < 4 → byteOf 32 t.regs.nfile k = s.wbuf.read (4 + k)) ∧
      (∀ k, k < 2 → byteOf 16 t.regs.nframe k = s.wbuf.read (8 + k)) ∧
      (∀ k, k < 2 → byteOf 16 t.regs.status k = s.wbuf.read (10 + k)) ∧
      t.regs.csum = c ∧
      { t.regs with hdr := s.regs.hdr, nfile := s.regs.nfile, nframe := s.regs.nframe,
                    status := s.regs.status, csum := s.regs.csum } = s.regs ∧
      t.stat = { s.stat with err := 0, crcok := true } ∧
      { t with regs := s.regs, stat := s.stat } = s)

/-- 41_wire_codec.md R162. -/
def Obligations.SerDataEffect : Prop :=
  (∀ k, k < 65536 → decode (BitVec.ofNat 32 (0x22 + k * 2 ^ 16)) = .ok (.serData k)) ∧
  ∀ (s : State) (k : Nat), s.cfg.Valid → s.StoreWf →
    (s.cfg.nSlots ≤ k → exec (.serData k) s = .next (s.afterError 7)) ∧
    (k < s.cfg.nSlots → ∃ t, exec (.serData k) s = .next t ∧
      let f := s.slot k
      let c := crc16 s.cfg.crc (t.wbuf.readBytes 0 (20 + s.cfg.fdMax))
      t.wbuf.readBytes 0 4 = [f.header.b0, f.header.b1, f.header.b2, f.header.b3] ∧
      (∀ j, j < 4 → t.wbuf.read (4 + j) = byteOf 32 f.nFile j) ∧
      (∀ j, j < 2 → t.wbuf.read (8 + j) = byteOf 16 f.nFrame j) ∧
      (∀ j, j < 3 → t.wbuf.read (10 + j) = byteOf 24 f.nTotal j) ∧
      t.wbuf.read 13 = f.flag ∧
      (∀ j, j < 4 → t.wbuf.read (14 + j) = byteOf 32 f.totalLen j) ∧
      (∀ j, j < 2 → t.wbuf.read (18 + j) = byteOf 16 f.dataLen j) ∧
      (∀ j, j < s.cfg.fdMax → t.wbuf.read (20 + j) = f.data.getD j 0#8) ∧
      (∀ j, j < 2 → t.wbuf.read (20 + s.cfg.fdMax + j) = byteOf 16 c j) ∧
      (∀ a, 22 + s.cfg.fdMax ≤ a → t.wbuf.read a = s.wbuf.read a) ∧
      t.slot k = { f with checksum := c } ∧ c = s.slotCsum k ∧
      (∀ j, j ≠ k → t.slot j = s.slot j) ∧
      t.wlen.toNat = 22 + s.cfg.fdMax ∧ t.stat = { s.stat with err := 0 } ∧
      { t with wbuf := s.wbuf, fs := s.fs, wlen := s.wlen, stat := s.stat } = s)

/-- 41_wire_codec.md R163. -/
def Obligations.DesDataEffect : Prop :=
  (∀ k, k < 65536 → decode (BitVec.ofNat 32 (0x23 + k * 2 ^ 16)) = .ok (.desData k)) ∧
  ∀ (s : State) (k : Nat), s.cfg.Valid → s.StoreWf →
    let c := crc16 s.cfg.crc (s.wbuf.readBytes 0 (20 + s.cfg.fdMax))
    let r := (s.wbuf.read (20 + s.cfg.fdMax)).toNat + 256 * (s.wbuf.read (21 + s.cfg.fdMax)).toNat
    (s.cfg.nSlots ≤ k → exec (.desData k) s = .next (s.afterError 7)) ∧
    (k < s.cfg.nSlots → s.wlen.toNat ≠ 22 + s.cfg.fdMax →
      exec (.desData k) s = .next (s.afterCheckError 2)) ∧
    (k < s.cfg.nSlots → s.wlen.toNat = 22 + s.cfg.fdMax → c.toNat ≠ r →
      exec (.desData k) s = .next (s.afterCheckError 3)) ∧
    (k < s.cfg.nSlots → s.wlen.toNat = 22 + s.cfg.fdMax → c.toNat = r →
      ∃ t, exec (.desData k) s = .next t ∧
        let f := t.slot k
        [f.header.b0, f.header.b1, f.header.b2, f.header.b3] = s.wbuf.readBytes 0 4 ∧
        (∀ j, j < 4 → byteOf 32 f.nFile j = s.wbuf.read (4 + j)) ∧
        (∀ j, j < 2 → byteOf 16 f.nFrame j = s.wbuf.read (8 + j)) ∧
        (∀ j, j < 3 → byteOf 24 f.nTotal j = s.wbuf.read (10 + j)) ∧
        f.flag = s.wbuf.read 13 ∧
        (∀ j, j < 4 → byteOf 32 f.totalLen j = s.wbuf.read (14 + j)) ∧
        (∀ j, j < 2 → byteOf 16 f.dataLen j = s.wbuf.read (18 + j)) ∧
        f.data = s.wbuf.readBytes 20 s.cfg.fdMax ∧
        f.checksum = c ∧ t.ChecksumCurrent k ∧
        (∀ j, j ≠ k → t.slot j = s.slot j) ∧
        t.stat = { s.stat with err := 0, crcok := true } ∧
        { t with fs := s.fs, stat := s.stat } = s)

/-- 41_wire_codec.md R164. -/
def Obligations.PackEffect : Prop :=
  decode 0x00000024#32 = .ok .pack24 ∧
  ∀ s : State, ∃ t, exec .pack24 s = .next t ∧
    byteOf 24 t.regs.p24 2 = byteOf 24 s.regs.ntotal 0 ∧
    byteOf 24 t.regs.p24 1 = byteOf 24 s.regs.ntotal 1 ∧
    byteOf 24 t.regs.p24 0 = byteOf 24 s.regs.ntotal 2 ∧
    t.regs.p24 = (bswap32 (s.regs.ntotal.setWidth 32) >>> 8).setWidth 24 ∧
    byteOf 32 (t.regRead 13) 3 = 0 ∧
    { t.regs with p24 := s.regs.p24 } = s.regs ∧ t.stat = { s.stat with err := 0 } ∧
    { t with regs := s.regs, stat := s.stat } = s

/-- 41_wire_codec.md R165, with the two round trips it states. -/
def Obligations.UnpackEffectAndInverse : Prop :=
  decode 0x00000025#32 = .ok .unpack24 ∧
  (∀ s : State, ∃ t, exec .unpack24 s = .next t ∧
    byteOf 24 t.regs.ntotal 0 = byteOf 24 s.regs.p24 2 ∧
    byteOf 24 t.regs.ntotal 1 = byteOf 24 s.regs.p24 1 ∧
    byteOf 24 t.regs.ntotal 2 = byteOf 24 s.regs.p24 0 ∧
    t.regs.ntotal = (bswap32 (s.regs.p24.setWidth 32 <<< 8)).setWidth 24 ∧
    { t.regs with ntotal := s.regs.ntotal } = s.regs ∧ t.stat = { s.stat with err := 0 } ∧
    { t with regs := s.regs, stat := s.stat } = s) ∧
  (∀ s : State, ∃ t, runCommands [.pack24, .unpack24] s = .next t ∧ t.regs.ntotal = s.regs.ntotal) ∧
  (∀ s : State, ∃ t, runCommands [.unpack24, .pack24] s = .next t ∧ t.regs.p24 = s.regs.p24)

/-! ### Sequencer commands -/

/-- 42_sequencer.md R186 with R181 and R183: the wire sequence number in both modes. -/
def Obligations.SeqI2wEffect : Prop :=
  decode 0x00000030#32 = .ok .seqI2w ∧
  ∀ s : State, ∃ t, exec .seqI2w s = .next t ∧
    (s.cfg.seqMode = .documented → s.regs.count = 1 → t.regs.nframe = s.regs.id) ∧
    (s.cfg.seqMode = .documented → s.regs.count ≠ 1 →
      t.regs.nframe.toNat = (s.regs.id.toNat + 1) % 2 ^ 16) ∧
    (s.cfg.seqMode = .identity → t.regs.nframe = s.regs.id) ∧
    { t.regs with nframe := s.regs.nframe } = s.regs ∧ t.stat = { s.stat with err := 0 } ∧
    { t with regs := s.regs, stat := s.stat } = s

/-- 42_sequencer.md R187 with R182 and R184: the frame index in both modes. -/
def Obligations.SeqW2iEffect : Prop :=
  decode 0x00000031#32 = .ok .seqW2i ∧
  ∀ s : State, ∃ t, exec .seqW2i s = .next t ∧
    (s.cfg.seqMode = .documented → s.regs.count = 1 → t.regs.id = s.regs.nframe) ∧
    (s.cfg.seqMode = .documented → s.regs.count ≠ 1 →
      t.regs.id.toNat = (s.regs.nframe.toNat + 2 ^ 16 - 1) % 2 ^ 16) ∧
    (s.cfg.seqMode = .identity → t.regs.id = s.regs.nframe) ∧
    { t.regs with id := s.regs.id } = s.regs ∧ t.stat = { s.stat with err := 0 } ∧
    { t with regs := s.regs, stat := s.stat } = s

/-- 42_sequencer.md R185: the edges in DOCUMENTED mode, and that the two functions are inverse on all
inputs. -/
def Obligations.SequencerWrapsAndInverts : Prop :=
  ∀ (v : Half) (len : Tri),
    (len ≠ 1 → indexToWire .documented 65535 len = 0 ∧ wireToIndex .documented 0 len = 65535) ∧
    (indexToWire .documented v 0).toNat = (v.toNat + 1) % 2 ^ 16 ∧
    wireToIndex .documented (indexToWire .documented v len) len = v ∧
    indexToWire .documented (wireToIndex .documented v len) len = v

/-! ### Frame chunker commands -/

/-- 43_frame_chunker.md R191: the frame count and the length of each frame. -/
def Obligations.ChunkingArithmetic : Prop :=
  ∀ total fdMax : Nat, 0 < fdMax →
    let n := ceilDiv total fdMax
    (∀ q, n ≤ q ↔ total ≤ q * fdMax) ∧ (n = 0 ↔ total = 0) ∧
    (∀ i, i + 1 < n → frameLen fdMax total n i = fdMax) ∧
    (0 < total → frameLen fdMax total n (n - 1) = total - (n - 1) * fdMax ∧
      1 ≤ frameLen fdMax total n (n - 1) ∧ frameLen fdMax total n (n - 1) ≤ fdMax ∧
      frameLen fdMax total n (n - 1) =
        if total % fdMax = 0 then fdMax else total % fdMax) ∧
    ((List.range n).map (frameLen fdMax total n)).sum = total

/-- 43_frame_chunker.md R192. -/
def Obligations.ChunkBufEffect : Prop :=
  decode 0x00000040#32 = .ok .chunkBuf ∧
  ∀ s : State, s.cfg.Valid → s.StoreWf →
    let total := s.regs.len.toNat
    let n := ceilDiv total s.cfg.fdMax
    (s.cfg.nSlots < n ∨ s.cfg.pmemSize < s.regs.addr.toNat + total →
      exec .chunkBuf s = .next (s.afterError 7)) ∧
    (n ≤ s.cfg.nSlots → s.regs.addr.toNat + total ≤ s.cfg.pmemSize →
      ∃ t, exec .chunkBuf s = .next t ∧ FrameSetMade s t s.payloadPieces total ∧
        s.payloadPieces.length = n ∧ t.regs.count.toNat = n ∧
        { t.regs with count := s.regs.count } = s.regs ∧ t.stat = { s.stat with err := 0 } ∧
        { t with fs := s.fs, regs := s.regs, stat := s.stat } = s)

/-- 43_frame_chunker.md R193, the loop that ends on a short read: `full` are answers of `F` bytes, `last`
is shorter than the request. Where no byte came at all the command raises SRC_EXHAUSTED and only the
source has moved. The schedule of answers is the model's (notes/assumptions/5.md). -/
def Obligations.ChunkSrcEndsOnAShortRead : Prop :=
  decode 0x00000041#32 = .ok .chunkSrc ∧
  ∀ (s : State) (full : List (List Byte)) (last : List Byte) (rest : List SrcAnswer),
    s.cfg.Valid → s.StoreWf → ceilDiv s.regs.len.toNat s.cfg.fdMax ≤ s.cfg.nSlots →
    (∀ b ∈ full, b.length = s.cfg.fdMax) → full.length * s.cfg.fdMax < s.regs.len.toNat →
    last.length < min s.cfg.fdMax (s.regs.len.toNat - full.length * s.cfg.fdMax) →
    s.src.queue = full.map .ok ++ .ok last :: rest →
    let chunks := if last = [] then full else full ++ [last]
    let total := full.length * s.cfg.fdMax + last.length
    ∃ t, exec .chunkSrc s = .next t ∧ t.src.queue = rest ∧
      (total = 0 → { t with src := s.src } = s.afterError 4) ∧
      (0 < total → FrameSetMade s t chunks total ∧ t.regs.count.toNat = chunks.length ∧
        t.regs.len.toNat = total ∧
        { t.regs with count := s.regs.count, len := s.regs.len } = s.regs ∧
        t.stat = { s.stat with err := 0, limit := false } ∧
        { t with fs := s.fs, regs := s.regs, stat := s.stat, src := s.src } = s)

/-- 43_frame_chunker.md R193, the loop that reaches `LEN` bytes without a short read. The schedule of
answers is the model's (notes/assumptions/5.md). -/
def Obligations.ChunkSrcStopsAtTheLimit : Prop :=
  ∀ (s : State) (full : List (List Byte)) (last : List Byte) (rest : List SrcAnswer),
    s.cfg.Valid → s.StoreWf → ceilDiv s.regs.len.toNat s.cfg.fdMax ≤ s.cfg.nSlots →
    (∀ b ∈ full, b.length = s.cfg.fdMax) → full.length * s.cfg.fdMax < s.regs.len.toNat →
    full.length * s.cfg.fdMax + last.length = s.regs.len.toNat → last.length ≤ s.cfg.fdMax →
    s.src.queue = full.map .ok ++ .ok last :: rest →
    ∃ t, exec .chunkSrc s = .next t ∧ t.src.queue = rest ∧
      FrameSetMade s t (full ++ [last]) s.regs.len.toNat ∧
      t.regs.count.toNat = full.length + 1 ∧ t.regs.len = s.regs.len ∧
      { t.regs with count := s.regs.count } = s.regs ∧
      t.stat = { s.stat with err := 0, limit := true } ∧
      { t with fs := s.fs, regs := s.regs, stat := s.stat, src := s.src } = s

/-- 43_frame_chunker.md R193, the failures: RANGE before any pull, SRC_EXHAUSTED without a pull where
LEN is 0, and SRC_ERROR after `full` completed frames, which leaves `data` and `data_len` of the slots
up to `|full|` open and everything else as it was. The schedule of answers is the model's
(notes/assumptions/5.md). -/
def Obligations.ChunkSrcFailures : Prop :=
  (∀ s : State, s.cfg.nSlots < ceilDiv s.regs.len.toNat s.cfg.fdMax →
    exec .chunkSrc s = .next (s.afterError 7)) ∧
  (∀ s : State, s.cfg.Valid → s.regs.len = 0 → exec .chunkSrc s = .next (s.afterError 4)) ∧
  (∀ (s : State) (full : List (List Byte)) (rest : List SrcAnswer),
    s.cfg.Valid → s.StoreWf → ceilDiv s.regs.len.toNat s.cfg.fdMax ≤ s.cfg.nSlots →
    (∀ b ∈ full, b.length = s.cfg.fdMax) → full.length * s.cfg.fdMax < s.regs.len.toNat →
    s.src.queue = full.map .ok ++ .err :: rest →
    ∃ t, exec .chunkSrc s = .next t ∧ t.src.queue = rest ∧
      (∀ i, full.length < i → t.slot i = s.slot i) ∧
      (∀ i, t.slot i = { s.slot i with data := (t.slot i).data, dataLen := (t.slot i).dataLen }) ∧
      { t with fs := s.fs, src := s.src, freeDraws := s.freeDraws } = s.afterError 5)

/-- 43_frame_chunker.md R194: the sum is exact. -/
def Obligations.TotlenEffect : Prop :=
  decode 0x00000042#32 = .ok .totlen ∧
  ∀ s : State, s.cfg.Valid →
    let n := s.regs.count.toNat
    (s.cfg.nSlots < n → exec .totlen s = .next (s.afterError 7)) ∧
    (n ≤ s.cfg.nSlots → ∃ t, exec .totlen s = .next t ∧
      t.regs.len.toNat = ((List.range n).map (fun i => (s.slot i).dataLen.toNat)).sum ∧
      { t.regs with len := s.regs.len } = s.regs ∧ t.stat = { s.stat with err := 0 } ∧
      { t with regs := s.regs, stat := s.stat } = s)

/-- 43_frame_chunker.md R195: the valid bytes of the frames stand one after another from ADDR on, and no
other byte of PMEM changes. -/
def Obligations.ReasmEffect : Prop :=
  decode 0x00000043#32 = .ok .reasm ∧
  ∀ s : State, s.cfg.Valid → s.StoreWf →
    let n := s.regs.count.toNat
    let a := s.regs.addr.toNat
    let off := fun i => ((List.range i).map (fun j => (s.slot j).dataLen.toNat)).sum
    (s.cfg.nSlots < n ∨ (∃ i, i < n ∧ s.cfg.fdMax < (s.slot i).dataLen.toNat) ∨
        s.cfg.pmemSize < a + off n → exec .reasm s = .next (s.afterError 7)) ∧
    (n ≤ s.cfg.nSlots → (∀ i, i < n → (s.slot i).dataLen.toNat ≤ s.cfg.fdMax) →
      a + off n ≤ s.cfg.pmemSize → ∃ t, exec .reasm s = .next t ∧
        (∀ i j, i < n → j < (s.slot i).dataLen.toNat →
          t.pmem.read (a + off i + j) = (s.slot i).data.getD j 0#8) ∧
        (∀ x, (x < a ∨ a + off n ≤ x) → t.pmem.read x = s.pmem.read x) ∧
        t.regs.len.toNat = off n ∧ { t.regs with len := s.regs.len } = s.regs ∧
        t.stat = { s.stat with err := 0 } ∧
        { t with pmem := s.pmem, regs := s.regs, stat := s.stat } = s)

/-- 43_frame_chunker.md R196: the four fields INIT stamps, numbering included, and that INIT twice is
INIT once. -/
def Obligations.InitEffect : Prop :=
  decode 0x00000044#32 = .ok .init ∧
  ∀ s : State, s.cfg.Valid → s.StoreWf →
    let n := s.regs.count.toNat
    (s.cfg.nSlots < n → exec .init s = .next (s.afterError 7)) ∧
    (n ≤ s.cfg.nSlots → ∃ t, exec .init s = .next t ∧
      (∀ i, i < n → t.slot i = { s.slot i with
          header := s.cfg.magic, nFile := s.regs.nfile, flag := s.regs.flag,
          nFrame := (t.slot i).nFrame } ∧
        (t.slot i).nFrame.toNat =
          match s.cfg.seqMode with
          | .documented => if n = 1 then 0 else i + 1
          | .identity => i) ∧
      (∀ i, n ≤ i → t.slot i = s.slot i) ∧
      t.stat = { s.stat with err := 0 } ∧ { t with fs := s.fs, stat := s.stat } = s ∧
      exec .init t = .next t)

/-- 43_frame_chunker.md R197. -/
def Obligations.StampEffect : Prop :=
  (∀ k, k < 65536 → decode (BitVec.ofNat 32 (0x45 + k * 2 ^ 16)) = .ok (.stamp k)) ∧
  ∀ (s : State) (k : Nat), s.StoreWf →
    (s.cfg.nSlots ≤ k → exec (.stamp k) s = .next (s.afterError 7)) ∧
    (k < s.cfg.nSlots → ∃ t, exec (.stamp k) s = .next t ∧
      t.slot k = { s.slot k with checksum := crc16 s.cfg.crc ((wireData (s.slot k)).take (20 + s.cfg.fdMax)) } ∧
      t.ChecksumCurrent k ∧ (∀ j, j ≠ k → t.slot j = s.slot j) ∧
      t.stat = { s.stat with err := 0 } ∧ { t with fs := s.fs, stat := s.stat } = s)

/-- 43_frame_chunker.md R198, and that it equals `STAMP 0; ...; STAMP n−1`. -/
def Obligations.StampAllEffect : Prop :=
  decode 0x00000046#32 = .ok .stampAll ∧
  ∀ s : State, s.StoreWf →
    let n := s.regs.count.toNat
    (s.cfg.nSlots < n → exec .stampAll s = .next (s.afterError 7)) ∧
    (n ≤ s.cfg.nSlots → ∃ t u, exec .stampAll s = .next t ∧
      (∀ i, i < n → t.slot i = { s.slot i with checksum := s.slotCsum i } ∧ t.ChecksumCurrent i) ∧
      (∀ i, n ≤ i → t.slot i = s.slot i) ∧
      t.stat = { s.stat with err := 0 } ∧ { t with fs := s.fs, stat := s.stat } = s ∧
      runCommands ((List.range n).map .stamp) s = .next u ∧ u.fs = t.fs)

/-! ### Frame access commands -/

/-- 44_access_and_system.md R220. -/
def Obligations.FgetEffect : Prop :=
  (∀ k, k < 65536 → decode (BitVec.ofNat 32 (0x50 + k * 2 ^ 16)) = .ok (.fget k)) ∧
  ∀ (s : State) (k : Nat),
    (s.cfg.nSlots ≤ k → exec (.fget k) s = .next (s.afterError 7)) ∧
    (k < s.cfg.nSlots → ∃ t, exec (.fget k) s = .next t ∧
      let f := s.slot k
      byteOf 32 t.regs.hdr 0 = f.header.b0 ∧ byteOf 32 t.regs.hdr 1 = f.header.b1 ∧
      byteOf 32 t.regs.hdr 2 = f.header.b2 ∧ byteOf 32 t.regs.hdr 3 = f.header.b3 ∧
      t.regs = { s.regs with hdr := t.regs.hdr, nfile := f.nFile, nframe := f.nFrame,
                             ntotal := f.nTotal, flag := f.flag, tlen := f.totalLen,
                             dlen := f.dataLen, csum := f.checksum } ∧
      t.stat = { s.stat with err := 0 } ∧ { t with regs := s.regs, stat := s.stat } = s)

/-- 44_access_and_system.md R221, with its two consequences: FGET then FPUT of the same slot changes no
slot, and of another slot copies the header fields. -/
def Obligations.FputEffect : Prop :=
  (∀ k, k < 65536 → decode (BitVec.ofNat 32 (0x51 + k * 2 ^ 16)) = .ok (.fput k)) ∧
  (∀ (s : State) (k : Nat), s.StoreWf →
    (s.cfg.nSlots ≤ k → exec (.fput k) s = .next (s.afterError 7)) ∧
    (k < s.cfg.nSlots → ∃ t, exec (.fput k) s = .next t ∧
      t.slot k = { header := ⟨byteOf 32 s.regs.hdr 0, byteOf 32 s.regs.hdr 1, byteOf 32 s.regs.hdr 2,
                     byteOf 32 s.regs.hdr 3⟩,
                   nFile := s.regs.nfile, nFrame := s.regs.nframe, nTotal := s.regs.ntotal,
                   flag := s.regs.flag, totalLen := s.regs.tlen, dataLen := s.regs.dlen,
                   data := (s.slot k).data, checksum := s.regs.csum } ∧
      (∀ j, j ≠ k → t.slot j = s.slot j) ∧
      t.stat = { s.stat with err := 0 } ∧ { t with fs := s.fs, stat := s.stat } = s)) ∧
  (∀ (s : State) (k d : Nat), s.StoreWf → k < s.cfg.nSlots → d < s.cfg.nSlots →
    ∃ t, runCommands [.fget k, .fput d] s = .next t ∧
      t.slot d = { s.slot k with data := (s.slot d).data } ∧ ∀ j, j ≠ d → t.slot j = s.slot j)

/-- 44_access_and_system.md R222: all `F` bytes go to ADDR, no other byte of PMEM changes. -/
def Obligations.DgetEffect : Prop :=
  (∀ k, k < 65536 → decode (BitVec.ofNat 32 (0x52 + k * 2 ^ 16)) = .ok (.dget k)) ∧
  ∀ (s : State) (k : Nat),
    (s.cfg.nSlots ≤ k ∨ s.cfg.pmemSize < s.regs.addr.toNat + s.cfg.fdMax →
      exec (.dget k) s = .next (s.afterError 7)) ∧
    (k < s.cfg.nSlots → s.regs.addr.toNat + s.cfg.fdMax ≤ s.cfg.pmemSize →
      ∃ t, exec (.dget k) s = .next t ∧
        (∀ j, j < s.cfg.fdMax → t.pmem.read (s.regs.addr.toNat + j) = (s.slot k).data.getD j 0#8) ∧
        (∀ x, (x < s.regs.addr.toNat ∨ s.regs.addr.toNat + s.cfg.fdMax ≤ x) →
          t.pmem.read x = s.pmem.read x) ∧
        t.stat = { s.stat with err := 0 } ∧ { t with pmem := s.pmem, stat := s.stat } = s)

/-- 44_access_and_system.md R223. -/
def Obligations.DputEffect : Prop :=
  (∀ k, k < 65536 → decode (BitVec.ofNat 32 (0x53 + k * 2 ^ 16)) = .ok (.dput k)) ∧
  ∀ (s : State) (k : Nat), s.StoreWf →
    (s.cfg.nSlots ≤ k ∨ s.cfg.pmemSize < s.regs.addr.toNat + s.cfg.fdMax →
      exec (.dput k) s = .next (s.afterError 7)) ∧
    (k < s.cfg.nSlots → s.regs.addr.toNat + s.cfg.fdMax ≤ s.cfg.pmemSize →
      ∃ t, exec (.dput k) s = .next t ∧
        t.slot k = { s.slot k with data := s.pmem.readBytes s.regs.addr.toNat s.cfg.fdMax } ∧
        (∀ j, j ≠ k → t.slot j = s.slot j) ∧
        t.stat = { s.stat with err := 0 } ∧ { t with fs := s.fs, stat := s.stat } = s)

/-! ### Properties of command sequences and frame sets -/

/-- 41_wire_codec.md R166: SER then DES succeeds and gives the frame back, for Data Frames and for the
Control Frame. -/
def Obligations.SerializeThenDeserialize : Prop :=
  (∀ (s : State) (k d : Nat), s.cfg.Valid → s.StoreWf → k < s.cfg.nSlots → d < s.cfg.nSlots →
    ∃ t, runCommands [.serData k, .desData d] s = .next t ∧ t.stat.err = 0 ∧ t.stat.crcok = true ∧
      t.slot d = { s.slot k with checksum := s.slotCsum k } ∧ t.slot k = t.slot d) ∧
  (∀ s : State, ∃ t, runCommands [.serCtrl, .desCtrl] s = .next t ∧ t.stat.err = 0 ∧
    t.stat.crcok = true ∧ t.regs = { s.regs with csum := csumCtrl s.cfg.crc s.regs.ctrlFrame })

/-- 43_frame_chunker.md R200: chunk, total length, reassemble gives the payload back, whether or not the
two ranges overlap. -/
def Obligations.ChunkThenReassemble : Prop :=
  ∀ (s t1 t2 : State) (a' : Word), s.cfg.Valid → s.StoreWf →
    s.regs.len.toNat ≤ s.cfg.nSlots * s.cfg.fdMax →
    s.regs.addr.toNat + s.regs.len.toNat ≤ s.cfg.pmemSize →
    a'.toNat + s.regs.len.toNat ≤ s.cfg.pmemSize →
    exec .chunkBuf s = .next t1 → exec .totlen t1 = .next t2 →
    t1.stat.err = 0 ∧ t2.stat.err = 0 ∧ t2.regs.len = s.regs.len ∧
    ∃ t3, exec .reasm { t2 with regs := { t2.regs with addr := a' } } = .next t3 ∧ t3.stat.err = 0 ∧
      t3.pmem.readBytes a'.toNat s.regs.len.toNat =
        s.pmem.readBytes s.regs.addr.toNat s.regs.len.toNat ∧
      ∀ x, (x < a'.toNat ∨ a'.toNat + s.regs.len.toNat ≤ x) → t3.pmem.read x = s.pmem.read x

/-- 43_frame_chunker.md R201: the invariants of the frame set a successful CHUNK.BUF or CHUNK.SRC makes,
whatever the source answers. -/
def Obligations.ChunkedFrameSetInvariants : Prop :=
  ∀ (i : Instr) (s t : State), s.cfg.Valid → s.StoreWf → (i = .chunkBuf ∨ i = .chunkSrc) →
    exec i s = .next t → t.stat.err = 0 →
    let n := t.regs.count.toNat
    let total := t.regs.len.toNat
    (∀ k, k + 1 < n → (t.slot k).dataLen.toNat = t.cfg.fdMax) ∧
    (0 < n → 1 ≤ (t.slot (n - 1)).dataLen.toNat ∧ (t.slot (n - 1)).dataLen.toNat ≤ t.cfg.fdMax) ∧
    ((List.range n).map (fun k => (t.slot k).dataLen.toNat)).sum = total ∧
    ∀ k, k < n → (t.slot k).nTotal.toNat = n ∧ (t.slot k).totalLen.toNat = total ∧
      (∀ j, (t.slot k).dataLen.toNat ≤ j → (t.slot k).data.getD j 0#8 = 0) ∧ t.ChecksumCurrent k

/-- 43_frame_chunker.md R199, its command sequences with CHUNK.BUF: CHUNK.BUF, then INIT and STAMP.ALL, or
INIT first and CHUNK.BUF then, leave the same frame set. -/
def Obligations.ChunkAndInitCommute : Prop :=
  ∀ s : State, s.cfg.Valid → s.StoreWf →
    let n := ceilDiv s.regs.len.toNat s.cfg.fdMax
    n ≤ s.cfg.nSlots → s.regs.addr.toNat + s.regs.len.toNat ≤ s.cfg.pmemSize →
    ∃ t u v, runCommands [.chunkBuf, .init, .stampAll] s = .next t ∧
      runCommands [.init, .chunkBuf] { s with regs := { s.regs with count := BitVec.ofNat 24 n } } =
        .next u ∧ u = t ∧
      runCommands [.chunkBuf, .init] s = .next v ∧
      ∀ k, v.slot k = { t.slot k with checksum := (v.slot k).checksum }
end

