-- ==== Sys2Proof/Laws/Bytes.lean ====
section
/-! SUPPORT. Laws of bytes and byte sequences: little-endian images, padding, slices, `ceil_div`, the
header in a register, the 24-bit packing. -/

namespace Sys2Proof

@[simp] theorem leBytes_length (k v : Nat) : (leBytes k v).length = k := by
  induction k generalizing v with
  | zero => rfl
  | succ k ih => simp [leBytes, ih]

theorem fromLe_leBytes (k v : Nat) : fromLe (leBytes k v) = v % 256 ^ k := by
  induction k generalizing v with
  | zero => simp [leBytes, fromLe, Nat.mod_one]
  | succ k ih =>
    have h : v % 256 ^ (k + 1) = v % 256 + 256 * (v / 256 % 256 ^ k) := by
      rw [Nat.pow_succ', Nat.mod_mul]
    rw [h, leBytes, fromLe, ih, BitVec.toNat_ofNat]

theorem fromLe_lt (b : List Byte) : fromLe b < 256 ^ b.length := by
  induction b with
  | nil => simp [fromLe]
  | cons x b ih =>
    have := x.isLt
    rw [fromLe, List.length_cons, Nat.pow_succ']
    omega

theorem leBytes_fromLe (b : List Byte) : leBytes b.length (fromLe b) = b := by
  induction b with
  | nil => rfl
  | cons x b ih =>
    have hx := x.isLt
    have hd : fromLe (x :: b) / 256 = fromLe b := by rw [fromLe]; omega
    have hm : BitVec.ofNat 8 (fromLe (x :: b)) = x := by
      apply BitVec.eq_of_toNat_eq
      rw [fromLe, BitVec.toNat_ofNat]
      omega
    rw [List.length_cons, leBytes, hd, hm, ih]

theorem leBytes_getD (k v i : Nat) (h : i < k) :
    (leBytes k v).getD i 0#8 = BitVec.ofNat 8 (v / 256 ^ i) := by
  induction k generalizing v i with
  | zero => omega
  | succ k ih =>
    cases i with
    | zero => simp [leBytes]
    | succ i => rw [leBytes, List.getD_cons_succ, ih _ _ (by omega), Nat.div_div_eq_div_mul, Nat.pow_succ']

@[simp] theorem padTo_length (n : Nat) (b : List Byte) : (padTo n b).length = n := by
  simp [padTo]; omega

theorem padTo_getD (n : Nat) (b : List Byte) (i : Nat) :
    (padTo n b).getD i 0#8 = if i < n then b.getD i 0#8 else 0#8 := by
  simp only [padTo, List.getD_eq_getElem?_getD, List.getElem?_take]
  split
  · rw [List.getElem?_append]
    split
    · rfl
    · rw [List.getElem?_replicate, List.getElem?_eq_none (by omega)]
      split <;> rfl
  · rfl

theorem padTo_eq_self (n : Nat) (b : List Byte) (h : b.length = n) : padTo n b = b := by
  simp [padTo, ← h]

/-- Padding a byte sequence that is not too long. -/
theorem padTo_short (n : Nat) (b : List Byte) (h : b.length ≤ n) :
    padTo n b = b ++ List.replicate (n - b.length) 0#8 := by
  rw [padTo, List.take_of_length_le (by simp; omega)]

@[simp] theorem padTo_padTo (n : Nat) (b : List Byte) : padTo n (padTo n b) = padTo n b :=
  padTo_eq_self n _ (padTo_length n b)

theorem slice_length (b : List Byte) (i n : Nat) (h : i + n ≤ b.length) : (slice b i n).length = n := by
  simp [slice]; omega

theorem slice_getD (b : List Byte) (i n j : Nat) :
    (slice b i n).getD j 0#8 = if j < n then b.getD (i + j) 0#8 else 0#8 := by
  simp only [slice, List.getD_eq_getElem?_getD, List.getElem?_take]
  split
  · rw [List.getElem?_drop]
  · rfl

/-- Two byte sequences of the same length are equal when they agree at every index. -/
theorem bytes_ext (a b : List Byte) (hl : a.length = b.length)
    (h : ∀ i, i < a.length → a.getD i 0#8 = b.getD i 0#8) : a = b := by
  apply List.ext_getElem hl
  intro i h1 h2
  have := h i h1
  simpa [List.getD_eq_getElem?_getD, List.getElem?_eq_getElem h1, List.getElem?_eq_getElem h2] using this

/-! ### `ceil_div` -/

theorem ceilDiv_le_iff (a b q : Nat) (hb : 0 < b) : ceilDiv a b ≤ q ↔ a ≤ q * b := by
  unfold ceilDiv
  rw [← Nat.lt_succ_iff, Nat.div_lt_iff_lt_mul hb, Nat.succ_mul]
  omega

theorem le_ceilDiv_mul (a b : Nat) (hb : 0 < b) : a ≤ ceilDiv a b * b :=
  (ceilDiv_le_iff a b _ hb).1 (Nat.le_refl _)

theorem lt_ceilDiv_iff (a b q : Nat) (hb : 0 < b) : q < ceilDiv a b ↔ q * b < a := by
  have := ceilDiv_le_iff a b q hb
  omega

@[simp] theorem ceilDiv_zero (b : Nat) (hb : 0 < b) : ceilDiv 0 b = 0 :=
  Nat.le_zero.1 ((ceilDiv_le_iff 0 b 0 hb).2 (by omega))

/-! ### The header -/

@[simp] theorem Header.bytes_length (h : Header) : h.bytes.length = 4 := rfl

@[simp] theorem Header.ofBytes_bytes (h : Header) : Header.ofBytes h.bytes = h := rfl

theorem Header.bytes_ofBytes (b : List Byte) (h : b.length = 4) : (Header.ofBytes b).bytes = b := by
  match b, h with
  | [_, _, _, _], _ => rfl

/-- Appending four bytes and reading one back. -/
theorem append4_byte (a b c d : Byte) :
    ((a ++ b ++ c ++ d).extractLsb' 0 8 = d ∧ (a ++ b ++ c ++ d).extractLsb' 8 8 = c) ∧
      (a ++ b ++ c ++ d).extractLsb' 16 8 = b ∧ (a ++ b ++ c ++ d).extractLsb' 24 8 = a := by
  refine ⟨⟨?_, ?_⟩, ?_, ?_⟩ <;>
  · apply BitVec.eq_of_getLsbD_eq
    intro i hi
    simp only [BitVec.getLsbD_extractLsb', BitVec.getLsbD_append]
    interval_cases i <;> simp

/-- A word is its four bytes. -/
theorem append4_extract (v : Word) :
    v.extractLsb' 24 8 ++ v.extractLsb' 16 8 ++ v.extractLsb' 8 8 ++ v.extractLsb' 0 8 = v := by
  apply BitVec.eq_of_getLsbD_eq
  intro i hi
  simp only [BitVec.getLsbD_append, BitVec.getLsbD_extractLsb']
  interval_cases i <;> simp

@[simp] theorem Header.unpack_pack (h : Header) : Header.unpack h.pack = h := by
  obtain ⟨a, b, c, d⟩ := h
  obtain ⟨⟨h0, h1⟩, h2, h3⟩ := append4_byte d c b a
  simp only [Header.unpack, Header.pack, Header.mk.injEq]
  exact ⟨h0, h1, h2, h3⟩

@[simp] theorem Header.pack_unpack (v : Word) : (Header.unpack v).pack = v := append4_extract v

/-! ### The 24-bit packing -/

/-- The bits of `bswap32`. -/
theorem bswap32_getLsbD (v : Word) (i : Nat) :
    (bswap32 v).getLsbD i = (decide (i < 32) && v.getLsbD (8 * (3 - i / 8) + i % 8)) := by
  by_cases hi : i < 32
  · have h : (bswap32 v).getLsbD i = (v.extractLsb' 0 8 ++ v.extractLsb' 8 8 ++ v.extractLsb' 16 8 ++
        v.extractLsb' 24 8).getLsbD i := rfl
    rw [h]
    simp only [BitVec.getLsbD_append, BitVec.getLsbD_extractLsb']
    interval_cases i <;> simp
  · simp [hi, BitVec.getLsbD_of_ge _ i (by omega : 32 ≤ i)]

/-- `pack24` exchanges the outer bytes (41_wire_codec.md R164). -/
theorem pack24_getLsbD (v : Tri) (i : Nat) (hi : i < 24) :
    (pack24 v).getLsbD i = v.getLsbD (8 * (2 - i / 8) + i % 8) := by
  simp only [pack24, BitVec.getLsbD_setWidth, BitVec.getLsbD_ushiftRight, bswap32_getLsbD]
  interval_cases i <;> simp

/-- `unpack24` exchanges the outer bytes (41_wire_codec.md R165). -/
theorem unpack24_getLsbD (p : Tri) (i : Nat) (hi : i < 24) :
    (unpack24 p).getLsbD i = p.getLsbD (8 * (2 - i / 8) + i % 8) := by
  simp only [unpack24, BitVec.getLsbD_setWidth, bswap32_getLsbD, BitVec.getLsbD_shiftLeft]
  interval_cases i <;> simp

end Sys2Proof
end

