-- ==== Sys2Proof/Laws/Decode.lean ====
section
/-! SUPPORT. The three fields of a command word made of an opcode and an immediate, and of any word. -/

namespace Sys2Proof

/-- The fields of the word `op + k × 2^16` (30_encoding.md R103). -/
theorem fields_of_word (op k : Nat) (ho : op < 256) :
    wordOp (BitVec.ofNat 32 (op + k * 2 ^ 16)) = BitVec.ofNat 8 op ∧
      wordRsv (BitVec.ofNat 32 (op + k * 2 ^ 16)) = 0 ∧
      wordImm (BitVec.ofNat 32 (op + k * 2 ^ 16)) = BitVec.ofNat 16 k := by
  refine ⟨?_, ?_, ?_⟩ <;> apply BitVec.eq_of_toNat_eq <;>
    simp [wordOp, wordRsv, wordImm, Nat.shiftRight_eq_div_pow] <;> omega

/-- The fields of a word as numbers. -/
theorem fields_toNat (w : Word) :
    (wordOp w).toNat = w.toNat % 256 ∧ (wordRsv w).toNat = w.toNat / 256 % 256 ∧
      (wordImm w).toNat = w.toNat / 65536 := by
  refine ⟨?_, ?_, ?_⟩ <;> simp [wordOp, wordRsv, wordImm, Nat.shiftRight_eq_div_pow]
  have := w.isLt
  omega

/-- A well-formed command's slot number, 0 where it has none, fits its field. -/
theorem Instr.slot_lt (i : Instr) (h : i.wf = true) : i.slotOperand.getD 0 < 65536 := by
  unfold Instr.wf at h
  split at h
  · simp_all
  · simp_all

end Sys2Proof
end

