-- ==== Sys2Proof/Laws/State.lean ====
section
/-! SUPPORT. What every field of the state is after each named update. -/

namespace Sys2Proof.Machine

@[simp] theorem State.raise_cfg (s : State) (e : ErrCode) :
    (s.raise e).cfg = s.cfg := rfl
@[simp] theorem State.raise_regs (s : State) (e : ErrCode) :
    (s.raise e).regs = s.regs := rfl
@[simp] theorem State.raise_stat (s : State) (e : ErrCode) :
    (s.raise e).stat = s.stat.raise e := rfl
@[simp] theorem State.raise_wlen (s : State) (e : ErrCode) :
    (s.raise e).wlen = s.wlen := rfl
@[simp] theorem State.raise_fs (s : State) (e : ErrCode) :
    (s.raise e).fs = s.fs := rfl
@[simp] theorem State.raise_wbuf (s : State) (e : ErrCode) :
    (s.raise e).wbuf = s.wbuf := rfl
@[simp] theorem State.raise_pmem (s : State) (e : ErrCode) :
    (s.raise e).pmem = s.pmem := rfl
@[simp] theorem State.raise_src (s : State) (e : ErrCode) :
    (s.raise e).src = s.src := rfl
@[simp] theorem State.raise_script (s : State) (e : ErrCode) :
    (s.raise e).script = s.script := rfl
@[simp] theorem State.raise_reports (s : State) (e : ErrCode) :
    (s.raise e).reports = s.reports := rfl
@[simp] theorem State.raise_freeDraws (s : State) (e : ErrCode) :
    (s.raise e).freeDraws = s.freeDraws := rfl

@[simp] theorem State.succeed_cfg (s : State) :
    s.succeed.cfg = s.cfg := rfl
@[simp] theorem State.succeed_regs (s : State) :
    s.succeed.regs = s.regs := rfl
@[simp] theorem State.succeed_stat (s : State) :
    s.succeed.stat = s.stat.succeed := rfl
@[simp] theorem State.succeed_wlen (s : State) :
    s.succeed.wlen = s.wlen := rfl
@[simp] theorem State.succeed_fs (s : State) :
    s.succeed.fs = s.fs := rfl
@[simp] theorem State.succeed_wbuf (s : State) :
    s.succeed.wbuf = s.wbuf := rfl
@[simp] theorem State.succeed_pmem (s : State) :
    s.succeed.pmem = s.pmem := rfl
@[simp] theorem State.succeed_src (s : State) :
    s.succeed.src = s.src := rfl
@[simp] theorem State.succeed_script (s : State) :
    s.succeed.script = s.script := rfl
@[simp] theorem State.succeed_reports (s : State) :
    s.succeed.reports = s.reports := rfl
@[simp] theorem State.succeed_freeDraws (s : State) :
    s.succeed.freeDraws = s.freeDraws := rfl

@[simp] theorem State.setCrcok_cfg (s : State) (b : Bool) :
    (s.setCrcok b).cfg = s.cfg := rfl
@[simp] theorem State.setCrcok_regs (s : State) (b : Bool) :
    (s.setCrcok b).regs = s.regs := rfl
@[simp] theorem State.setCrcok_stat (s : State) (b : Bool) :
    (s.setCrcok b).stat = s.stat.withCrcok b := rfl
@[simp] theorem State.setCrcok_wlen (s : State) (b : Bool) :
    (s.setCrcok b).wlen = s.wlen := rfl
@[simp] theorem State.setCrcok_fs (s : State) (b : Bool) :
    (s.setCrcok b).fs = s.fs := rfl
@[simp] theorem State.setCrcok_wbuf (s : State) (b : Bool) :
    (s.setCrcok b).wbuf = s.wbuf := rfl
@[simp] theorem State.setCrcok_pmem (s : State) (b : Bool) :
    (s.setCrcok b).pmem = s.pmem := rfl
@[simp] theorem State.setCrcok_src (s : State) (b : Bool) :
    (s.setCrcok b).src = s.src := rfl
@[simp] theorem State.setCrcok_script (s : State) (b : Bool) :
    (s.setCrcok b).script = s.script := rfl
@[simp] theorem State.setCrcok_reports (s : State) (b : Bool) :
    (s.setCrcok b).reports = s.reports := rfl
@[simp] theorem State.setCrcok_freeDraws (s : State) (b : Bool) :
    (s.setCrcok b).freeDraws = s.freeDraws := rfl

@[simp] theorem State.setLimit_cfg (s : State) (b : Bool) :
    (s.setLimit b).cfg = s.cfg := rfl
@[simp] theorem State.setLimit_regs (s : State) (b : Bool) :
    (s.setLimit b).regs = s.regs := rfl
@[simp] theorem State.setLimit_stat (s : State) (b : Bool) :
    (s.setLimit b).stat = s.stat.withLimit b := rfl
@[simp] theorem State.setLimit_wlen (s : State) (b : Bool) :
    (s.setLimit b).wlen = s.wlen := rfl
@[simp] theorem State.setLimit_fs (s : State) (b : Bool) :
    (s.setLimit b).fs = s.fs := rfl
@[simp] theorem State.setLimit_wbuf (s : State) (b : Bool) :
    (s.setLimit b).wbuf = s.wbuf := rfl
@[simp] theorem State.setLimit_pmem (s : State) (b : Bool) :
    (s.setLimit b).pmem = s.pmem := rfl
@[simp] theorem State.setLimit_src (s : State) (b : Bool) :
    (s.setLimit b).src = s.src := rfl
@[simp] theorem State.setLimit_script (s : State) (b : Bool) :
    (s.setLimit b).script = s.script := rfl
@[simp] theorem State.setLimit_reports (s : State) (b : Bool) :
    (s.setLimit b).reports = s.reports := rfl
@[simp] theorem State.setLimit_freeDraws (s : State) (b : Bool) :
    (s.setLimit b).freeDraws = s.freeDraws := rfl

@[simp] theorem State.setSlot_cfg (s : State) (k : Nat) (f : Slot) :
    (s.setSlot k f).cfg = s.cfg := rfl
@[simp] theorem State.setSlot_regs (s : State) (k : Nat) (f : Slot) :
    (s.setSlot k f).regs = s.regs := rfl
@[simp] theorem State.setSlot_stat (s : State) (k : Nat) (f : Slot) :
    (s.setSlot k f).stat = s.stat := rfl
@[simp] theorem State.setSlot_wlen (s : State) (k : Nat) (f : Slot) :
    (s.setSlot k f).wlen = s.wlen := rfl
@[simp] theorem State.setSlot_fs (s : State) (k : Nat) (f : Slot) :
    (s.setSlot k f).fs = s.fs.set k f := rfl
@[simp] theorem State.setSlot_wbuf (s : State) (k : Nat) (f : Slot) :
    (s.setSlot k f).wbuf = s.wbuf := rfl
@[simp] theorem State.setSlot_pmem (s : State) (k : Nat) (f : Slot) :
    (s.setSlot k f).pmem = s.pmem := rfl
@[simp] theorem State.setSlot_src (s : State) (k : Nat) (f : Slot) :
    (s.setSlot k f).src = s.src := rfl
@[simp] theorem State.setSlot_script (s : State) (k : Nat) (f : Slot) :
    (s.setSlot k f).script = s.script := rfl
@[simp] theorem State.setSlot_reports (s : State) (k : Nat) (f : Slot) :
    (s.setSlot k f).reports = s.reports := rfl
@[simp] theorem State.setSlot_freeDraws (s : State) (k : Nat) (f : Slot) :
    (s.setSlot k f).freeDraws = s.freeDraws := rfl

@[simp] theorem State.updateSlots_cfg (s : State) (n : Nat) (g : Nat → Slot → Slot) :
    (s.updateSlots n g).cfg = s.cfg := rfl
@[simp] theorem State.updateSlots_regs (s : State) (n : Nat) (g : Nat → Slot → Slot) :
    (s.updateSlots n g).regs = s.regs := rfl
@[simp] theorem State.updateSlots_stat (s : State) (n : Nat) (g : Nat → Slot → Slot) :
    (s.updateSlots n g).stat = s.stat := rfl
@[simp] theorem State.updateSlots_wlen (s : State) (n : Nat) (g : Nat → Slot → Slot) :
    (s.updateSlots n g).wlen = s.wlen := rfl
@[simp] theorem State.updateSlots_fs (s : State) (n : Nat) (g : Nat → Slot → Slot) :
    (s.updateSlots n g).fs = updateFirst (fun i f => g i { f with data := padTo s.cfg.fdMax f.data }) 0 n s.fs := rfl
@[simp] theorem State.updateSlots_wbuf (s : State) (n : Nat) (g : Nat → Slot → Slot) :
    (s.updateSlots n g).wbuf = s.wbuf := rfl
@[simp] theorem State.updateSlots_pmem (s : State) (n : Nat) (g : Nat → Slot → Slot) :
    (s.updateSlots n g).pmem = s.pmem := rfl
@[simp] theorem State.updateSlots_src (s : State) (n : Nat) (g : Nat → Slot → Slot) :
    (s.updateSlots n g).src = s.src := rfl
@[simp] theorem State.updateSlots_script (s : State) (n : Nat) (g : Nat → Slot → Slot) :
    (s.updateSlots n g).script = s.script := rfl
@[simp] theorem State.updateSlots_reports (s : State) (n : Nat) (g : Nat → Slot → Slot) :
    (s.updateSlots n g).reports = s.reports := rfl
@[simp] theorem State.updateSlots_freeDraws (s : State) (n : Nat) (g : Nat → Slot → Slot) :
    (s.updateSlots n g).freeDraws = s.freeDraws := rfl

@[simp] theorem State.writePmem_cfg (s : State) (a : Nat) (b : List Byte) :
    (s.writePmem a b).cfg = s.cfg := rfl
@[simp] theorem State.writePmem_regs (s : State) (a : Nat) (b : List Byte) :
    (s.writePmem a b).regs = s.regs := rfl
@[simp] theorem State.writePmem_stat (s : State) (a : Nat) (b : List Byte) :
    (s.writePmem a b).stat = s.stat := rfl
@[simp] theorem State.writePmem_wlen (s : State) (a : Nat) (b : List Byte) :
    (s.writePmem a b).wlen = s.wlen := rfl
@[simp] theorem State.writePmem_fs (s : State) (a : Nat) (b : List Byte) :
    (s.writePmem a b).fs = s.fs := rfl
@[simp] theorem State.writePmem_wbuf (s : State) (a : Nat) (b : List Byte) :
    (s.writePmem a b).wbuf = s.wbuf := rfl
@[simp] theorem State.writePmem_pmem (s : State) (a : Nat) (b : List Byte) :
    (s.writePmem a b).pmem = s.pmem.writeBytes a b := rfl
@[simp] theorem State.writePmem_src (s : State) (a : Nat) (b : List Byte) :
    (s.writePmem a b).src = s.src := rfl
@[simp] theorem State.writePmem_script (s : State) (a : Nat) (b : List Byte) :
    (s.writePmem a b).script = s.script := rfl
@[simp] theorem State.writePmem_reports (s : State) (a : Nat) (b : List Byte) :
    (s.writePmem a b).reports = s.reports := rfl
@[simp] theorem State.writePmem_freeDraws (s : State) (a : Nat) (b : List Byte) :
    (s.writePmem a b).freeDraws = s.freeDraws := rfl

@[simp] theorem State.writeWbuf_cfg (s : State) (a : Nat) (b : List Byte) :
    (s.writeWbuf a b).cfg = s.cfg := rfl
@[simp] theorem State.writeWbuf_regs (s : State) (a : Nat) (b : List Byte) :
    (s.writeWbuf a b).regs = s.regs := rfl
@[simp] theorem State.writeWbuf_stat (s : State) (a : Nat) (b : List Byte) :
    (s.writeWbuf a b).stat = s.stat := rfl
@[simp] theorem State.writeWbuf_wlen (s : State) (a : Nat) (b : List Byte) :
    (s.writeWbuf a b).wlen = s.wlen := rfl
@[simp] theorem State.writeWbuf_fs (s : State) (a : Nat) (b : List Byte) :
    (s.writeWbuf a b).fs = s.fs := rfl
@[simp] theorem State.writeWbuf_wbuf (s : State) (a : Nat) (b : List Byte) :
    (s.writeWbuf a b).wbuf = s.wbuf.writeBytes a b := rfl
@[simp] theorem State.writeWbuf_pmem (s : State) (a : Nat) (b : List Byte) :
    (s.writeWbuf a b).pmem = s.pmem := rfl
@[simp] theorem State.writeWbuf_src (s : State) (a : Nat) (b : List Byte) :
    (s.writeWbuf a b).src = s.src := rfl
@[simp] theorem State.writeWbuf_script (s : State) (a : Nat) (b : List Byte) :
    (s.writeWbuf a b).script = s.script := rfl
@[simp] theorem State.writeWbuf_reports (s : State) (a : Nat) (b : List Byte) :
    (s.writeWbuf a b).reports = s.reports := rfl
@[simp] theorem State.writeWbuf_freeDraws (s : State) (a : Nat) (b : List Byte) :
    (s.writeWbuf a b).freeDraws = s.freeDraws := rfl

@[simp] theorem State.stampSlot_cfg (s : State) (k : Nat) :
    (s.stampSlot k).cfg = s.cfg := rfl
@[simp] theorem State.stampSlot_regs (s : State) (k : Nat) :
    (s.stampSlot k).regs = s.regs := rfl
@[simp] theorem State.stampSlot_stat (s : State) (k : Nat) :
    (s.stampSlot k).stat = s.stat := rfl
@[simp] theorem State.stampSlot_wlen (s : State) (k : Nat) :
    (s.stampSlot k).wlen = s.wlen := rfl
@[simp] theorem State.stampSlot_fs (s : State) (k : Nat) :
    (s.stampSlot k).fs = s.fs.set k ((s.slot k).stamped s.cfg.crc) := rfl
@[simp] theorem State.stampSlot_wbuf (s : State) (k : Nat) :
    (s.stampSlot k).wbuf = s.wbuf := rfl
@[simp] theorem State.stampSlot_pmem (s : State) (k : Nat) :
    (s.stampSlot k).pmem = s.pmem := rfl
@[simp] theorem State.stampSlot_src (s : State) (k : Nat) :
    (s.stampSlot k).src = s.src := rfl
@[simp] theorem State.stampSlot_script (s : State) (k : Nat) :
    (s.stampSlot k).script = s.script := rfl
@[simp] theorem State.stampSlot_reports (s : State) (k : Nat) :
    (s.stampSlot k).reports = s.reports := rfl
@[simp] theorem State.stampSlot_freeDraws (s : State) (k : Nat) :
    (s.stampSlot k).freeDraws = s.freeDraws := rfl

@[simp] theorem State.resetRegs_cfg (s : State) :
    s.resetRegs.cfg = s.cfg := rfl
@[simp] theorem State.resetRegs_regs (s : State) :
    s.resetRegs.regs = .reset s.cfg := rfl
@[simp] theorem State.resetRegs_stat (s : State) :
    s.resetRegs.stat = .reset := rfl
@[simp] theorem State.resetRegs_wlen (s : State) :
    s.resetRegs.wlen = 0 := rfl
@[simp] theorem State.resetRegs_fs (s : State) :
    s.resetRegs.fs = s.fs := rfl
@[simp] theorem State.resetRegs_wbuf (s : State) :
    s.resetRegs.wbuf = s.wbuf := rfl
@[simp] theorem State.resetRegs_pmem (s : State) :
    s.resetRegs.pmem = s.pmem := rfl
@[simp] theorem State.resetRegs_src (s : State) :
    s.resetRegs.src = s.src := rfl
@[simp] theorem State.resetRegs_script (s : State) :
    s.resetRegs.script = s.script := rfl
@[simp] theorem State.resetRegs_reports (s : State) :
    s.resetRegs.reports = s.reports := rfl
@[simp] theorem State.resetRegs_freeDraws (s : State) :
    s.resetRegs.freeDraws = s.freeDraws := rfl

@[simp] theorem State.report_cfg (s : State) (v : Word) :
    (s.report v).cfg = s.cfg := rfl
@[simp] theorem State.report_regs (s : State) (v : Word) :
    (s.report v).regs = s.regs := rfl
@[simp] theorem State.report_stat (s : State) (v : Word) :
    (s.report v).stat = s.stat := rfl
@[simp] theorem State.report_wlen (s : State) (v : Word) :
    (s.report v).wlen = s.wlen := rfl
@[simp] theorem State.report_fs (s : State) (v : Word) :
    (s.report v).fs = s.fs := rfl
@[simp] theorem State.report_wbuf (s : State) (v : Word) :
    (s.report v).wbuf = s.wbuf := rfl
@[simp] theorem State.report_pmem (s : State) (v : Word) :
    (s.report v).pmem = s.pmem := rfl
@[simp] theorem State.report_src (s : State) (v : Word) :
    (s.report v).src = s.src := rfl
@[simp] theorem State.report_script (s : State) (v : Word) :
    (s.report v).script = s.script := rfl
@[simp] theorem State.report_reports (s : State) (v : Word) :
    (s.report v).reports = s.reports ++ [v] := rfl
@[simp] theorem State.report_freeDraws (s : State) (v : Word) :
    (s.report v).freeDraws = s.freeDraws := rfl

@[simp] theorem State.withCommand_cfg (s : State) (w : Word) :
    (s.withCommand w).cfg = s.cfg := rfl
@[simp] theorem State.withCommand_regs (s : State) (w : Word) :
    (s.withCommand w).regs = s.regs := rfl
@[simp] theorem State.withCommand_stat (s : State) (w : Word) :
    (s.withCommand w).stat = s.stat := rfl
@[simp] theorem State.withCommand_wlen (s : State) (w : Word) :
    (s.withCommand w).wlen = s.wlen := rfl
@[simp] theorem State.withCommand_fs (s : State) (w : Word) :
    (s.withCommand w).fs = s.fs := rfl
@[simp] theorem State.withCommand_wbuf (s : State) (w : Word) :
    (s.withCommand w).wbuf = s.wbuf := rfl
@[simp] theorem State.withCommand_pmem (s : State) (w : Word) :
    (s.withCommand w).pmem = s.pmem := rfl
@[simp] theorem State.withCommand_src (s : State) (w : Word) :
    (s.withCommand w).src = s.src := rfl
@[simp] theorem State.withCommand_script (s : State) (w : Word) :
    (s.withCommand w).script = .regWrite 16 w :: s.script := rfl
@[simp] theorem State.withCommand_reports (s : State) (w : Word) :
    (s.withCommand w).reports = s.reports := rfl
@[simp] theorem State.withCommand_freeDraws (s : State) (w : Word) :
    (s.withCommand w).freeDraws = s.freeDraws := rfl

@[simp] theorem Stat.raise_err (t : Stat) (e : ErrCode) : (t.raise e).err = e.code := rfl
@[simp] theorem Stat.raise_crcok (t : Stat) (e : ErrCode) : (t.raise e).crcok = t.crcok := rfl
@[simp] theorem Stat.raise_limit (t : Stat) (e : ErrCode) : (t.raise e).limit = t.limit := rfl
@[simp] theorem Stat.raise_sticky (t : Stat) (e : ErrCode) : (t.raise e).sticky = t.sticky ||| (1#8 <<< e.code.toNat) := rfl

@[simp] theorem Stat.succeed_err (t : Stat) : t.succeed.err = 0 := rfl
@[simp] theorem Stat.succeed_crcok (t : Stat) : t.succeed.crcok = t.crcok := rfl
@[simp] theorem Stat.succeed_limit (t : Stat) : t.succeed.limit = t.limit := rfl
@[simp] theorem Stat.succeed_sticky (t : Stat) : t.succeed.sticky = t.sticky := rfl

@[simp] theorem Stat.withCrcok_err (t : Stat) (b : Bool) : (t.withCrcok b).err = t.err := rfl
@[simp] theorem Stat.withCrcok_crcok (t : Stat) (b : Bool) : (t.withCrcok b).crcok = b := rfl
@[simp] theorem Stat.withCrcok_limit (t : Stat) (b : Bool) : (t.withCrcok b).limit = t.limit := rfl
@[simp] theorem Stat.withCrcok_sticky (t : Stat) (b : Bool) : (t.withCrcok b).sticky = t.sticky := rfl

@[simp] theorem Stat.withLimit_err (t : Stat) (b : Bool) : (t.withLimit b).err = t.err := rfl
@[simp] theorem Stat.withLimit_crcok (t : Stat) (b : Bool) : (t.withLimit b).crcok = t.crcok := rfl
@[simp] theorem Stat.withLimit_limit (t : Stat) (b : Bool) : (t.withLimit b).limit = b := rfl
@[simp] theorem Stat.withLimit_sticky (t : Stat) (b : Bool) : (t.withLimit b).sticky = t.sticky := rfl

@[simp] theorem Stat.clearErrors_err (t : Stat) : t.clearErrors.err = 0 := rfl
@[simp] theorem Stat.clearErrors_crcok (t : Stat) : t.clearErrors.crcok = t.crcok := rfl
@[simp] theorem Stat.clearErrors_limit (t : Stat) : t.clearErrors.limit = t.limit := rfl
@[simp] theorem Stat.clearErrors_sticky (t : Stat) : t.clearErrors.sticky = 0 := rfl

end Sys2Proof.Machine
end

