-- ==== Sys2Proof/Laws/Exec.lean ====
section
/-! SUPPORT. What each command can do, said once: if it answers a next state, then one of these cases
holds. The statements about commands cite these instead of unfolding the meanings. -/

namespace Sys2Proof.Machine

/-- What `execNop` does. -/
theorem execNop_cases (s t : State) (h : execNop s = .next t) :
    t = s.succeed := by
  cases h; rfl

/-- What `execClrerr` does. -/
theorem execClrerr_cases (s t : State) (h : execClrerr s = .next t) :
    t = { s with stat := s.stat.clearErrors } := by
  cases h; rfl

/-- What `execSrst` does. -/
theorem execSrst_cases (s t : State) (h : execSrst s = .next t) :
    t = s.resetRegs := by
  cases h; rfl

/-- What `execPack24` does. -/
theorem execPack24_cases (s t : State) (h : execPack24 s = .next t) :
    t = { s with regs := { s.regs with p24 := pack24 s.regs.ntotal } }.succeed := by
  cases h; rfl

/-- What `execUnpack24` does. -/
theorem execUnpack24_cases (s t : State) (h : execUnpack24 s = .next t) :
    t = { s with regs := { s.regs with ntotal := unpack24 s.regs.p24 } }.succeed := by
  cases h; rfl

/-- What `execSeqI2w` does. -/
theorem execSeqI2w_cases (s t : State) (h : execSeqI2w s = .next t) :
    t = { s with regs := { s.regs with
      nframe := indexToWire s.cfg.seqMode s.regs.id s.regs.count } }.succeed := by
  cases h; rfl

/-- What `execSeqW2i` does. -/
theorem execSeqW2i_cases (s t : State) (h : execSeqW2i s = .next t) :
    t = { s with regs := { s.regs with
      id := wireToIndex s.cfg.seqMode s.regs.nframe s.regs.count } }.succeed := by
  cases h; rfl

/-- What `execSerCtrl` does. -/
theorem execSerCtrl_cases (s t : State) (h : execSerCtrl s = .next t) :
    t = ({ State.writeWbuf { s with regs := { s.regs with
          csum := csumCtrl s.cfg.crc s.regs.ctrlFrame } } 0
      (wireCtrl { s.regs.ctrlFrame with checksum := csumCtrl s.cfg.crc s.regs.ctrlFrame }) with
        wlen := BitVec.ofNat 32 ctrlSize } : State).succeed := by
  cases h; rfl

/-- What `execCrcCalc` can do. -/
theorem execCrcCalc_cases (s t : State) (h : execCrcCalc s = .next t) :
    (s.fitsWbuf s.wlen.toNat ∧ t = { s with regs := { s.regs with
        csum := crc16 s.cfg.crc (s.readWbuf 0 s.wlen.toNat) } }.succeed) ∨
      (¬ s.fitsWbuf s.wlen.toNat ∧ t = s.raise .range) := by
  unfold execCrcCalc at h
  simp only at h
  split at h <;> cases h
  · exact .inl ⟨‹_›, rfl⟩
  · exact .inr ⟨‹_›, rfl⟩

/-- What `execCrcStamp` can do. -/
theorem execCrcStamp_cases (s t : State) (h : execCrcStamp s = .next t) :
    (s.stampable ∧ t = ({ s.writeWbuf (s.wlen.toNat - 2) (leBytes 2 s.imageCsum.toNat) with
        regs := { s.regs with csum := s.imageCsum } } : State).succeed) ∨
      (¬ s.stampable ∧ t = s.raise .range) := by
  unfold execCrcStamp at h
  split at h <;> cases h
  · exact .inl ⟨‹_›, rfl⟩
  · exact .inr ⟨‹_›, rfl⟩

/-- What `execCrcCheck` can do. -/
theorem execCrcCheck_cases (s t : State) (h : execCrcCheck s = .next t) :
    (s.stampable ∧ s.imageCsum.toNat = fromLe (s.readWbuf (s.wlen.toNat - 2) 2) ∧
        t = ({ s with regs := { s.regs with csum := s.imageCsum } }.setCrcok true).succeed) ∨
      (s.stampable ∧ s.imageCsum.toNat ≠ fromLe (s.readWbuf (s.wlen.toNat - 2) 2) ∧
        t = (s.setCrcok false).raise .csum) ∨
      (¬ s.stampable ∧ t = (s.setCrcok false).raise .range) := by
  unfold execCrcCheck at h
  simp only at h
  split at h
  · split at h <;> cases h
    · exact .inl ⟨‹_›, ‹_›, rfl⟩
    · exact .inr (.inl ⟨‹_›, ‹_›, rfl⟩)
  · cases h
    exact .inr (.inr ⟨‹_›, rfl⟩)

/-- What `execDesCtrl` can do. -/
theorem execDesCtrl_cases (s t : State) (h : execDesCtrl s = .next t) :
    (s.wlen.toNat = ctrlSize ∧ s.ctrlCsumOk ∧
        t = ({ s with
          regs := s.regs.loadCtrlFrame (parseCtrl (s.readWbuf 0 ctrlSize)) }.setCrcok true).succeed) ∨
      (s.wlen.toNat = ctrlSize ∧ ¬ s.ctrlCsumOk ∧ t = (s.setCrcok false).raise .csum) ∨
      (s.wlen.toNat ≠ ctrlSize ∧ t = (s.setCrcok false).raise .short) := by
  unfold execDesCtrl at h
  simp only at h
  split at h
  · split at h <;> cases h
    · exact .inl ⟨‹_›, ‹_›, rfl⟩
    · exact .inr (.inl ⟨‹_›, ‹_›, rfl⟩)
  · cases h
    exact .inr (.inr ⟨‹_›, rfl⟩)

/-- What `execSerData` can do. -/
theorem execSerData_cases (k : Nat) (s t : State) (h : execSerData k s = .next t) :
    (s.hasSlot k ∧ t = ({ State.writeWbuf (s.setSlot k ((s.slot k).stamped s.cfg.crc)) 0
          (wireData ((s.slot k).stamped s.cfg.crc)) with
        wlen := BitVec.ofNat 32 s.cfg.dataSize } : State).succeed) ∨
      (¬ s.hasSlot k ∧ t = s.raise .range) := by
  unfold execSerData at h
  split at h <;> cases h
  · exact .inl ⟨‹_›, rfl⟩
  · exact .inr ⟨‹_›, rfl⟩

/-- What `execDesData` can do. -/
theorem execDesData_cases (k : Nat) (s t : State) (h : execDesData k s = .next t) :
    (s.hasSlot k ∧ s.wlen.toNat = s.cfg.dataSize ∧ s.dataCsumOk ∧
        t = ((s.setSlot k (parseData s.cfg.fdMax
          (s.readWbuf 0 s.cfg.dataSize))).setCrcok true).succeed) ∨
      (s.hasSlot k ∧ s.wlen.toNat = s.cfg.dataSize ∧ ¬ s.dataCsumOk ∧
        t = (s.setCrcok false).raise .csum) ∨
      (s.hasSlot k ∧ s.wlen.toNat ≠ s.cfg.dataSize ∧ t = (s.setCrcok false).raise .short) ∨
      (¬ s.hasSlot k ∧ t = s.raise .range) := by
  unfold execDesData at h
  simp only at h
  split at h
  · split at h
    · split at h <;> cases h
      · exact .inl ⟨‹_›, ‹_›, ‹_›, rfl⟩
      · exact .inr (.inl ⟨‹_›, ‹_›, ‹_›, rfl⟩)
    · cases h
      exact .inr (.inr (.inl ⟨‹_›, ‹_›, rfl⟩))
  · cases h
    exact .inr (.inr (.inr ⟨‹_›, rfl⟩))

/-- What `execChunkBuf` can do. -/
theorem execChunkBuf_cases (s t : State) (h : execChunkBuf s = .next t) :
    (s.fitsStore s.frameCount ∧ s.fitsPmem s.regs.addr.toNat s.regs.len.toNat ∧
        t = ({ s.chunkedBuf with
          regs := { s.regs with count := BitVec.ofNat 24 s.frameCount } } : State).succeed) ∨
      (¬ (s.fitsStore s.frameCount ∧ s.fitsPmem s.regs.addr.toNat s.regs.len.toNat) ∧
        t = s.raise .range) := by
  unfold execChunkBuf at h
  simp only at h
  split at h
  · split at h <;> cases h
    · exact .inl ⟨‹_›, ‹_›, rfl⟩
    · exact .inr ⟨fun hh => absurd hh.2 ‹_›, rfl⟩
  · cases h
    exact .inr ⟨fun hh => absurd hh.1 ‹_›, rfl⟩

/-- What `execChunkSrc` can do. -/
theorem execChunkSrc_cases (s t : State) (h : execChunkSrc s = .next t) :
    (s.fitsStore s.frameCount ∧ ∃ done src, s.pullRun = .failed done src ∧
        t = { s with src := src }.srcFailed done) ∨
      (s.fitsStore s.frameCount ∧ ∃ ended src, s.pullRun = .finished [] ended src ∧
        t = { s with src := src }.raise .srcExhausted) ∨
      (s.fitsStore s.frameCount ∧ ∃ chunks ended src, s.pullRun = .finished chunks ended src ∧
        chunks ≠ [] ∧ t = { s with src := src }.frameChunks chunks ended) ∨
      (¬ s.fitsStore s.frameCount ∧ t = s.raise .range) := by
  unfold execChunkSrc at h
  simp only at h
  split at h
  · cases hr : s.pullRun with
    | failed done src =>
      unfold State.pullRun State.frameCount at hr
      rw [hr] at h
      cases h
      exact .inl ⟨‹_›, done, src, rfl, rfl⟩
    | finished chunks ended src =>
      unfold State.pullRun State.frameCount at hr
      rw [hr] at h
      simp only at h
      split at h <;> cases h
      · rename_i hc
        subst hc
        exact .inr (.inl ⟨‹_›, ended, src, rfl, rfl⟩)
      · exact .inr (.inr (.inl ⟨‹_›, chunks, ended, src, rfl, ‹_›, rfl⟩))
  · cases h
    exact .inr (.inr (.inr ⟨‹_›, rfl⟩))

/-- What `execTotlen` can do. -/
theorem execTotlen_cases (s t : State) (h : execTotlen s = .next t) :
    (s.fitsStore s.countOperand ∧ t = { s with regs := { s.regs with
        len := BitVec.ofNat 32 (sumDataLen (s.frameSet s.countOperand)) } }.succeed) ∨
      (¬ s.fitsStore s.countOperand ∧ t = s.raise .range) := by
  unfold execTotlen at h
  simp only at h
  split at h <;> cases h
  · exact .inl ⟨‹_›, rfl⟩
  · exact .inr ⟨‹_›, rfl⟩

/-- What `execReasm` can do. -/
theorem execReasm_cases (s t : State) (h : execReasm s = .next t) :
    (s.reassemblable ∧ t = ({ s.writePmem s.regs.addr.toNat (payloadOf (s.frameSet s.countOperand)) with
        regs := { s.regs with
          len := BitVec.ofNat 32 (sumDataLen (s.frameSet s.countOperand)) } } : State).succeed) ∨
      (¬ s.reassemblable ∧ t = s.raise .range) := by
  unfold execReasm at h
  simp only at h
  split at h
  · split at h
    · split at h <;> cases h
      · exact .inl ⟨⟨‹_›, ‹_›, ‹_›⟩, rfl⟩
      · exact .inr ⟨fun hh => absurd hh.2.2 ‹_›, rfl⟩
    · cases h
      exact .inr ⟨fun hh => absurd hh.2.1 ‹_›, rfl⟩
  · cases h
    exact .inr ⟨fun hh => absurd hh.1 ‹_›, rfl⟩

/-- What `execInit` can do. -/
theorem execInit_cases (s t : State) (h : execInit s = .next t) :
    (s.fitsStore s.countOperand ∧
        t = (s.updateSlots s.countOperand (Slot.initialised s.cfg s.regs s.countOperand)).succeed) ∨
      (¬ s.fitsStore s.countOperand ∧ t = s.raise .range) := by
  unfold execInit at h
  simp only at h
  split at h <;> cases h
  · exact .inl ⟨‹_›, rfl⟩
  · exact .inr ⟨‹_›, rfl⟩

/-- What `execStamp` can do. -/
theorem execStamp_cases (k : Nat) (s t : State) (h : execStamp k s = .next t) :
    (s.hasSlot k ∧ t = (s.stampSlot k).succeed) ∨ (¬ s.hasSlot k ∧ t = s.raise .range) := by
  unfold execStamp at h
  split at h <;> cases h
  · exact .inl ⟨‹_›, rfl⟩
  · exact .inr ⟨‹_›, rfl⟩

/-- What `execStampAll` can do. -/
theorem execStampAll_cases (s t : State) (h : execStampAll s = .next t) :
    (s.fitsStore s.countOperand ∧
        t = (s.updateSlots s.countOperand (fun _ f => f.stamped s.cfg.crc)).succeed) ∨
      (¬ s.fitsStore s.countOperand ∧ t = s.raise .range) := by
  unfold execStampAll at h
  simp only at h
  split at h <;> cases h
  · exact .inl ⟨‹_›, rfl⟩
  · exact .inr ⟨‹_›, rfl⟩

/-- What `execFget` can do. -/
theorem execFget_cases (k : Nat) (s t : State) (h : execFget k s = .next t) :
    (s.hasSlot k ∧ t = { s with regs := s.regs.loadSlot (s.slot k) }.succeed) ∨
      (¬ s.hasSlot k ∧ t = s.raise .range) := by
  unfold execFget at h
  split at h <;> cases h
  · exact .inl ⟨‹_›, rfl⟩
  · exact .inr ⟨‹_›, rfl⟩

/-- What `execFput` can do. -/
theorem execFput_cases (k : Nat) (s t : State) (h : execFput k s = .next t) :
    (s.hasSlot k ∧ t = (s.setSlot k (s.regs.stageInto (s.slot k))).succeed) ∨
      (¬ s.hasSlot k ∧ t = s.raise .range) := by
  unfold execFput at h
  split at h <;> cases h
  · exact .inl ⟨‹_›, rfl⟩
  · exact .inr ⟨‹_›, rfl⟩

/-- What `execDget` can do. -/
theorem execDget_cases (k : Nat) (s t : State) (h : execDget k s = .next t) :
    (s.windowOk k ∧ t = (s.writePmem s.regs.addr.toNat (s.slot k).data).succeed) ∨
      (¬ s.windowOk k ∧ t = s.raise .range) := by
  unfold execDget at h
  simp only at h
  split at h
  · split at h <;> cases h
    · exact .inl ⟨⟨‹_›, ‹_›⟩, rfl⟩
    · exact .inr ⟨fun hh => absurd hh.2 ‹_›, rfl⟩
  · cases h
    exact .inr ⟨fun hh => absurd hh.1 ‹_›, rfl⟩

/-- What `execDput` can do. -/
theorem execDput_cases (k : Nat) (s t : State) (h : execDput k s = .next t) :
    (s.windowOk k ∧ t = (s.setSlot k { s.slot k with
        data := s.readPmem s.regs.addr.toNat s.cfg.fdMax }).succeed) ∨
      (¬ s.windowOk k ∧ t = s.raise .range) := by
  unfold execDput at h
  simp only at h
  split at h
  · split at h <;> cases h
    · exact .inl ⟨⟨‹_›, ‹_›⟩, rfl⟩
    · exact .inr ⟨fun hh => absurd hh.2 ‹_›, rfl⟩
  · cases h
    exact .inr ⟨fun hh => absurd hh.1 ‹_›, rfl⟩

end Sys2Proof.Machine
end

