-- ==== Sys2Proof/Laws/Host.lean ====
section
/-! SUPPORT. What a step and a host action can do, said once, and what no command changes. -/

namespace Sys2Proof.Machine

/-- What a step can do: idle on an empty script, or carry out the host's next action. -/
theorem step_cases (s t : State) (h : step s = .next t) :
    s.cfg.Valid ∧ ((s.script = [] ∧ t = s) ∨
      ∃ a rest, s.script = a :: rest ∧ perform { s with script := rest } a = .next t) := by
  unfold step nextAction at h
  split at h
  · refine ⟨‹_›, ?_⟩
    split at h
    · cases h
      exact .inl ⟨‹_›, rfl⟩
    · exact .inr ⟨_, _, ‹_›, h⟩
  · cases h

/-- What a write to a register other than CMD can do: it changes operand registers or WLEN only. -/
theorem State.writeReg_cases (s t : State) (v : Word) (r : RegName) (hr : r ≠ .CMD)
    (h : s.writeReg v r = .next t) : t = { s with regs := t.regs, wlen := t.wlen } := by
  cases r <;> simp only [writeReg] at h <;> first | exact absurd rfl hr | (cases h; rfl)

/-- What the write of a command word can do: run the decoded command, or raise ILLEGAL. -/
theorem State.runCommand_cases (s : State) (w : Word) (t : State) (h : s.runCommand w = .next t) :
    (∃ i, decode w = .ok i ∧ exec i s = .next t) ∨ ((∃ e, decode w = .error e) ∧ t = s.raise .illegal) := by
  unfold runCommand at h
  split at h
  · exact .inl ⟨_, ‹_›, h⟩
  · cases h
    exact .inr ⟨⟨_, ‹_›⟩, rfl⟩

/-- What a host action can do. -/
theorem perform_cases (s t : State) (a : HostAction) (h : perform s a = .next t) :
    (∃ n, a = .regRead n ∧ n < 32 ∧ t = s.report (s.regRead n)) ∨
    (∃ w, a = .regWrite 16 w ∧ s.runCommand w = .next t) ∨
    (∃ n v, a = .regWrite n v ∧ n < 32 ∧ n ≠ 16 ∧ t = { s with regs := t.regs, wlen := t.wlen }) ∨
    (∃ x, a = .pmemRead x ∧ x < s.cfg.pmemSize ∧ t = s.report ((s.pmem.read x).setWidth 32)) ∨
    (∃ x b, a = .pmemWrite x b ∧ x < s.cfg.pmemSize ∧ t = s.writePmem x [b]) ∨
    (∃ x, a = .wbufRead x ∧ x < s.cfg.wbufSize ∧ t = s.report ((s.wbuf.read x).setWidth 32)) ∨
    (∃ x b, a = .wbufWrite x b ∧ x < s.cfg.wbufSize ∧ t = s.writeWbuf x [b]) ∨
    (∃ c, a = .reset c ∧ t = s.resetTo c) := by
  cases a with
  | regRead n =>
    simp only [perform] at h
    split at h <;> cases h
    exact .inl ⟨n, rfl, ‹_›, rfl⟩
  | regWrite n v =>
    simp only [perform] at h
    split at h
    · by_cases hn : n = 16
      · subst hn
        exact .inr (.inl ⟨v, rfl, h⟩)
      · refine .inr (.inr (.inl ⟨n, v, rfl, ‹_›, hn, ?_⟩))
        unfold State.regWrite at h
        split at h
        · rename_i r hr
          refine s.writeReg_cases t v r ?_ h
          rintro rfl
          unfold regOfNumber at hr
          split at hr <;> first | exact hn rfl | exact absurd hr (by simp)
        · cases h
          rfl
    · cases h
  | pmemRead x =>
    simp only [perform] at h
    split at h <;> cases h
    exact .inr (.inr (.inr (.inl ⟨x, rfl, ‹_›, rfl⟩)))
  | pmemWrite x b =>
    simp only [perform] at h
    split at h <;> cases h
    exact .inr (.inr (.inr (.inr (.inl ⟨x, b, rfl, ‹_›, rfl⟩))))
  | wbufRead x =>
    simp only [perform] at h
    split at h <;> cases h
    exact .inr (.inr (.inr (.inr (.inr (.inl ⟨x, rfl, ‹_›, rfl⟩)))))
  | wbufWrite x b =>
    simp only [perform] at h
    split at h <;> cases h
    exact .inr (.inr (.inr (.inr (.inr (.inr (.inl ⟨x, b, rfl, ‹_›, rfl⟩))))))
  | reset c =>
    cases h
    exact .inr (.inr (.inr (.inr (.inr (.inr (.inr ⟨c, rfl, rfl⟩))))))

/-- What no command changes: the configuration, the host's script and its reports. -/
theorem exec_keeps (i : Instr) (s t : State) (h : exec i s = .next t) :
    t.cfg = s.cfg ∧ t.script = s.script ∧ t.reports = s.reports := by
  cases i with
  | nop => rw [execNop_cases s t h]; exact ⟨rfl, rfl, rfl⟩
  | clrerr => rw [execClrerr_cases s t h]; exact ⟨rfl, rfl, rfl⟩
  | srst => rw [execSrst_cases s t h]; exact ⟨rfl, rfl, rfl⟩
  | crcCalc => rcases execCrcCalc_cases s t h with ⟨-, rfl⟩ | ⟨-, rfl⟩ <;> exact ⟨rfl, rfl, rfl⟩
  | crcStamp => rcases execCrcStamp_cases s t h with ⟨-, rfl⟩ | ⟨-, rfl⟩ <;> exact ⟨rfl, rfl, rfl⟩
  | crcCheck =>
    rcases execCrcCheck_cases s t h with ⟨-, -, rfl⟩ | ⟨-, -, rfl⟩ | ⟨-, rfl⟩ <;> exact ⟨rfl, rfl, rfl⟩
  | serCtrl => rw [execSerCtrl_cases s t h]; exact ⟨rfl, rfl, rfl⟩
  | desCtrl =>
    rcases execDesCtrl_cases s t h with ⟨-, -, rfl⟩ | ⟨-, -, rfl⟩ | ⟨-, rfl⟩ <;> exact ⟨rfl, rfl, rfl⟩
  | serData k => rcases execSerData_cases k s t h with ⟨-, rfl⟩ | ⟨-, rfl⟩ <;> exact ⟨rfl, rfl, rfl⟩
  | desData k =>
    rcases execDesData_cases k s t h with ⟨-, -, -, rfl⟩ | ⟨-, -, -, rfl⟩ | ⟨-, -, rfl⟩ | ⟨-, rfl⟩ <;>
      exact ⟨rfl, rfl, rfl⟩
  | pack24 => rw [execPack24_cases s t h]; exact ⟨rfl, rfl, rfl⟩
  | unpack24 => rw [execUnpack24_cases s t h]; exact ⟨rfl, rfl, rfl⟩
  | seqI2w => rw [execSeqI2w_cases s t h]; exact ⟨rfl, rfl, rfl⟩
  | seqW2i => rw [execSeqW2i_cases s t h]; exact ⟨rfl, rfl, rfl⟩
  | chunkBuf => rcases execChunkBuf_cases s t h with ⟨-, -, rfl⟩ | ⟨-, rfl⟩ <;> exact ⟨rfl, rfl, rfl⟩
  | chunkSrc =>
    rcases execChunkSrc_cases s t h with ⟨-, _, _, -, rfl⟩ | ⟨-, _, _, -, rfl⟩ | ⟨-, _, _, _, -, -, rfl⟩ |
      ⟨-, rfl⟩ <;> exact ⟨rfl, rfl, rfl⟩
  | totlen => rcases execTotlen_cases s t h with ⟨-, rfl⟩ | ⟨-, rfl⟩ <;> exact ⟨rfl, rfl, rfl⟩
  | reasm => rcases execReasm_cases s t h with ⟨-, rfl⟩ | ⟨-, rfl⟩ <;> exact ⟨rfl, rfl, rfl⟩
  | init => rcases execInit_cases s t h with ⟨-, rfl⟩ | ⟨-, rfl⟩ <;> exact ⟨rfl, rfl, rfl⟩
  | stamp k => rcases execStamp_cases k s t h with ⟨-, rfl⟩ | ⟨-, rfl⟩ <;> exact ⟨rfl, rfl, rfl⟩
  | stampAll => rcases execStampAll_cases s t h with ⟨-, rfl⟩ | ⟨-, rfl⟩ <;> exact ⟨rfl, rfl, rfl⟩
  | fget k => rcases execFget_cases k s t h with ⟨-, rfl⟩ | ⟨-, rfl⟩ <;> exact ⟨rfl, rfl, rfl⟩
  | fput k => rcases execFput_cases k s t h with ⟨-, rfl⟩ | ⟨-, rfl⟩ <;> exact ⟨rfl, rfl, rfl⟩
  | dget k => rcases execDget_cases k s t h with ⟨-, rfl⟩ | ⟨-, rfl⟩ <;> exact ⟨rfl, rfl, rfl⟩
  | dput k => rcases execDput_cases k s t h with ⟨-, rfl⟩ | ⟨-, rfl⟩ <;> exact ⟨rfl, rfl, rfl⟩

end Sys2Proof.Machine
end

