-- ==== Sys2Proof/Laws/Memory.lean ====
section
/-! SUPPORT. Laws of byte memories: reading after a write, and that every operation keeps the canonical
form and the address space. -/

namespace Sys2Proof.Machine

@[simp] theorem Memory.read_nil (a : Nat) : Memory.read [] a = 0#8 := rfl

theorem Memory.read_insertCell (m : Memory) (a x : Nat) (b : Byte) (h : ∀ c ∈ m, c.1 ≠ a) :
    (Memory.insertCell m a b).read x = if x = a then b else m.read x := by
  induction m with
  | nil => simp only [insertCell, read]; split <;> split <;> first | rfl | omega
  | cons c m ih =>
    obtain ⟨c, d⟩ := c
    have hc : c ≠ a := h (c, d) (by simp)
    have ih := ih (fun e he => h e (by simp [he]))
    by_cases hac : a < c
    · simp only [insertCell, if_pos hac, read]
      by_cases hx : x = a
      · simp [hx]
      · simp [hx, Ne.symm hx]
    · simp only [insertCell, if_neg hac, read]
      by_cases hx : c = x
      · simp only [if_pos hx]
        rw [if_neg (by omega)]
      · simp only [if_neg hx, ih]

theorem Memory.read_erase (m : Memory) (a x : Nat) :
    (Memory.read (m.filter (fun c => c.1 ≠ a)) x) = if x = a then 0#8 else m.read x := by
  induction m with
  | nil => simp
  | cons c m ih =>
    obtain ⟨c, d⟩ := c
    by_cases hc : c = a
    · subst hc
      rw [List.filter_cons_of_neg (by simp), ih]
      by_cases hx : x = c
      · simp [hx]
      · simp [hx, read, Ne.symm hx]
    · rw [List.filter_cons_of_pos (by simp [hc])]
      simp only [read, ih]
      by_cases hx : c = x
      · simp [hx ▸ hc, hx]
      · simp [hx]

/-- Reading after a write: the byte written at its address, every other address as before. -/
theorem Memory.read_write (m : Memory) (a x : Nat) (b : Byte) :
    (m.write a b).read x = if x = a then b else m.read x := by
  unfold write
  have he : ∀ c ∈ m.filter (fun c => decide (c.1 ≠ a)), c.1 ≠ a := by
    intro c hc
    simpa using (List.mem_filter.1 hc).2
  simp only
  split
  · rename_i hb
    rw [read_erase, hb]
    rfl
  · rw [read_insertCell _ _ _ _ he, read_erase]
    by_cases hx : x = a <;> simp [hx]

@[simp] theorem Memory.readBytes_length (m : Memory) (a n : Nat) : (m.readBytes a n).length = n := by
  induction n generalizing a with
  | zero => rfl
  | succ n ih => simp [readBytes, ih]

theorem Memory.readBytes_getD (m : Memory) (a n i : Nat) :
    (m.readBytes a n).getD i 0#8 = if i < n then m.read (a + i) else 0#8 := by
  induction n generalizing a i with
  | zero => simp [readBytes]
  | succ n ih =>
    cases i with
    | zero => simp [readBytes]
    | succ i =>
      rw [readBytes, List.getD_cons_succ, ih, Nat.add_right_comm, Nat.add_assoc]
      by_cases h : i < n <;> simp [h]

/-- Reading after a block write: the bytes written in their range, every other address as before. -/
theorem Memory.read_writeBytes (m : Memory) (a x : Nat) (b : List Byte) :
    (m.writeBytes a b).read x =
      if a ≤ x ∧ x < a + b.length then b.getD (x - a) 0#8 else m.read x := by
  induction b generalizing m a with
  | nil => simp [writeBytes]
  | cons y b ih =>
    rw [writeBytes, ih, read_write]
    by_cases hx : x = a
    · subst hx
      simp
    · by_cases hin : a + 1 ≤ x ∧ x < a + 1 + b.length
      · have : x - a = (x - (a + 1)) + 1 := by omega
        rw [if_pos hin, if_pos (by simp only [List.length_cons]; omega), this, List.getD_cons_succ]
      · rw [if_neg hin, if_neg hx, if_neg (by simp only [List.length_cons]; omega)]

/-- Two reads of the same bytes are the same block. -/
theorem Memory.readBytes_congr (m m' : Memory) (a a' n : Nat)
    (h : ∀ i, i < n → m.read (a + i) = m'.read (a' + i)) : m.readBytes a n = m'.readBytes a' n := by
  apply bytes_ext
  · simp
  · intro i hi
    rw [readBytes_length] at hi
    simp only [readBytes_getD, if_pos hi, h i hi]

/-- Reading back a block that has just been written. -/
theorem Memory.readBytes_writeBytes (m : Memory) (a : Nat) (b : List Byte) :
    (m.writeBytes a b).readBytes a b.length = b := by
  apply bytes_ext
  · simp
  · intro i hi
    rw [readBytes_length] at hi
    rw [readBytes_getD, if_pos hi, read_writeBytes, if_pos (by omega)]
    congr 1
    omega

/-! ### The canonical form -/

theorem Memory.wfFrom_mono (m : Memory) (lo lo' : Nat) (h : lo' ≤ lo) (hm : m.wfFrom lo = true) :
    m.wfFrom lo' = true := by
  cases m with
  | nil => rfl
  | cons c m =>
    simp only [wfFrom, Bool.and_eq_true, decide_eq_true_eq] at hm ⊢
    exact ⟨⟨by omega, hm.1.2⟩, hm.2⟩

theorem Memory.wfFrom_erase (m : Memory) (a lo : Nat) (hm : m.wfFrom lo = true) :
    Memory.wfFrom lo (m.filter (fun c => c.1 ≠ a)) = true := by
  induction m generalizing lo with
  | nil => rfl
  | cons c m ih =>
    simp only [wfFrom, Bool.and_eq_true, decide_eq_true_eq] at hm
    by_cases hc : c.1 = a
    · rw [List.filter_cons_of_neg (by simp [hc])]
      exact wfFrom_mono _ _ _ (by omega) (ih _ hm.2)
    · rw [List.filter_cons_of_pos (by simp [hc])]
      simp only [wfFrom, Bool.and_eq_true, decide_eq_true_eq]
      exact ⟨hm.1, ih _ hm.2⟩

theorem Memory.wfFrom_insertCell (m : Memory) (a lo : Nat) (b : Byte) (hb : b ≠ Memory.unlisted)
    (hlo : lo ≤ a) (hm : m.wfFrom lo = true) (h : ∀ c ∈ m, c.1 ≠ a) :
    (Memory.insertCell m a b).wfFrom lo = true := by
  induction m generalizing lo with
  | nil => simp [insertCell, wfFrom, hb, hlo]
  | cons c m ih =>
    obtain ⟨c, d⟩ := c
    simp only [wfFrom, Bool.and_eq_true, decide_eq_true_eq] at hm
    have hc : c ≠ a := h (c, d) (by simp)
    by_cases hac : a < c
    · simp only [insertCell, if_pos hac, wfFrom, Bool.and_eq_true, decide_eq_true_eq]
      exact ⟨⟨hlo, hb⟩, ⟨by omega, hm.1.2⟩, hm.2⟩
    · simp only [insertCell, if_neg hac, wfFrom, Bool.and_eq_true, decide_eq_true_eq]
      exact ⟨hm.1, ih _ (by omega) hm.2 (fun e he => h e (by simp [he]))⟩

/-- A write keeps the canonical form. -/
theorem Memory.wf_write (m : Memory) (a : Nat) (b : Byte) (hm : m.wf = true) :
    (m.write a b).wf = true := by
  unfold write
  simp only
  split
  · exact wfFrom_erase _ _ _ hm
  · rename_i hb
    refine wfFrom_insertCell _ _ _ _ hb (Nat.zero_le _) (wfFrom_erase _ _ _ hm) ?_
    intro c hc
    simpa using (List.mem_filter.1 hc).2

/-- A block write keeps the canonical form. -/
theorem Memory.wf_writeBytes (m : Memory) (a : Nat) (b : List Byte) (hm : m.wf = true) :
    (m.writeBytes a b).wf = true := by
  induction b generalizing m a with
  | nil => exact hm
  | cons y b ih => exact ih _ _ (wf_write _ _ _ hm)

theorem Memory.mem_insertCell (m : Memory) (a : Nat) (b : Byte) (c : Host.Cell)
    (h : c ∈ Memory.insertCell m a b) : c = (a, b) ∨ c ∈ m := by
  induction m with
  | nil => simpa [insertCell] using h
  | cons d m ih =>
    simp only [insertCell] at h
    split at h
    · simpa using h
    · rcases List.mem_cons.1 h with h | h
      · exact .inr (by simp [h])
      · rcases ih h with h | h
        · exact .inl h
        · exact .inr (by simp [h])

/-- A write inside the address space keeps every listed address inside it. -/
theorem Memory.inside_write (m : Memory) (a size : Nat) (b : Byte) (hm : m.inside size = true)
    (ha : a < size) : (m.write a b).inside size = true := by
  simp only [inside, List.all_eq_true, decide_eq_true_eq] at hm ⊢
  intro c hc
  unfold write at hc
  simp only at hc
  split at hc
  · exact hm c (List.mem_filter.1 hc).1
  · rcases mem_insertCell _ _ _ _ hc with h | h
    · rw [h]; exact ha
    · exact hm c (List.mem_filter.1 h).1

/-- A block write inside the address space keeps every listed address inside it. -/
theorem Memory.inside_writeBytes (m : Memory) (a size : Nat) (b : List Byte)
    (hm : m.inside size = true) (ha : a + b.length ≤ size) : (m.writeBytes a b).inside size = true := by
  induction b generalizing m a with
  | nil => exact hm
  | cons y b ih =>
    simp only [List.length_cons] at ha
    exact ih _ _ (inside_write _ _ _ _ hm (by omega)) (by omega)

/-- Canonical memories that read alike are the same data. -/
theorem Memory.ext_of_read (m m' : Memory) (lo : Nat) (hm : m.wfFrom lo = true)
    (hm' : m'.wfFrom lo = true) (h : ∀ a, m.read a = m'.read a) : m = m' := by
  have low : ∀ (l : Memory) (lo a : Nat), l.wfFrom lo = true → a < lo → l.read a = 0#8 := by
    intro l
    induction l with
    | nil => intros; rfl
    | cons c l ih =>
      intro lo a hl ha
      simp only [wfFrom, Bool.and_eq_true, decide_eq_true_eq] at hl
      rw [read, if_neg (by omega)]
      exact ih _ _ hl.2 (by omega)
  induction m generalizing m' lo with
  | nil =>
    cases m' with
    | nil => rfl
    | cons c m' =>
      simp only [wfFrom, Bool.and_eq_true, decide_eq_true_eq] at hm'
      have := h c.1
      simp only [read, if_true] at this
      exact absurd this.symm hm'.1.2
  | cons c m ih =>
    obtain ⟨c, d⟩ := c
    simp only [wfFrom, Bool.and_eq_true, decide_eq_true_eq] at hm
    cases m' with
    | nil =>
      have := h c
      simp only [read, if_true] at this
      exact absurd this hm.1.2
    | cons c' m' =>
      obtain ⟨c', d'⟩ := c'
      simp only [wfFrom, Bool.and_eq_true, decide_eq_true_eq] at hm'
      have hcc : c = c' := by
        rcases Nat.lt_trichotomy c c' with hlt | heq | hlt
        · have := h c
          simp only [read, if_true] at this
          rw [if_neg (by omega), low m' _ c hm'.2 (by omega)] at this
          exact absurd this hm.1.2
        · exact heq
        · have := h c'
          simp only [read, if_true] at this
          rw [if_neg (by omega), low m _ c' hm.2 (by omega)] at this
          exact absurd this.symm hm'.1.2
      subst hcc
      have hd : d = d' := by simpa [read] using h c
      subst hd
      congr 1
      refine ih _ (c + 1) hm.2 hm'.2 (fun a => ?_)
      by_cases ha : a < c + 1
      · rw [low m _ a hm.2 ha, low m' _ a hm'.2 ha]
      · have := h a
        simpa [read, show ¬ c = a by omega] using this

end Sys2Proof.Machine
end

