-- ==== Sys2Proof/Laws/PerInstr.lean ====
section
/-! SUPPORT. For every command: the three fields of its command word (30_encoding.md R90, R91, R103). -/

namespace Sys2Proof.Laws.EncodedFields

/-- The encoded word of a well-formed command has the command's opcode in bits 7:0, zeros in bits 15:8, and
in bits 31:16 its slot number, or zeros where it has none. -/
def Statement (i : Instr) : Prop :=
  i.wf = true → wordOp (encode i) = i.opcode ∧ wordRsv (encode i) = 0 ∧
    (wordImm (encode i)).toNat = i.slotOperand.getD 0

/-- Every command's fields, from the fields of the word it is made of. -/
theorem of_fields (i : Instr) : Statement i := by
  intro h
  have hk := i.slot_lt h
  obtain ⟨h1, h2, h3⟩ := fields_of_word i.opcode.toNat (i.slotOperand.getD 0) i.opcode.isLt
  exact ⟨by rw [encode, h1]; simp, h2, by
    rw [encode, h3, BitVec.toNat_ofNat]
    exact Nat.mod_eq_of_lt hk⟩

theorem nop : Statement (.nop) := of_fields _
theorem clrerr : Statement (.clrerr) := of_fields _
theorem srst : Statement (.srst) := of_fields _
theorem crcCalc : Statement (.crcCalc) := of_fields _
theorem crcStamp : Statement (.crcStamp) := of_fields _
theorem crcCheck : Statement (.crcCheck) := of_fields _
theorem serCtrl : Statement (.serCtrl) := of_fields _
theorem desCtrl : Statement (.desCtrl) := of_fields _
theorem serData (k : Nat) : Statement (.serData k) := of_fields _
theorem desData (k : Nat) : Statement (.desData k) := of_fields _
theorem pack24 : Statement (.pack24) := of_fields _
theorem unpack24 : Statement (.unpack24) := of_fields _
theorem seqI2w : Statement (.seqI2w) := of_fields _
theorem seqW2i : Statement (.seqW2i) := of_fields _
theorem chunkBuf : Statement (.chunkBuf) := of_fields _
theorem chunkSrc : Statement (.chunkSrc) := of_fields _
theorem totlen : Statement (.totlen) := of_fields _
theorem reasm : Statement (.reasm) := of_fields _
theorem init : Statement (.init) := of_fields _
theorem stamp (k : Nat) : Statement (.stamp k) := of_fields _
theorem stampAll : Statement (.stampAll) := of_fields _
theorem fget (k : Nat) : Statement (.fget k) := of_fields _
theorem fput (k : Nat) : Statement (.fput k) := of_fields _
theorem dget (k : Nat) : Statement (.dget k) := of_fields _
theorem dput (k : Nat) : Statement (.dput k) := of_fields _

end Sys2Proof.Laws.EncodedFields
end

