-- ==== Sys2Proof/Laws/Slots.lean ====
section
/-! SUPPORT. Laws of the frame store: reading a slot after `setSlot` and `updateSlots`, and that both
keep the store's shape. -/

namespace Sys2Proof.Machine

@[simp] theorem updateFirst_length (g : Nat → Slot → Slot) (i n : Nat) (l : List Slot) :
    (updateFirst g i n l).length = l.length := by
  induction l generalizing i n with
  | nil => cases n <;> rfl
  | cons f l ih => cases n <;> simp [updateFirst, ih]

theorem updateFirst_getElem? (g : Nat → Slot → Slot) (i n : Nat) (l : List Slot) (j : Nat) :
    (updateFirst g i n l)[j]? = l[j]?.map (fun f => if j < n then g (i + j) f else f) := by
  induction l generalizing i n j with
  | nil => cases n <;> rfl
  | cons f l ih =>
    cases n with
    | zero => simp [updateFirst]
    | succ n =>
      cases j with
      | zero => simp [updateFirst]
      | succ j =>
        simp only [updateFirst, List.getElem?_cons_succ, ih, Nat.succ_lt_succ_iff]
        rw [Nat.add_right_comm, Nat.add_assoc i j 1]

@[simp] theorem State.slot_data_length (s : State) (k : Nat) :
    (s.slot k).data.length = s.cfg.fdMax := by
  simp [slot]

/-- Where the store has its shape a slot is the list's element. -/
theorem State.slot_eq_getD (s : State) (h : s.StoreWf) (k : Nat) :
    s.slot k = s.fs.getD k (.blank s.cfg.fdMax) := by
  have hd : (s.fs.getD k (.blank s.cfg.fdMax)).data.length = s.cfg.fdMax := by
    rw [List.getD_eq_getElem?_getD]
    cases hk : s.fs[k]? with
    | none => simp [Slot.blank]
    | some f => exact h.2 f (List.mem_of_getElem? hk)
  simp only [slot, padTo_eq_self _ _ hd]

/-- Two states with the same store and configuration hold the same slots. -/
theorem State.slot_congr (s t : State) (hc : t.cfg = s.cfg) (hf : t.fs = s.fs) (k : Nat) :
    t.slot k = s.slot k := by
  simp only [slot, hc, hf]

/-- Reading a slot after one has been written. -/
theorem State.slot_setSlot (s : State) (k j : Nat) (f : Slot) :
    (s.setSlot k f).slot j =
      if j = k ∧ k < s.fs.length then { f with data := padTo s.cfg.fdMax f.data } else s.slot j := by
  simp only [slot, setSlot, List.getD_eq_getElem?_getD, List.getElem?_set]
  by_cases h : k = j
  · subst h
    by_cases hk : k < s.fs.length
    · simp [hk]
    · simp [hk]
  · simp [h, Ne.symm h]

/-- Reading a slot after the first `n` have been updated. -/
theorem State.slot_updateSlots (s : State) (n j : Nat) (g : Nat → Slot → Slot) :
    (s.updateSlots n g).slot j =
      if j < n ∧ j < s.fs.length then
        { g j (s.slot j) with data := padTo s.cfg.fdMax (g j (s.slot j)).data }
      else s.slot j := by
  simp only [slot, updateSlots, List.getD_eq_getElem?_getD, updateFirst_getElem?, Nat.zero_add]
  by_cases hj : j < s.fs.length
  · rw [List.getElem?_eq_getElem hj]
    by_cases hn : j < n <;> simp [hn, hj]
  · rw [List.getElem?_eq_none (Nat.le_of_not_lt hj)]
    simp [hj]

/-- The slot that has been written, where it exists and the written `data` has `F` bytes. -/
theorem State.slot_setSlot_self (s : State) (k : Nat) (f : Slot) (h : s.StoreWf) (hk : s.hasSlot k)
    (hf : f.data.length = s.cfg.fdMax) : (s.setSlot k f).slot k = f := by
  rw [slot_setSlot, if_pos ⟨rfl, by rw [h.1]; exact hk⟩, padTo_eq_self _ _ hf]

/-- Every other slot. -/
theorem State.slot_setSlot_ne (s : State) (k j : Nat) (f : Slot) (h : j ≠ k) :
    (s.setSlot k f).slot j = s.slot j := by
  rw [slot_setSlot, if_neg (fun hh => h hh.1)]

/-- A slot among the first `n`, where they exist and the update keeps `F` bytes of `data`. -/
theorem State.slot_updateSlots_lt (s : State) (n j : Nat) (g : Nat → Slot → Slot) (h : s.StoreWf)
    (hj : j < n) (hn : s.fitsStore n) (hg : (g j (s.slot j)).data.length = s.cfg.fdMax) :
    (s.updateSlots n g).slot j = g j (s.slot j) := by
  rw [slot_updateSlots, if_pos ⟨hj, by rw [h.1]; exact Nat.lt_of_lt_of_le hj hn⟩, padTo_eq_self _ _ hg]

/-- A slot that is not among the first `n`. -/
theorem State.slot_updateSlots_ge (s : State) (n j : Nat) (g : Nat → Slot → Slot) (h : n ≤ j) :
    (s.updateSlots n g).slot j = s.slot j := by
  rw [slot_updateSlots, if_neg (fun hh => Nat.not_lt.2 h hh.1)]

theorem State.storeWf_setSlot (s : State) (k : Nat) (f : Slot) (h : s.StoreWf)
    (hf : f.data.length = s.cfg.fdMax) : (s.setSlot k f).StoreWf := by
  refine ⟨by simpa [setSlot] using h.1, fun x hx => ?_⟩
  rcases List.mem_or_eq_of_mem_set hx with hx | hx
  · exact h.2 x hx
  · rw [hx]; exact hf

theorem State.storeWf_updateSlots (s : State) (n : Nat) (g : Nat → Slot → Slot) (h : s.StoreWf)
    (hg : ∀ i f, f.data.length = s.cfg.fdMax → (g i f).data.length = s.cfg.fdMax) :
    (s.updateSlots n g).StoreWf := by
  refine ⟨by simpa [updateSlots] using h.1, fun x hx => ?_⟩
  obtain ⟨j, hj⟩ := List.getElem?_of_mem hx
  simp only [updateSlots_fs, updateFirst_getElem?, Option.map_eq_some_iff] at hj
  obtain ⟨f, hf, hj⟩ := hj
  have hfl := h.2 f (List.mem_of_getElem? hf)
  subst hj
  simp only [updateSlots_cfg]
  split
  · exact hg _ _ (by simp)
  · exact hfl

theorem State.frameSet_length (s : State) (n : Nat) : (s.frameSet n).length = n := by
  simp [frameSet]

/-- The valid bytes of a frame set are as many as its `data_len` fields say, where none exceeds `F`. -/
theorem payloadOf_length (fs : List Slot) (fdMax : Nat) (hd : ∀ f ∈ fs, f.data.length = fdMax)
    (hl : ∀ f ∈ fs, f.dataLen.toNat ≤ fdMax) : (payloadOf fs).length = sumDataLen fs := by
  induction fs with
  | nil => rfl
  | cons f fs ih =>
    have h1 := hd f (by simp)
    have h2 := hl f (by simp)
    have ih := ih (fun x hx => hd x (by simp [hx])) (fun x hx => hl x (by simp [hx]))
    simp only [payloadOf, sumDataLen, List.flatMap_cons, List.length_append, List.length_take,
      List.map_cons, List.sum_cons] at ih ⊢
    omega

theorem State.frameSet_data_length (s : State) (n : Nat) (f : Slot) (hf : f ∈ s.frameSet n) :
    f.data.length = s.cfg.fdMax := by
  simp only [frameSet, List.mem_map] at hf
  obtain ⟨k, -, rfl⟩ := hf
  simp

/-- A stamped slot carries the checksum of its own body. -/
@[simp] theorem Slot.stamped_checksum (c : CrcParams) (f : Slot) :
    (f.stamped c).checksum = csumData c f := rfl

@[simp] theorem Slot.stamped_data (c : CrcParams) (f : Slot) : (f.stamped c).data = f.data := rfl

/-- The checksum field is not part of the body it covers (40_checksum.md R134). -/
@[simp] theorem csumData_stamped (c : CrcParams) (f : Slot) : csumData c (f.stamped c) = csumData c f :=
  rfl

/-- Stamping twice is stamping once. -/
@[simp] theorem Slot.stamped_stamped (c : CrcParams) (f : Slot) : (f.stamped c).stamped c = f.stamped c :=
  rfl

end Sys2Proof.Machine
end

