-- ==== Sys2Proof/Laws/Source.lean ====
section
/-! SUPPORT. Laws of the byte source and of the pull loop of CHUNK.SRC (20_memory.md R72,
43_frame_chunker.md R193). -/

namespace Sys2Proof.Machine

/-- A pull answers with at most the bytes asked for. -/
theorem Source.pull_ok_length (src src' : Source) (n : Nat) (b : List Byte)
    (h : src.pull n = (.ok b, src')) : b.length ≤ n := by
  have bound : ∀ a : SrcAnswer, boundAnswer n a = .ok b → b.length ≤ n := by
    intro a ha
    cases a with
    | ok c => cases ha; simp
    | err => cases ha
  unfold pull at h
  split at h <;> exact bound _ (congrArg Prod.fst h)

/-- A pull that a scheduled answer fits. -/
theorem Source.pull_scheduled (hist : List SrcPull) (n : Nat) (b : List Byte) (q : List SrcAnswer)
    (h : b.length ≤ n) :
    Source.pull ⟨.ok b :: q, hist⟩ n = (.ok b, ⟨q, hist ++ [⟨n, .ok b⟩]⟩) := by
  simp [pull, boundAnswer, leftover, List.take_of_length_le h, Nat.not_lt.2 h]

/-- A scheduled read error. -/
theorem Source.pull_scheduled_err (hist : List SrcPull) (n : Nat) (q : List SrcAnswer) :
    Source.pull ⟨.err :: q, hist⟩ n = (.err, ⟨q, hist ++ [⟨n, .err⟩]⟩) := rfl

/-- The chunks the pull loop has completed while `total` of `max` bytes have come: none is empty, all but
the last have `fdMax` bytes, and the last too while bytes are missing. -/
structure ChunksOk (fdMax max total : Nat) (chunks : List (List Byte)) : Prop where
  sum : (chunks.map List.length).sum = total
  le : total ≤ max
  pos : ∀ c ∈ chunks, 1 ≤ c.length ∧ c.length ≤ fdMax
  full : ∀ k, k + 1 < chunks.length → (chunks.getD k []).length = fdMax
  missing : total < max → ∀ c ∈ chunks, c.length = fdMax

theorem ChunksOk.nil (fdMax max : Nat) : ChunksOk fdMax max 0 [] :=
  ⟨rfl, Nat.zero_le _, by simp, by simp, by simp⟩

/-- One more chunk. -/
theorem ChunksOk.append {fdMax max total : Nat} {chunks : List (List Byte)} {b : List Byte}
    (h : ChunksOk fdMax max total chunks) (ht : total < max) (h1 : 1 ≤ b.length)
    (h2 : b.length ≤ min fdMax (max - total)) :
    ((chunks ++ [b]).map List.length).sum = total + b.length ∧ total + b.length ≤ max ∧
    (∀ c ∈ chunks ++ [b], 1 ≤ c.length ∧ c.length ≤ fdMax) ∧
    ∀ k, k + 1 < (chunks ++ [b]).length → ((chunks ++ [b]).getD k []).length = fdMax := by
  refine ⟨by simp [h.sum], by omega, ?_, ?_⟩
  · intro c hc
    rcases List.mem_append.1 hc with hc | hc
    · exact h.pos c hc
    · rw [List.mem_singleton.1 hc]; omega
  · intro k hk
    have hk : k < chunks.length := by simpa using hk
    have hm := h.missing ht chunks[k] (List.getElem_mem hk)
    simp [List.getD_eq_getElem?_getD, List.getElem?_append_left hk, List.getElem?_eq_getElem hk, hm]

/-- What a finished pull loop hands on. A loop that did not end on a short read has pulled `max` bytes. -/
theorem pullLoop_finished (fdMax max : Nat) (hf : 0 < fdMax) (fuel total : Nat)
    (chunks chunks' : List (List Byte)) (src src' : Source) (ended : Bool)
    (hc : ChunksOk fdMax max total chunks) (hfuel : max ≤ total + fuel * fdMax)
    (h : pullLoop fdMax max fuel total chunks src = .finished chunks' ended src') :
    (chunks'.map List.length).sum ≤ max ∧ (∀ c ∈ chunks', 1 ≤ c.length ∧ c.length ≤ fdMax) ∧
    (∀ k, k + 1 < chunks'.length → (chunks'.getD k []).length = fdMax) ∧
    chunks'.length ≤ chunks.length + fuel ∧
    (ended = false → (chunks'.map List.length).sum = max) := by
  have stop : ∀ (l : List (List Byte)) (n : Nat), ChunksOk fdMax max n l → l.length ≤ chunks.length + fuel →
      (l.map List.length).sum ≤ max ∧ (∀ c ∈ l, 1 ≤ c.length ∧ c.length ≤ fdMax) ∧
      (∀ k, k + 1 < l.length → (l.getD k []).length = fdMax) ∧ l.length ≤ chunks.length + fuel :=
    fun l n hl hlen => ⟨by rw [hl.sum]; exact hl.le, hl.pos, hl.full, hlen⟩
  induction fuel generalizing total chunks src with
  | zero =>
    cases h
    obtain ⟨h1, h2, h3, h4⟩ := stop _ _ hc (by omega)
    exact ⟨h1, h2, h3, h4, fun _ => by rw [hc.sum]; have := hc.le; omega⟩
  | succ fuel ih =>
    unfold pullLoop at h
    split at h
    · rename_i ht
      simp only at h
      split at h
      · cases h
      · rename_i b src1 hp
        have hb := Source.pull_ok_length _ _ _ _ hp
        split at h
        · rename_i hs
          cases h
          split
          · obtain ⟨h1, h2, h3, h4⟩ := stop _ _ hc (by omega)
            exact ⟨h1, h2, h3, h4, by simp⟩
          · obtain ⟨h1, h2, h3, h4⟩ := hc.append ht (by omega) hb
            exact ⟨by omega, h3, h4, by simp, by simp⟩
        · rename_i hs
          have hbl : b.length = min fdMax (max - total) := by omega
          rw [if_neg (by omega)] at h
          obtain ⟨h1, h2, h3, h4⟩ := hc.append ht (by omega) hb
          have hc' : ChunksOk fdMax max (total + b.length) (chunks ++ [b]) := by
            refine ⟨h1, h2, h3, h4, fun hlt c hm => ?_⟩
            rcases List.mem_append.1 hm with hm | hm
            · exact hc.missing ht c hm
            · rw [List.mem_singleton.1 hm]; omega
          have hfuel' : max ≤ total + b.length + fuel * fdMax := by
            rw [Nat.succ_mul] at hfuel; omega
          have hlen : (chunks ++ [b]).length + fuel = chunks.length + (fuel + 1) := by simp; omega
          obtain ⟨g1, g2, g3, g4, g5⟩ := ih _ _ _ hc' hfuel' h
            (fun l n hl hl' => hlen ▸ stop l n hl (hlen ▸ hl'))
          exact ⟨g1, g2, g3, by omega, g5⟩
    · cases h
      obtain ⟨h1, h2, h3, h4⟩ := stop _ _ hc (by omega)
      exact ⟨h1, h2, h3, h4, fun _ => by rw [hc.sum]; have := hc.le; omega⟩

/-- The pull loop over scheduled answers of `fdMax` bytes each. -/
theorem pullLoop_full (fdMax max : Nat) (hf : 0 < fdMax) (full : List (List Byte)) (fuel total : Nat)
    (chunks : List (List Byte)) (q : List SrcAnswer) (hist : List SrcPull)
    (hl : ∀ b ∈ full, b.length = fdMax) (ht : total + full.length * fdMax ≤ max) :
    ∃ hist', pullLoop fdMax max (full.length + fuel) total chunks ⟨full.map .ok ++ q, hist⟩ =
      pullLoop fdMax max fuel (total + full.length * fdMax) (chunks ++ full) ⟨q, hist'⟩ := by
  induction full generalizing total chunks hist with
  | nil => exact ⟨hist, by simp⟩
  | cons b full ih =>
    have hb := hl b (by simp)
    rw [List.length_cons, Nat.succ_mul] at ht
    have hreq : min fdMax (max - total) = fdMax := by omega
    obtain ⟨hist', h⟩ := ih (total + b.length) (chunks ++ [b]) (hist ++ [⟨fdMax, .ok b⟩])
      (fun c hc => hl c (by simp [hc])) (by omega)
    refine ⟨hist', ?_⟩
    have hlen : (b :: full).length + fuel = (full.length + fuel) + 1 := by simp; omega
    rw [hlen, pullLoop, if_pos (by omega)]
    simp only [hreq, List.map_cons, List.cons_append]
    rw [Source.pull_scheduled _ _ _ _ (by omega)]
    simp only [hb, Nat.lt_irrefl, if_false, if_neg (show ¬ fdMax = 0 by omega)]
    rw [hb] at h
    rw [h, List.length_cons, Nat.succ_mul]
    congr 1
    · omega
    · simp

end Sys2Proof.Machine
end

