-- ==== Sys2Proof/Laws/Wire.lean ====
section
/-! SUPPORT. Sizes and pieces of the wire images. -/

namespace Sys2Proof.Machine

@[simp] theorem bodyCtrl_length (f : CtrlFrame) : (bodyCtrl f).length = 12 := by simp [bodyCtrl]

@[simp] theorem wireCtrl_length (f : CtrlFrame) : (wireCtrl f).length = ctrlSize := by
  simp [wireCtrl, ctrlSize]

@[simp] theorem headData_length (f : Slot) : (headData f).length = 20 := by simp [headData]

@[simp] theorem bodyData_length (f : Slot) : (bodyData f).length = 20 + f.data.length := by
  simp [bodyData]

@[simp] theorem wireData_length (f : Slot) : (wireData f).length = 22 + f.data.length := by
  simp [wireData]; omega

/-- A piece that starts after `a` is a piece of what follows `a`. -/
theorem slice_append_right (a b : List Byte) (i n : Nat) :
    slice (a ++ b) (a.length + i) n = slice b i n := by
  simp only [slice, List.drop_append, List.drop_eq_nil_of_le (Nat.le_add_right a.length i),
    Nat.add_sub_cancel_left, List.nil_append]

/-- The first `|a|` bytes of `a ++ b` are `a`. -/
theorem slice_append_left (a b : List Byte) : slice (a ++ b) 0 a.length = a := by
  simp [slice]

/-- The checksum bytes read back as the checksum. -/
theorem fromLe_half (c : Half) : fromLe (leBytes 2 c.toNat) = c.toNat := by
  rw [fromLe_leBytes]
  exact Nat.mod_eq_of_lt c.isLt

end Sys2Proof.Machine
end

