-- ==== Sys2Proof/Tests/Slice0.lean ====
section
/-! SUPPORT. Tests: each expected value stands in spec/95_test_vectors.md (the vector is named) or in the
command's own rule. Then, for every statement with hypotheses, a witness that meets them, a case a clause
at the boundary of its range. -/

namespace Sys2Proof.Tests

open Sys2Proof Sys2Proof.Machine

/-! ### Well-formed commands -/

/-- 30_encoding.md R92: slot numbers are 0..65535. -/
theorem test_wf_refuses_slot_65536 :
    (Instr.serData 65536).wf = false ∧ (Instr.desData 65536).wf = false ∧
    (Instr.stamp 65536).wf = false ∧ (Instr.fget 65536).wf = false ∧ (Instr.fput 65536).wf = false ∧
    (Instr.dget 65536).wf = false ∧ (Instr.dput 65536).wf = false ∧ (Instr.fget 65535).wf = true := by
  decide

/-! ### Decoding: every constructor's word, written from the table of 30_encoding.md R100 -/

theorem test_decode_system : decode 0x00000000#32 = .ok .nop ∧ decode 0x00000001#32 = .ok .clrerr ∧
    decode 0x00000002#32 = .ok .srst := by decide

theorem test_decode_checksum : decode 0x00000010#32 = .ok .crcCalc ∧
    decode 0x00000011#32 = .ok .crcStamp ∧ decode 0x00000012#32 = .ok .crcCheck := by decide

theorem test_decode_codec : decode 0x00000020#32 = .ok .serCtrl ∧ decode 0x00000021#32 = .ok .desCtrl ∧
    decode 0x00030022#32 = .ok (.serData 3) ∧ decode 0x00020023#32 = .ok (.desData 2) ∧
    decode 0x00000024#32 = .ok .pack24 ∧ decode 0x00000025#32 = .ok .unpack24 := by decide

theorem test_decode_sequencer : decode 0x00000030#32 = .ok .seqI2w ∧
    decode 0x00000031#32 = .ok .seqW2i := by decide

theorem test_decode_chunker : decode 0x00000040#32 = .ok .chunkBuf ∧
    decode 0x00000041#32 = .ok .chunkSrc ∧ decode 0x00000042#32 = .ok .totlen ∧
    decode 0x00000043#32 = .ok .reasm ∧ decode 0x00000044#32 = .ok .init ∧
    decode 0x000A0045#32 = .ok (.stamp 10) ∧ decode 0x00000046#32 = .ok .stampAll := by decide

theorem test_decode_access : decode 0xFFFF0050#32 = .ok (.fget 65535) ∧
    decode 0x80000051#32 = .ok (.fput 32768) ∧ decode 0x01020052#32 = .ok (.dget 258) ∧
    decode 0x00010053#32 = .ok (.dput 1) := by decide

/-- V8.1 to V8.4, and an opcode between two families. -/
theorem test_decode_illegal : decode 0x00000003#32 = .error .unknownOpcode ∧
    decode 0x00000100#32 = .error .reservedBitsSet ∧ decode 0x00010000#32 = .error .immediateSet ∧
    decode 0x00010020#32 = .error .immediateSet ∧ decode 0x00000054#32 = .error .unknownOpcode := by
  decide

/-- The words of 30_encoding.md R103 and the assembler's text for them. -/
theorem test_encode : encode (.desData 2) = 0x00020023#32 ∧ encode .chunkBuf = 0x00000040#32 ∧
    assemble "DES.DATA 2".toList = some (.desData 2) ∧ assemble "STAMP 0x0A".toList = some (.stamp 10) ∧
    assemble "STAMP".toList = none ∧ assemble "CHUNK.BUF 1".toList = none := by decide

theorem test_decodeTableWord : decodeTableWord 32 0x00020023 = some (.desData 2) ∧
    decodeTableWord 32 0x00000003 = none := by decide

/-! ### Small states -/

/-- The state a run of commands ends in. -/
def run (is : List Instr) (s : State) : State :=
  match runCommands is s with
  | .next t => t
  | .fault _ => s
  | .refused _ => s

/-- Reset in CFG-4 with other registers. -/
def withRegs (x : Regs) : State := { State.reset with regs := x }

/-- Reset in CFG-4 with bytes in WBUF and WLEN set. -/
def withImage (b : List Byte) (n : Word) : State := { State.reset.writeWbuf 0 b with wlen := n }

/-- Reset in CFG-4 with bytes in PMEM from 0 on, ADDR and LEN set. -/
def withPayload (b : List Byte) (a n : Word) : State :=
  { State.reset.writePmem 0 b with regs := { State.reset.regs with addr := a, len := n } }

/-- Reset in CFG-4 with COUNT 9, LEN set and answers scheduled. -/
def withSource (n : Word) (q : List SrcAnswer) : State :=
  { withRegs { State.reset.regs with count := 9, len := n } with src := ⟨q, []⟩ }

/-- The six bytes of V6.21. -/
def payload6 : List Byte := [0x10, 0x11, 0x12, 0x13, 0x14, 0x15]

/-- The frame set of V6.21. -/
def chunked6 : State := run [.chunkBuf] (withPayload payload6 0 6)

/-- V6.22: NFILE and FLAG set, INIT run. -/
def initialised6 : State :=
  run [.init] { chunked6 with regs := { chunked6.regs with nfile := 7, flag := 0x80 } }

/-- The slot of V3.1. -/
def slot31 : Slot :=
  { header := ⟨0xA5, 0x5A, 0xC3, 0x3C⟩, nFile := 7, nFrame := 0, nTotal := 1, flag := 0x80,
    totalLen := 1, dataLen := 1, data := [0xAB, 0, 0, 0], checksum := 0xD7FC }

/-- The wire image of V3.1. -/
def image31 : List Byte :=
  [0xA5, 0x5A, 0xC3, 0x3C, 0x07, 0, 0, 0, 0, 0, 1, 0, 0, 0x80, 1, 0, 0, 0, 1, 0, 0xAB, 0, 0, 0, 0xFC, 0xD7]

/-- The wire image of V2.3. -/
def image23 : List Byte :=
  [0xA5, 0x5A, 0xC3, 0x3C, 0x78, 0x56, 0x34, 0x12, 0xCD, 0xAB, 0xEF, 0xBE, 0x54, 0xDA]

/-- The bytes of V1.7. -/
def nine : List Byte := [0x31, 0x32, 0x33, 0x34, 0x35, 0x36, 0x37, 0x38, 0x39]

/-! ### System commands -/

/-- V7.7. -/
theorem test_nop :
    (run [.nop] { State.reset with stat := ⟨3, false, false, 0x08⟩ }).stat.toWord = 0x00000800 := by
  decide

/-- V7.8. -/
theorem test_clrerr :
    (run [.clrerr] { State.reset with stat := ⟨3, true, false, 0x08⟩ }).stat.toWord = 0x00000010 := by
  decide

/-- V7.9. -/
theorem test_srst :
    let s := { withRegs { State.reset.regs with nfile := 7, hdr := 0x11223344 } with
      wlen := 26, stat := ⟨3, true, false, 0x08⟩ }
    let t := run [.srst] s
    t.regs.nfile = 0 ∧ t.wlen = 0 ∧ t.stat.toWord = 0 ∧ t.regs.hdr = 0x3CC35AA5 := by decide

/-! ### Checksum commands -/

/-- V1.10. -/
theorem test_crcCalc : (run [.crcCalc] (withImage nine 9)).regs.csum = 0xBB3D := by decide +kernel

/-- V1.12. -/
theorem test_crcCalc_range :
    let t := run [.crcCalc] { withImage nine 27 with regs := { State.reset.regs with csum := 0x1234 } }
    t.stat.toWord = 0x00008007 ∧ t.regs.csum = 0x1234 := by decide

/-- V1.13. -/
theorem test_crcStamp :
    let t := run [.crcStamp] (withImage nine 11)
    t.readWbuf 9 2 = [0x3D, 0xBB] ∧ t.regs.csum = 0xBB3D := by decide +kernel

/-- V1.14. -/
theorem test_crcCheck : (run [.crcStamp, .crcCheck] (withImage nine 11)).stat.toWord = 0x00000010 := by
  decide +kernel

/-- V1.15. -/
theorem test_crcCheck_mismatch :
    (run [.crcCheck] (withImage (nine ++ [0x3D, 0xBA]) 11)).stat.toWord = 0x00000803 := by decide +kernel

/-! ### Wire codec commands -/

/-- V2.3. -/
theorem test_serCtrl :
    let t := run [.serCtrl]
      (withRegs { State.reset.regs with nfile := 0x12345678, nframe := 0xABCD, status := 0xBEEF })
    t.readWbuf 0 14 = image23 ∧ t.regs.csum = 0xDA54 ∧ t.wlen = 14 := by decide +kernel

/-- V2.6. -/
theorem test_desCtrl :
    let t := run [.desCtrl] (withImage image23 14)
    t.regs.nfile = 0x12345678 ∧ t.regs.nframe = 0xABCD ∧ t.regs.status = 0xBEEF ∧
      t.stat.toWord = 0x00000010 := by decide +kernel

/-- V2.7b. -/
theorem test_desCtrl_short : (run [.desCtrl] (withImage image23 15)).stat.toWord = 0x00000402 := by decide +kernel

/-- V3.1. -/
theorem test_serData :
    let t := run [.serData 0] (State.reset.setSlot 0 { slot31 with checksum := 0 })
    t.readWbuf 0 26 = image31 ∧ t.slot 0 = slot31 ∧ t.wlen = 26 := by decide +kernel

/-- V3.6 for V3.1. -/
theorem test_desData :
    let t := run [.desData 2] (withImage image31 26)
    t.slot 2 = slot31 ∧ t.stat.toWord = 0x00000010 := by decide +kernel

/-- 41_wire_codec.md R163: the last byte changed from D7 to D6. -/
theorem test_desData_corrupted :
    let t := run [.desData 1] (withImage (image31.take 25 ++ [0xD6]) 26)
    t.stat.err = 3 ∧ t.slot 1 = State.reset.slot 1 := by decide +kernel

/-- V4.6. -/
theorem test_pack24 : (run [.pack24] (withRegs { State.reset.regs with ntotal := 0x123456 })).regs.p24 =
    0x563412 := by decide

/-- V4.2, the second half. -/
theorem test_unpack24 : (run [.unpack24] (withRegs { State.reset.regs with p24 := 0x010000 })).regs.ntotal =
    1 := by decide

/-! ### Sequencer commands -/

/-- V5.6. -/
theorem test_seqI2w_wraps :
    (run [.seqI2w] (withRegs { State.reset.regs with id := 65535, count := 2 })).regs.nframe = 0 := by decide

/-- V5.7. -/
theorem test_seqI2w_single :
    (run [.seqI2w] (withRegs { State.reset.regs with id := 65535, count := 1 })).regs.nframe = 65535 := by
  decide

/-- V5.4. -/
theorem test_seqW2i_wraps :
    (run [.seqW2i] (withRegs { State.reset.regs with nframe := 0, count := 3 })).regs.id = 65535 := by decide

/-- V5.5, IDENTITY mode. -/
theorem test_seqW2i_identity :
    (run [.seqW2i] { withRegs { State.reset.regs with nframe := 2, count := 3 } with
      cfg := { Config.cfg4 with seqMode := .identity } }).regs.id = 2 := by decide

/-! ### Frame chunker commands -/

/-- V6.21. -/
theorem test_chunkBuf :
    chunked6.regs.count = 2 ∧ (chunked6.slot 0).data = [0x10, 0x11, 0x12, 0x13] ∧
    (chunked6.slot 1).data = [0x14, 0x15, 0, 0] ∧ (chunked6.slot 1).dataLen = 2 ∧
    (chunked6.slot 0).nTotal = 2 ∧ (chunked6.slot 0).totalLen = 6 := by decide

/-- The address corner ADDR = 65, LEN = 0 of 95_test_vectors.md, section 2.6. -/
theorem test_chunkBuf_empty_range : (run [.chunkBuf] (withPayload [] 65 0)).stat.err = 7 ∧
    (run [.chunkBuf] (withPayload [] 64 0)).stat.err = 0 := by decide

/-- V6.14. -/
theorem test_chunkSrc :
    let t := run [.chunkSrc] (withSource 6 [.ok [0x20, 0x21, 0x22, 0x23], .ok [0x24]])
    t.regs.count = 2 ∧ t.regs.len = 5 ∧ t.stat.toWord = 0 ∧ (t.slot 1).data = [0x24, 0, 0, 0] ∧
      (t.slot 0).totalLen = 5 := by decide

/-- V6.13 and V6.18. -/
theorem test_chunkSrc_limit_and_error :
    (run [.chunkSrc] (withSource 6 [.ok [0x20, 0x21, 0x22, 0x23, 0x24, 0x25, 0x26]])).stat.toWord =
      0x00000020 ∧
    (run [.chunkSrc] (withSource 16 [.ok [0x20, 0x21, 0x22, 0x23], .err])).stat.toWord = 0x00002005 := by
  decide

/-- V6.24. -/
theorem test_totlen : (run [.totlen] chunked6).regs.len = 6 := by decide

/-- V6.25. -/
theorem test_reasm :
    let t := run [.reasm] { chunked6 with regs := { chunked6.regs with addr := 32 } }
    t.readPmem 32 7 = payload6 ++ [0] ∧ t.regs.len = 6 := by decide

/-- V6.30. -/
theorem test_reasm_range :
    (run [.reasm] { chunked6 with regs := { chunked6.regs with addr := 59 } }).stat.err = 7 := by decide

/-- V6.22. -/
theorem test_init :
    (initialised6.slot 0).header = ⟨0xA5, 0x5A, 0xC3, 0x3C⟩ ∧ (initialised6.slot 0).nFrame = 1 ∧
    (initialised6.slot 1).nFrame = 2 ∧ (initialised6.slot 1).nFile = 7 ∧
    (initialised6.slot 1).flag = 0x80 := by decide

/-- 43_frame_chunker.md R197. -/
theorem test_stamp :
    (run [.stamp 0] (State.reset.setSlot 0 { slot31 with checksum := 0 })).slot 0 = slot31 := by decide +kernel

/-- V6.23. -/
theorem test_stampAll : ((run [.stampAll] initialised6).slot 0).checksum = 0x47B6 ∧
    ((run [.stampAll] initialised6).slot 1).checksum = 0x4CFB := by decide +kernel

/-! ### Frame access commands -/

/-- V7.5, here on the slot of V3.1. -/
theorem test_fget :
    let t := run [.fget 1] (State.reset.setSlot 1 slot31)
    t.regs.hdr = 0x3CC35AA5 ∧ t.regs.nfile = 7 ∧ t.regs.ntotal = 1 ∧ t.regs.flag = 0x80 ∧
      t.regs.tlen = 1 ∧ t.regs.dlen = 1 ∧ t.regs.csum = 0xD7FC := by decide

/-- V7.6, here on the slot of V3.1. -/
theorem test_fput :
    let s := State.reset.setSlot 1 slot31
    (run [.fput 1] { run [.fget 1] s with
      regs := { (run [.fget 1] s).regs with nframe := 9 } }).slot 1 = { slot31 with nFrame := 9 } := by
  decide

/-- V7.3 and V6.26. -/
theorem test_dget :
    let s := (State.reset.setSlot 1 { slot31 with data := [0xDE, 0xAD, 0xBE, 0xEF] })
    (run [.dget 1] { s with regs := { s.regs with addr := 60 } }).readPmem 60 4 =
      [0xDE, 0xAD, 0xBE, 0xEF] := by decide

/-- V7.1 and V7.2. -/
theorem test_dput :
    ((run [.dput 3] (withPayload [0, 0, 0, 0, 0, 0, 0, 0, 0xDE, 0xAD, 0xBE, 0xEF] 8 0)).slot 3).data =
      [0xDE, 0xAD, 0xBE, 0xEF] ∧
    (run [.dput 3] (withPayload [] 61 0)).stat.toWord = 0x00008007 := by decide

/-! ### Host accesses -/

/-- V4.9: a write keeps the low bits of its register. -/
theorem test_regWrite_truncates :
    perform State.reset (.regWrite 4 0x1ABCDEF0) =
      .next { State.reset with regs := { State.reset.regs with ntotal := 0xBCDEF0 } } := by rfl

/-- V8.5 through CMD: a legal word whose slot does not exist. -/
theorem test_step_serData_4 :
    step (State.reset.withFetchWord 32 0x00040022) =
      .next { State.reset with stat := ⟨7, false, false, 0x80⟩ } := by rfl

/-- An address outside PMEM is refused (20_memory.md R61). -/
theorem test_pmem_outside : perform State.reset (.pmemRead 64) = .refused (.pmemOutsideMap 64) := by rfl

/-! ### Witnesses: states and operands that meet the hypotheses of the statements -/

/-- The words the statements about decoding speak of. -/
theorem witness_words : (Instr.fget 65535).wf = true ∧ decode 0xFFFF0050#32 = .ok (.fget 65535) ∧
    IllegalByRule 0x00000100#32 ∧ IllegalByRule 0x00000054#32 ∧ IllegalByRule 0x00010020#32 ∧
    (¬ IllegalByRule 0x00040022#32 ∧ (0x00040022#32).toNat % 256 ∈ opcodesS ∧
      State.reset.cfg.nSlots ≤ (0x00040022#32).toNat / 65536) ∧
    0x00000046#32 &&& 0xFFFFFFFF#32 = 0x46#32 ∧ 0xFFFF0053#32 &&& 0x0000FFFF#32 = 0x53#32 := by decide

/-- OpcodeMapSelectsTheCommand, its last clause: a word that matches no row of either format. -/
theorem witness_no_row : (∀ r ∈ opcodesN, 0x00000054#32 &&& 0xFFFFFFFF#32 ≠ BitVec.ofNat 32 r) ∧
    ∀ r ∈ opcodesS, 0x00000054#32 &&& 0x0000FFFF#32 ≠ BitVec.ofNat 32 r := by decide

/-- StepRunsTheDecodedCommand: the state `withFetchWord` makes. -/
theorem witness_step : State.reset.cfg.Valid ∧
    (State.reset.withFetchWord 32 0x00030022).script = .regWrite 16 0x00030022 :: [] ∧
    decode 0x00030022#32 = .ok (.serData 3) := by decide

/-- IdleMachineKeepsItsState, ConfigurationNeverChanges, EveryStepKeepsGoodStates: reset is good, idles,
and its step answers a next state; so does a step that runs a command. -/
theorem witness_good_step : State.reset.Wf ∧ State.reset.script = [] ∧
    step State.reset = .next State.reset ∧ (State.reset.withFetchWord 32 0x00000000).Wf ∧
    step (State.reset.withFetchWord 32 0x00000000) = .next State.reset :=
  ⟨by decide, rfl, rfl, by decide, rfl⟩

/-- The constraints of the configuration at both ends of every range (00_scope.md R6 to R8). -/
theorem witness_config : Config.cfg4.Valid ∧ Config.cfg256.Valid ∧
    ({ Config.cfg4 with fdMax := 1, nSlots := 1, pmemSize := 1 } : Config).Valid ∧
    ({ Config.cfg4 with fdMax := 65535, nSlots := 65535, pmemSize := 4294967295 } : Config).Valid ∧
    Config.cfg4.seqMode = .documented ∧
    ({ Config.cfg4 with seqMode := .identity } : Config).seqMode = .identity := by decide

/-- HostAccessToMemories: the last address inside and the first outside, of both memories. -/
theorem witness_addresses : 63 < State.reset.cfg.pmemSize ∧ State.reset.cfg.pmemSize ≤ 64 ∧
    25 < 22 + State.reset.cfg.fdMax ∧ 22 + State.reset.cfg.fdMax ≤ 26 := by decide

/-- HostAccessesKeepFramesAndStatus: accesses that answer a next state and are neither a command nor
reset, at the first and the last number. -/
theorem witness_accesses :
    perform State.reset (.regRead 31) = .next (State.reset.report 0) ∧
    perform State.reset (.regWrite 18 26) = .next { State.reset with wlen := 26 } ∧
    perform State.reset (.pmemRead 63) = .next (State.reset.report 0) ∧
    perform State.reset (.wbufWrite 25 1) = .next (State.reset.writeWbuf 25 [1]) := ⟨rfl, rfl, rfl, rfl⟩

/-- ResetLeavesTheResetValues: contents of exactly the sizes of CFG-4. -/
theorem witness_contents :
    let c : Contents := ⟨List.replicate 4 slot31, List.replicate 26 1, List.replicate 64 2, []⟩
    c.pmem.length = State.reset.cfg.pmemSize ∧ c.wbuf.length = 22 + State.reset.cfg.fdMax ∧
      c.fs.length = State.reset.cfg.nSlots ∧ ∀ f ∈ c.fs, f.data.length = State.reset.cfg.fdMax := by decide

/-- ScriptsInsideTheMapRunToTheirEnd: a script of every kind of action at the end of its range. -/
theorem witness_script :
    let s : State := { State.reset with script := [.regRead 31, .regWrite 16 0x00040022, .pmemRead 63,
      .pmemWrite 63 1, .wbufRead 25, .wbufWrite 25 1, .reset ⟨[], [], [], []⟩] }
    s.cfg.Valid ∧ (HostAction.InMap s.cfg (.regRead 31) ∧ HostAction.InMap s.cfg (.pmemRead 63) ∧
      HostAction.InMap s.cfg (.wbufRead 25)) ∧ ∀ a ∈ s.script, a.InMap s.cfg := by
  refine ⟨by decide, by decide, ?_⟩
  intro a ha
  simp only [List.mem_cons, List.not_mem_nil, or_false] at ha
  rcases ha with rfl | rfl | rfl | rfl | rfl | rfl | rfl <;>
    first | exact trivial | decide

/-- FailedCommandsAreAllOrNothing, ErrorCodesByCommand: a failed command of each kind the clauses
distinguish. -/
theorem witness_failures :
    (run [.crcCheck] State.reset).stat.err = 7 ∧ (run [.desCtrl] State.reset).stat.err = 2 ∧
    (run [.desData 4] State.reset).stat.err = 7 ∧ (run [.desData 3] State.reset).stat.err = 2 ∧
    (run [.desCtrl] (withImage [1] 14)).stat.err = 3 ∧ (run [.fget 4] State.reset).stat.err = 7 ∧
    (run [.chunkSrc] (withSource 0 [])).stat.err = 4 ∧
    (run [.chunkSrc] (withSource 4 [.err])).stat.err = 5 ∧
    exec (.fget 4) State.reset = .next (State.reset.raise .range) :=
  ⟨by decide, by decide, by decide, by decide, by decide +kernel, by decide, by decide, by decide, rfl⟩

/-- SuccessfulCommandsKeepTheOtherFlags: a successful command of each kind the clauses distinguish. -/
theorem witness_successes :
    (run [.nop] State.reset).stat.err = 0 ∧ (run [.clrerr] State.reset).stat.err = 0 ∧
    (run [.srst] State.reset).stat.err = 0 ∧ (run [.desCtrl] (withImage image23 14)).stat.err = 0 ∧
    (run [.desData 2] (withImage image31 26)).stat.err = 0 ∧
    (run [.crcCheck] (withImage [] 2)).stat.err = 0 ∧
    (run [.chunkSrc] (withSource 1 [.ok [5]])).stat.err = 0 ∧
    exec .nop State.reset = .next State.reset :=
  ⟨by decide, by decide, by decide, by decide +kernel, by decide +kernel, by decide, by decide, rfl⟩

/-- OnlyChunkSrcPullsAndPullsAreBounded: an answer that fits its request and one that does not. -/
theorem witness_pulls :
    Source.pull ⟨[.ok [1, 2]], []⟩ 2 = (.ok [1, 2], ⟨[], [⟨2, .ok [1, 2]⟩]⟩) ∧
    Source.pull ⟨[.ok [1, 2, 3]], []⟩ 2 = (.ok [1, 2], ⟨[.ok [3]], [⟨2, .ok [1, 2]⟩]⟩) := by decide

/-- CrcDetectsEverySingleBitError: the polynomial of the named configurations, the top bit of a byte. -/
theorem witness_crc : Config.cfg4.crc.poly.getLsbD 0 = true ∧ (7 : Nat) < 8 ∧ (0 : Nat) < 8 := by decide

/-- DataFrameWireImage, ParseAndWireAreInverse: a frame and images of the sizes asked for. -/
theorem witness_images : slot31.data.length = 4 ∧ image31.length = 22 + 4 ∧ image23.length = 14 := by
  decide

/-- CrcCalcEffect, CrcStampEffect, CrcCheckEffect: WLEN at the ends of each range. -/
theorem witness_wlen : (26#32).toNat ≤ 22 + State.reset.cfg.fdMax ∧
    22 + State.reset.cfg.fdMax < (27#32).toNat ∧ 2 ≤ (2#32).toNat ∧ (1#32).toNat < 2 := by decide

/-- CrcCheckEffect: an image whose checksum matches, and one whose checksum does not. -/
theorem witness_crcCheck :
    (let s := withImage (nine ++ [0x3D, 0xBB]) 11
     (crc16 s.cfg.crc (s.wbuf.readBytes 0 9)).toNat =
       (s.wbuf.read 9).toNat + 256 * (s.wbuf.read 10).toNat) ∧
    (let s := withImage (nine ++ [0x3D, 0xBA]) 11
     (crc16 s.cfg.crc (s.wbuf.readBytes 0 9)).toNat ≠
       (s.wbuf.read 9).toNat + 256 * (s.wbuf.read 10).toNat) := by decide +kernel

/-- DesCtrlEffect: the three cases. -/
theorem witness_desCtrl :
    (withImage image23 15).wlen ≠ 14 ∧ (withImage image23 13).wlen ≠ 14 ∧
    (let s := withImage image23 14
     s.wlen = 14 ∧ (crc16 s.cfg.crc (s.wbuf.readBytes 0 12)).toNat =
       (s.wbuf.read 12).toNat + 256 * (s.wbuf.read 13).toNat) ∧
    (let s := withImage (0xFF :: image23.drop 1) 14
     s.wlen = 14 ∧ (crc16 s.cfg.crc (s.wbuf.readBytes 0 12)).toNat ≠
       (s.wbuf.read 12).toNat + 256 * (s.wbuf.read 13).toNat) := by decide +kernel

/-- SerDataEffect, DesDataEffect, StampEffect, FgetEffect, FputEffect, SerializeThenDeserialize: a good
configuration and store, the last slot that exists and the first that does not, the words of the first
and the last slot number. -/
theorem witness_slots : State.reset.cfg.Valid ∧ State.reset.StoreWf ∧ 3 < State.reset.cfg.nSlots ∧
    State.reset.cfg.nSlots ≤ 4 ∧ (0 : Nat) < 65536 ∧ (65535 : Nat) < 65536 := by decide

/-- DesDataEffect: the cases after the slot test. -/
theorem witness_desData :
    (let s := withImage image31 26
     s.cfg.Valid ∧ s.StoreWf ∧ 3 < s.cfg.nSlots ∧ s.wlen.toNat = 22 + s.cfg.fdMax ∧
       (crc16 s.cfg.crc (s.wbuf.readBytes 0 24)).toNat =
         (s.wbuf.read 24).toNat + 256 * (s.wbuf.read 25).toNat) ∧
    (let s := withImage (image31.take 25 ++ [0xD6]) 26
     s.cfg.Valid ∧ s.StoreWf ∧ 3 < s.cfg.nSlots ∧ s.wlen.toNat = 22 + s.cfg.fdMax ∧
       (crc16 s.cfg.crc (s.wbuf.readBytes 0 24)).toNat ≠
         (s.wbuf.read 24).toNat + 256 * (s.wbuf.read 25).toNat) ∧
    (withImage image31 25).wlen.toNat ≠ 22 + State.reset.cfg.fdMax ∧
    (withImage image31 27).wlen.toNat ≠ 22 + State.reset.cfg.fdMax := by decide +kernel

/-- SeqI2wEffect, SeqW2iEffect, SequencerWrapsAndInverts: each mode, a count of 1 and another. -/
theorem witness_sequencer : State.reset.cfg.seqMode = .documented ∧
    (withRegs { State.reset.regs with count := 1 }).regs.count = 1 ∧ State.reset.regs.count ≠ 1 ∧
    ({ State.reset with cfg := { Config.cfg4 with seqMode := .identity } } : State).cfg.seqMode =
      .identity ∧ (0#24) ≠ 1 := by decide

/-- ChunkingArithmetic: no payload, one byte, exactly two frames, one byte more. -/
theorem witness_chunking : ceilDiv 0 4 = 0 ∧ ceilDiv 1 4 = 1 ∧ ceilDiv 8 4 = 2 ∧ ceilDiv 9 4 = 3 ∧
    0 + 1 < ceilDiv 8 4 ∧ (0 : Nat) < 1 ∧ (0 : Nat) < 4 := by decide

/-- ChunkBufEffect, ChunkThenReassemble, ChunkAndInitCommute: a payload that fills all slots and ends where
PMEM ends, an empty one at its end, one frame too many, and one byte past the end. -/
theorem witness_chunkBuf :
    (let s := withPayload [] 48 16
     s.cfg.Valid ∧ s.StoreWf ∧ ceilDiv s.regs.len.toNat s.cfg.fdMax ≤ s.cfg.nSlots ∧
       s.regs.addr.toNat + s.regs.len.toNat ≤ s.cfg.pmemSize ∧
       s.regs.len.toNat ≤ s.cfg.nSlots * s.cfg.fdMax ∧
       (40#32).toNat + s.regs.len.toNat ≤ s.cfg.pmemSize) ∧
    (let s := withPayload [] 64 0
     s.regs.addr.toNat + s.regs.len.toNat ≤ s.cfg.pmemSize) ∧
    (let s := withPayload [] 0 17
     s.cfg.nSlots < ceilDiv s.regs.len.toNat s.cfg.fdMax) ∧
    (let s := withPayload [] 60 5
     s.cfg.pmemSize < s.regs.addr.toNat + s.regs.len.toNat) := by decide

/-- ChunkThenReassemble: the two commands it runs answer next states. -/
theorem witness_chunkBuf_totlen :
    ∃ t1 t2, exec .chunkBuf (withPayload payload6 0 6) = .next t1 ∧ exec .totlen t1 = .next t2 :=
  ⟨_, _, rfl, rfl⟩

/-- ChunkSrcEndsOnAShortRead: the sources of V6.10 and V6.11, and an empty one. -/
theorem witness_chunkSrc_short :
    (let s := withSource 16 [.ok [0x20, 0x21, 0x22, 0x23], .ok [0x24], .err]
     let full : List (List Byte) := [[0x20, 0x21, 0x22, 0x23]]
     s.cfg.Valid ∧ s.StoreWf ∧ ceilDiv s.regs.len.toNat s.cfg.fdMax ≤ s.cfg.nSlots ∧
       (∀ b ∈ full, b.length = s.cfg.fdMax) ∧ full.length * s.cfg.fdMax < s.regs.len.toNat ∧
       ([0x24] : List Byte).length < min s.cfg.fdMax (s.regs.len.toNat - full.length * s.cfg.fdMax) ∧
       ([] : List Byte).length < min s.cfg.fdMax (s.regs.len.toNat - full.length * s.cfg.fdMax) ∧
       s.src.queue = full.map .ok ++ .ok [0x24] :: [.err]) ∧
    (let s := withSource 1 [.ok []]
     0 * s.cfg.fdMax < s.regs.len.toNat ∧
       ([] : List Byte).length < min s.cfg.fdMax (s.regs.len.toNat - 0 * s.cfg.fdMax) ∧
       s.src.queue = ([] : List (List Byte)).map .ok ++ .ok [] :: []) := by decide

/-- ChunkSrcStopsAtTheLimit: the source of V6.13 cut into its answers, and a full last frame. -/
theorem witness_chunkSrc_limit :
    (let s := withSource 6 [.ok [0x20, 0x21, 0x22, 0x23], .ok [0x24, 0x25]]
     let full : List (List Byte) := [[0x20, 0x21, 0x22, 0x23]]
     s.cfg.Valid ∧ s.StoreWf ∧ ceilDiv s.regs.len.toNat s.cfg.fdMax ≤ s.cfg.nSlots ∧
       (∀ b ∈ full, b.length = s.cfg.fdMax) ∧ full.length * s.cfg.fdMax < s.regs.len.toNat ∧
       full.length * s.cfg.fdMax + ([0x24, 0x25] : List Byte).length = s.regs.len.toNat ∧
       ([0x24, 0x25] : List Byte).length ≤ s.cfg.fdMax ∧
       s.src.queue = full.map .ok ++ .ok [0x24, 0x25] :: []) ∧
    (let s := withSource 4 [.ok [1, 2, 3, 4]]
     0 * s.cfg.fdMax < s.regs.len.toNat ∧
       0 * s.cfg.fdMax + ([1, 2, 3, 4] : List Byte).length = s.regs.len.toNat ∧
       ([1, 2, 3, 4] : List Byte).length ≤ s.cfg.fdMax) := by decide

/-- ChunkSrcFailures: the sources of V6.16, V6.17 and V6.18, and an error in the last slot. -/
theorem witness_chunkSrc_failures :
    (let s := withSource 17 []
     s.cfg.nSlots < ceilDiv s.regs.len.toNat s.cfg.fdMax) ∧
    (withSource 0 []).regs.len = 0 ∧
    (let full : List (List Byte) := [[1, 2, 3, 4], [1, 2, 3, 4], [1, 2, 3, 4]]
     let s := withSource 16 (full.map .ok ++ [.err])
     s.cfg.Valid ∧ s.StoreWf ∧ ceilDiv s.regs.len.toNat s.cfg.fdMax ≤ s.cfg.nSlots ∧
       (∀ b ∈ full, b.length = s.cfg.fdMax) ∧ full.length * s.cfg.fdMax < s.regs.len.toNat ∧
       s.src.queue = full.map .ok ++ .err :: []) := by decide

/-- TotlenEffect, InitEffect, StampAllEffect: COUNT at `S` and one above. -/
theorem witness_count : State.reset.cfg.Valid ∧ State.reset.StoreWf ∧
    (withRegs { State.reset.regs with count := 4 }).regs.count.toNat ≤ State.reset.cfg.nSlots ∧
    State.reset.cfg.nSlots < (withRegs { State.reset.regs with count := 5 }).regs.count.toNat ∧
    State.reset.regs.count.toNat = 0 := by decide

/-- ReasmEffect: a frame set that ends where PMEM ends, one byte further, and a `data_len` above `F`. -/
theorem witness_reasm :
    (let s := { chunked6 with regs := { chunked6.regs with addr := 58 } }
     s.cfg.Valid ∧ s.StoreWf ∧ s.regs.count.toNat ≤ s.cfg.nSlots ∧
       (∀ i, i < s.regs.count.toNat → (s.slot i).dataLen.toNat ≤ s.cfg.fdMax) ∧
       s.regs.addr.toNat +
         ((List.range 2).map (fun j => (s.slot j).dataLen.toNat)).sum ≤ s.cfg.pmemSize) ∧
    (let s := { chunked6 with regs := { chunked6.regs with addr := 59 } }
     s.cfg.pmemSize < s.regs.addr.toNat +
       ((List.range 2).map (fun j => (s.slot j).dataLen.toNat)).sum) ∧
    (let s := State.setSlot { State.reset with regs := { State.reset.regs with count := 1 } } 0
       { slot31 with dataLen := 5 }
     ∃ i, i < s.regs.count.toNat ∧ s.cfg.fdMax < (s.slot i).dataLen.toNat) :=
  ⟨by decide, by decide, 0, by decide, by decide⟩

/-- DgetEffect, DputEffect: the last window inside PMEM, the first that is not. -/
theorem witness_window : (withPayload [] 60 0).StoreWf ∧ 3 < State.reset.cfg.nSlots ∧
    (withPayload [] 60 0).regs.addr.toNat + State.reset.cfg.fdMax ≤ State.reset.cfg.pmemSize ∧
    State.reset.cfg.pmemSize < (withPayload [] 61 0).regs.addr.toNat + State.reset.cfg.fdMax ∧
    State.reset.cfg.nSlots ≤ 4 := by decide

/-- ChunkedFrameSetInvariants: a successful run of each chunk command. -/
theorem witness_chunked :
    chunked6.stat.err = 0 ∧ (withPayload payload6 0 6).StoreWf ∧
    (run [.chunkSrc] (withSource 5 [.ok [1, 2, 3, 4], .ok [5]])).stat.err = 0 ∧
    (withSource 5 [.ok [1, 2, 3, 4], .ok [5]]).StoreWf ∧ Config.cfg4.Valid := by decide

end Sys2Proof.Tests
end

section
/-! PROOFS. The host's register accesses (10_state.md R35): which numbers name a register, which registers
keep what is written to them and at what width, and what every other register then shows. -/

namespace Sys2Proof.Machine

/-- The width of a register that keeps what the host writes to it: an operand register or WLEN
(10_state.md R35). CMD, STAT and the configuration registers keep nothing. -/
def RegName.keptWidth : RegName → Option Nat
  | .HDR | .NFILE | .TLEN | .ADDR | .LEN | .WLEN => some 32
  | .NTOTAL | .COUNT | .P24 => some 24
  | .NFRAME | .STATUS | .DLEN | .CSUM | .ID => some 16
  | .FLAG => some 8
  | .CMD | .STAT | .VERSION | .CFG_FDMAX | .CFG_SLOTS | .CFG_PMEM | .CFG_MAGIC | .CFG_CRC0 | .CFG_CRC1
  | .CFG_SEQ => none

/-- `RegName.keptWidth` by register number; none for an unimplemented number too. -/
def keptWidthAt (n : Nat) : Option Nat := (regOfNumber n).bind RegName.keptWidth

theorem number_of_regOfNumber {n : Nat} {r : RegName} (h : regOfNumber n = some r) : r.number = n := by
  unfold regOfNumber at h
  split at h <;> cases h <;> rfl

theorem RegName.ne_cmd_of_keptWidth {r : RegName} {N : Nat} (h : r.keptWidth = some N) : r ≠ .CMD := by
  rintro rfl
  cases h

theorem State.regRead_of_some (s : State) {n : Nat} {r : RegName} (h : regOfNumber n = some r) :
    s.regRead n = s.readReg r := by
  simp only [regRead, h]

theorem State.regRead_of_none (s : State) {n : Nat} (h : regOfNumber n = none) : s.regRead n = 0 := by
  simp only [regRead, h]

theorem State.regWrite_of_some (s : State) (v : Word) {n : Nat} {r : RegName}
    (h : regOfNumber n = some r) : s.regWrite n v = s.writeReg v r := by
  simp only [regWrite, h]

theorem State.regWrite_of_none (s : State) (v : Word) {n : Nat} (h : regOfNumber n = none) :
    s.regWrite n v = .next s := by
  simp only [regWrite, h]

theorem State.writeReg_answers (s : State) (v : Word) {r : RegName} (hr : r ≠ .CMD) :
    ∃ t, s.writeReg v r = .next t := by
  cases r with
  | CMD => exact absurd rfl hr
  | _ => exact ⟨_, rfl⟩

theorem State.writeReg_ignored (s : State) (v : Word) {r : RegName} (hN : r.keptWidth = none)
    (hr : r ≠ .CMD) : s.writeReg v r = .next s := by
  cases r with
  | CMD => exact absurd rfl hr
  | STAT | VERSION | CFG_FDMAX | CFG_SLOTS | CFG_PMEM | CFG_MAGIC | CFG_CRC0 | CFG_CRC1 | CFG_SEQ => rfl
  | _ => cases hN

/-- What a read shows of a truncated write: `trunc_N(v)` widened with zeros is `v mod 2^N`. -/
theorem toNat_widen_trunc (v : Word) {N : Nat} (hN : N ≤ 32) :
    ((v.setWidth N).setWidth 32).toNat = v.toNat % 2 ^ N := by
  rw [BitVec.toNat_setWidth_of_le hN, BitVec.toNat_setWidth]

theorem State.readReg_writeReg_same {s t : State} {v : Word} {r : RegName} {N : Nat}
    (hN : r.keptWidth = some N) (h : s.writeReg v r = .next t) :
    (t.readReg r).toNat = v.toNat % 2 ^ N := by
  cases r with
  | HDR | NFILE | TLEN | ADDR | LEN | WLEN =>
    cases hN; cases h; exact (Nat.mod_eq_of_lt v.isLt).symm
  | NFRAME | STATUS | NTOTAL | FLAG | DLEN | CSUM | ID | COUNT | P24 =>
    cases hN; cases h; exact toNat_widen_trunc v (by decide)
  | _ => cases hN

theorem State.readReg_writeReg_other {s t : State} {v : Word} {q r : RegName} (hr : r ≠ .CMD)
    (hq : q ≠ r) (h : s.writeReg v r = .next t) : t.readReg q = s.readReg q := by
  cases r with
  | CMD => exact absurd rfl hr
  | _ => cases h; cases q <;> first | rfl | exact absurd rfl hq

/-- The frame of `writeReg_cases` as an equation without the written state's registers. -/
theorem State.writeReg_frame {s t : State} {v : Word} {r : RegName} (hr : r ≠ .CMD)
    (h : s.writeReg v r = .next t) : { t with regs := s.regs, wlen := s.wlen } = s :=
  congrArg (fun u : State => { u with regs := s.regs, wlen := s.wlen }) (s.writeReg_cases t v r hr h)

/-- R35, a register that keeps the write: `x[n] <- trunc_N(v)` and nothing else changes. -/
theorem State.regWrite_kept (s : State) (v : Word) {n N : Nat} (hN : keptWidthAt n = some N) :
    ∃ t, s.regWrite n v = .next t ∧ (t.regRead n).toNat = v.toNat % 2 ^ N ∧
      (∀ m, m ≠ n → t.regRead m = s.regRead m) ∧ { t with regs := s.regs, wlen := s.wlen } = s := by
  obtain ⟨r, hn, hr⟩ := Option.bind_eq_some_iff.mp hN
  have hcmd := RegName.ne_cmd_of_keptWidth hr
  obtain ⟨t, ht⟩ := s.writeReg_answers v hcmd
  refine ⟨t, (s.regWrite_of_some v hn).trans ht, ?_, fun m hm => ?_, writeReg_frame hcmd ht⟩
  · rw [t.regRead_of_some hn]
    exact readReg_writeReg_same hr ht
  · cases hq : regOfNumber m with
    | none => rw [t.regRead_of_none hq, s.regRead_of_none hq]
    | some q =>
      have hne : q ≠ r := by
        rintro rfl
        exact hm ((number_of_regOfNumber hq).symm.trans (number_of_regOfNumber hn))
      rw [t.regRead_of_some hq, s.regRead_of_some hq]
      exact readReg_writeReg_other hcmd hne ht

/-- R35 and R45, a number other than CMD's that keeps nothing ignores the write. -/
theorem State.regWrite_ignored (s : State) (v : Word) {n : Nat} (hN : keptWidthAt n = none)
    (hn : n ≠ 16) : s.regWrite n v = .next s := by
  cases hr : regOfNumber n with
  | none => exact s.regWrite_of_none v hr
  | some r =>
    have hkept : r.keptWidth = none := by simpa [keptWidthAt, hr] using hN
    have hcmd : r ≠ .CMD := by
      rintro rfl
      exact hn (number_of_regOfNumber hr).symm
    exact (s.regWrite_of_some v hr).trans (s.writeReg_ignored v hkept hcmd)

theorem perform_regRead (s : State) {n : Nat} (hn : n < 32) :
    perform s (.regRead n) = .next (s.report (s.regRead n)) := if_pos hn

theorem perform_regWrite (s : State) (v : Word) {n : Nat} (hn : n < 32) :
    perform s (.regWrite n v) = s.regWrite n v := if_pos hn

/-- The unimplemented numbers of 10_state.md R35. -/
theorem regOfNumber_unimplemented :
    ∀ n ∈ [14, 15, 19, 20, 21, 22, 23], regOfNumber n = none := by decide

/-- STAT and the configuration registers, by number (10_state.md R38, R45). -/
theorem keptWidthAt_readOnly :
    ∀ n ∈ [17, 24, 25, 26, 27, 28, 29, 30, 31], keptWidthAt n = none ∧ n ≠ 16 := by decide

/-- The widths of the operand registers and WLEN (10_state.md R21 to R34, R39). -/
theorem keptWidthAt_table :
    ∀ p ∈ [(0, 32), (1, 32), (2, 16), (3, 16), (4, 24), (5, 8), (6, 32), (7, 16), (8, 16), (9, 16),
      (10, 24), (11, 32), (12, 32), (13, 24), (18, 32)], keptWidthAt p.1 = some p.2 := by decide

/-- Settles O8: the register map gives each number's class (kept at a width, read-only, unimplemented, or
CMD), and each class has its own rule of reading and writing. -/
theorem hostRegisterAccess : Obligations.HostRegisterAccess := by
  intro s v
  refine ⟨fun n hn => ⟨perform_regRead s hn, perform_regWrite s v hn⟩, rfl, rfl, rfl, fun n hn => ?_,
    ⟨rfl, rfl⟩, fun n hn => ?_, fun p hp => ?_⟩
  · have hnone := regOfNumber_unimplemented n hn
    exact ⟨s.regRead_of_none hnone, s.regWrite_of_none v hnone⟩
  · obtain ⟨hkept, hcmd⟩ := keptWidthAt_readOnly n hn
    exact s.regWrite_ignored v hkept hcmd
  · obtain ⟨t, ht, hsame, hother, hframe⟩ := s.regWrite_kept v (keptWidthAt_table p hp)
    exact ⟨t, ht, hsame, fun m _ hm => hother m hm, hframe⟩

end Sys2Proof.Machine
end

section
/-! PROOFS. The host's byte accesses to PMEM and WBUF (20_memory.md R61, R62): what an access answers on
either side of the bound, and what a memory reads as after the write of one byte. -/

namespace Sys2Proof.Machine

theorem Memory.writeBytes_singleton (m : Memory) (a : Nat) (b : Byte) :
    m.writeBytes a [b] = m.write a b := rfl

theorem Memory.read_writeBytes_singleton_same (m : Memory) (a : Nat) (b : Byte) :
    (m.writeBytes a [b]).read a = b := by
  rw [writeBytes_singleton, read_write, if_pos rfl]

theorem Memory.read_writeBytes_singleton_other (m : Memory) {a x : Nat} (b : Byte) (hx : x ≠ a) :
    (m.writeBytes a [b]).read x = m.read x := by
  rw [writeBytes_singleton, read_write, if_neg hx]

theorem State.writePmem_frame (s : State) (a : Nat) (b : List Byte) :
    { s.writePmem a b with pmem := s.pmem } = s := rfl

theorem State.writeWbuf_frame (s : State) (a : Nat) (b : List Byte) :
    { s.writeWbuf a b with wbuf := s.wbuf } = s := rfl

section Access

variable (s : State) {a : Nat} (b : Byte)

theorem perform_pmemRead (ha : a < s.cfg.pmemSize) :
    perform s (.pmemRead a) = .next (s.report ((s.pmem.read a).setWidth 32)) := if_pos ha

theorem perform_pmemRead_outside (ha : s.cfg.pmemSize ≤ a) :
    perform s (.pmemRead a) = .refused (.pmemOutsideMap a) := if_neg (Nat.not_lt.mpr ha)

theorem perform_pmemWrite (ha : a < s.cfg.pmemSize) :
    perform s (.pmemWrite a b) = .next (s.writePmem a [b]) := if_pos ha

theorem perform_pmemWrite_outside (ha : s.cfg.pmemSize ≤ a) :
    perform s (.pmemWrite a b) = .refused (.pmemOutsideMap a) := if_neg (Nat.not_lt.mpr ha)

theorem perform_wbufRead (ha : a < 22 + s.cfg.fdMax) :
    perform s (.wbufRead a) = .next (s.report ((s.wbuf.read a).setWidth 32)) := if_pos ha

theorem perform_wbufRead_outside (ha : 22 + s.cfg.fdMax ≤ a) :
    perform s (.wbufRead a) = .refused (.wbufOutsideMap a) := if_neg (Nat.not_lt.mpr ha)

theorem perform_wbufWrite (ha : a < 22 + s.cfg.fdMax) :
    perform s (.wbufWrite a b) = .next (s.writeWbuf a [b]) := if_pos ha

theorem perform_wbufWrite_outside (ha : 22 + s.cfg.fdMax ≤ a) :
    perform s (.wbufWrite a b) = .refused (.wbufOutsideMap a) := if_neg (Nat.not_lt.mpr ha)

end Access

/-- Settles O11: each access splits on its bound, and a write inside it is a block write of one byte. -/
theorem hostAccessToMemories : Obligations.HostAccessToMemories := by
  intro s a b
  refine ⟨fun ha => ⟨perform_pmemRead s ha, s.writePmem a [b], perform_pmemWrite s b ha, ?_, ?_,
      s.writePmem_frame a [b]⟩,
    fun ha => ⟨perform_pmemRead_outside s ha, perform_pmemWrite_outside s b ha⟩,
    fun ha => ⟨perform_wbufRead s ha, s.writeWbuf a [b], perform_wbufWrite s b ha, ?_, ?_,
      s.writeWbuf_frame a [b]⟩,
    fun ha => ⟨perform_wbufRead_outside s ha, perform_wbufWrite_outside s b ha⟩⟩
  · exact s.pmem.read_writeBytes_singleton_same a b
  · exact fun x hx => s.pmem.read_writeBytes_singleton_other b hx
  · exact s.wbuf.read_writeBytes_singleton_same a b
  · exact fun x hx => s.wbuf.read_writeBytes_singleton_other b hx

end Sys2Proof.Machine
end

section
/-! PROOFS. The command word (30_encoding.md R100, R101): what the decoder answers in each case of its three
fields, which opcodes the map has in each format, and what the write of an illegal word or of a missing slot
does. -/

namespace Sys2Proof

/-! ### The decoder, case by case -/

theorem decode_of_reservedBits {w : Word} (hrsv : wordRsv w ≠ 0) :
    decode w = .error .reservedBitsSet := if_pos hrsv

theorem decode_of_unknownOpcode {w : Word} (hrsv : wordRsv w = 0)
    (hform : opcodeForm (wordOp w) = none) : decode w = .error .unknownOpcode := by
  simp only [decode, hrsv, hform, ne_eq, not_true_eq_false, if_false]

theorem decode_of_immediate {w : Word} {i : Instr} (hrsv : wordRsv w = 0)
    (hform : opcodeForm (wordOp w) = some (.formatN i)) (himm : wordImm w ≠ 0) :
    decode w = .error .immediateSet := by
  simp only [decode, hrsv, hform, ne_eq, not_true_eq_false, if_false]
  exact if_pos himm

theorem decode_of_formatN {w : Word} {i : Instr} (hrsv : wordRsv w = 0)
    (hform : opcodeForm (wordOp w) = some (.formatN i)) (himm : wordImm w = 0) :
    decode w = .ok i := by
  simp only [decode, hrsv, hform, himm, ne_eq, not_true_eq_false, if_false]

theorem decode_of_formatS {w : Word} {mk : Nat → Instr} (hrsv : wordRsv w = 0)
    (hform : opcodeForm (wordOp w) = some (.formatS mk)) :
    decode w = .ok (mk (wordImm w).toNat) := by
  simp only [decode, hrsv, hform, ne_eq, not_true_eq_false, if_false]

theorem slotOperand_of_formatS {op : Byte} {mk : Nat → Instr}
    (hform : opcodeForm op = some (.formatS mk)) (k : Nat) : (mk k).slotOperand = some k := by
  unfold opcodeForm at hform
  split at hform <;> cases hform <;> rfl

/-! ### The masks of the opcode map -/

theorem and_maskN (w : Word) : w &&& 0xFFFFFFFF#32 = w := BitVec.and_allOnes

theorem toNat_and_maskS (w : Word) : (w &&& 0x0000FFFF#32).toNat = w.toNat % 65536 :=
  Nat.and_two_pow_sub_one_eq_mod w.toNat 16

/-- Format S leaves only the immediate free, so its mask keeps the other two fields. -/
theorem fields_and_maskS (w : Word) :
    wordOp (w &&& 0x0000FFFF#32) = wordOp w ∧ wordRsv (w &&& 0x0000FFFF#32) = wordRsv w := by
  obtain ⟨hop, hrsv, -⟩ := fields_toNat w
  obtain ⟨hop', hrsv', -⟩ := fields_toNat (w &&& 0x0000FFFF#32)
  rw [toNat_and_maskS] at hop' hrsv'
  constructor <;> apply BitVec.eq_of_toNat_eq <;> omega

end Sys2Proof

namespace Sys2Proof.Machine

/-! ### Legal and illegal words -/

/-- Each opcode is of format N, of format S or unknown, by the decoder's map as by the two lists of R100. -/
theorem opcodeForm_cases (op : Byte) :
    (op.toNat ∈ opcodesN ∧ ∃ i, opcodeForm op = some (.formatN i)) ∨
      ((op.toNat ∈ opcodesS ∧ op.toNat ∉ opcodesN) ∧ ∃ mk, opcodeForm op = some (.formatS mk)) ∨
      ((op.toNat ∉ opcodesN ∧ op.toNat ∉ opcodesS) ∧ opcodeForm op = none) := by
  unfold opcodeForm
  split <;> simp_all [opcodesN, opcodesS]

theorem opcodesS_not_formatN {n : Nat} (h : n ∈ opcodesS) : n ∉ opcodesN := by
  revert n
  decide

/-- R101 in the fields of the word. -/
theorem illegalByRule_iff_fields (w : Word) :
    IllegalByRule w ↔ wordRsv w ≠ 0 ∨
      ((wordOp w).toNat ∉ opcodesN ∧ (wordOp w).toNat ∉ opcodesS) ∨
      ((wordOp w).toNat ∈ opcodesN ∧ wordImm w ≠ 0) := by
  obtain ⟨hop, hrsv, himm⟩ := fields_toNat w
  rw [IllegalByRule, hop, ← hrsv, ← himm, BitVec.toNat_ne_iff_ne.symm, BitVec.toNat_ne_iff_ne.symm]
  rfl

theorem illegalByRule_iff_decode_error (w : Word) : IllegalByRule w ↔ ∃ e, decode w = .error e := by
  rw [illegalByRule_iff_fields]
  by_cases hrsv : wordRsv w = 0
  · rcases opcodeForm_cases (wordOp w) with ⟨hN, i, hform⟩ | ⟨⟨hS, hN⟩, mk, hform⟩ | ⟨hnone, hform⟩
    · by_cases himm : wordImm w = 0
      · simp [decode_of_formatN hrsv hform himm, hrsv, hN, himm]
      · exact iff_of_true (.inr (.inr ⟨hN, himm⟩)) ⟨_, decode_of_immediate hrsv hform himm⟩
    · simp [decode_of_formatS hrsv hform, hrsv, hS, hN]
    · exact iff_of_true (.inr (.inl hnone)) ⟨_, decode_of_unknownOpcode hrsv hform⟩
  · exact iff_of_true (.inl hrsv) ⟨_, decode_of_reservedBits hrsv⟩

/-- A legal word whose opcode is of format S decodes to a command with slot operand `w[31:16]`. -/
theorem decode_slot_of_legal {w : Word} (hw : ¬ IllegalByRule w) (hS : w.toNat % 256 ∈ opcodesS) :
    ∃ i, decode w = .ok i ∧ i.slotOperand = some (w.toNat / 65536) := by
  obtain ⟨hop, -, himm⟩ := fields_toNat w
  rw [← hop] at hS
  have hrsv : wordRsv w = 0 := by
    by_contra hrsv
    exact hw ((illegalByRule_iff_fields w).2 (.inl hrsv))
  rcases opcodeForm_cases (wordOp w) with ⟨hN, -⟩ | ⟨-, mk, hform⟩ | ⟨⟨-, hnot⟩, -⟩
  · exact absurd hN (opcodesS_not_formatN hS)
  · exact ⟨_, decode_of_formatS hrsv hform, himm ▸ slotOperand_of_formatS hform _⟩
  · exact absurd hS hnot

/-! ### What writing the word does -/

theorem State.raise_eq_afterError (s : State) (e : ErrCode) : s.raise e = s.afterError e.code.toNat := by
  cases e <;> rfl

theorem State.runCommand_of_error (s : State) {w : Word} {e : IllegalWord} (h : decode w = .error e) :
    s.runCommand w = .next (s.raise .illegal) := by
  simp only [runCommand, h]

theorem State.runCommand_of_ok (s : State) {w : Word} {i : Instr} (h : decode w = .ok i) :
    s.runCommand w = exec i s := by
  simp only [runCommand, h]

/-- Every format-S command tests its slot first: a slot of `S` or more raises RANGE (20_memory.md R75). -/
theorem exec_of_missing_slot {i : Instr} {s : State} {k : Nat} (hi : i.slotOperand = some k)
    (hk : ¬ s.hasSlot k) : exec i s = .next (s.raise .range) := by
  cases i with
  | serData | desData | stamp | fget | fput | dget | dput => cases hi; exact if_neg hk
  | _ => cases hi

/-- Settles O3: R101 is the decoder's case split, and a legal format-S word runs a command whose first test
is its slot's. -/
theorem illegalWordsAndOnlyThoseRaiseIllegal : Obligations.IllegalWordsAndOnlyThoseRaiseIllegal := by
  refine ⟨illegalByRule_iff_decode_error, fun s w hw => ?_, fun s w hw hS hk => ?_⟩
  · obtain ⟨e, he⟩ := (illegalByRule_iff_decode_error w).1 hw
    rw [s.runCommand_of_error he]
    exact congrArg _ (s.raise_eq_afterError .illegal)
  · obtain ⟨i, hi, hslot⟩ := decode_slot_of_legal hw hS
    rw [s.runCommand_of_ok hi, exec_of_missing_slot hslot (Nat.not_lt.mpr hk)]
    exact congrArg _ (s.raise_eq_afterError .range)

/-! ### The opcode map, row by row -/

/-- A word selects a row of format S by its mask: the row's word has the opcode, and the slot is free. -/
theorem decode_of_row_formatS {w m : Word} {mk : Nat → Instr} (hsel : w &&& 0x0000FFFF#32 = m)
    (hrsv : wordRsv m = 0) (hform : opcodeForm (wordOp m) = some (.formatS mk)) :
    decode w = .ok (mk (w.toNat / 65536)) := by
  obtain ⟨hop, hrsv'⟩ := fields_and_maskS w
  obtain ⟨-, -, himm⟩ := fields_toNat w
  rw [hsel] at hop hrsv'
  rw [← himm]
  exact decode_of_formatS (hrsv' ▸ hrsv) (hop ▸ hform)

/-- Rows whose match words are the opcodes of R100 miss only illegal words: a legal word is its opcode alone
(format N), or its opcode and a slot (format S). -/
theorem illegalByRule_of_no_row {α β : Type} {rowsN : List (Word × α)} {rowsS : List (Word × β)}
    (hN : rowsN.map (·.1.toNat) = opcodesN) (hS : rowsS.map (·.1.toNat) = opcodesS) {w : Word}
    (hnoN : ∀ r ∈ rowsN, w &&& 0xFFFFFFFF#32 ≠ r.1) (hnoS : ∀ r ∈ rowsS, w &&& 0x0000FFFF#32 ≠ r.1) :
    IllegalByRule w := by
  by_contra hw
  obtain ⟨hrsv, hknown, himm⟩ : w.toNat / 256 % 256 = 0 ∧
      (w.toNat % 256 ∈ opcodesN ∨ w.toNat % 256 ∈ opcodesS) ∧
      (w.toNat % 256 ∈ opcodesN → w.toNat / 65536 = 0) := by
    rw [IllegalByRule] at hw
    tauto
  rcases hknown with hop | hop
  · have hword : w.toNat % 256 = w.toNat := by have := himm hop; omega
    obtain ⟨r, hr, heq⟩ := List.mem_map.1 (hN ▸ hop)
    exact hnoN r hr ((and_maskN w).trans (BitVec.eq_of_toNat_eq (heq.trans hword).symm))
  · have hword : w.toNat % 256 = w.toNat % 65536 := by omega
    obtain ⟨r, hr, heq⟩ := List.mem_map.1 (hS ▸ hop)
    exact hnoS r hr (BitVec.eq_of_toNat_eq
      ((toNat_and_maskS w).trans (heq.trans hword).symm))

/-- Settles O4: a row of format N is one word, a row of format S leaves the slot free, and the match words
are exactly the opcodes of R101. -/
theorem opcodeMapSelectsTheCommand : Obligations.OpcodeMapSelectsTheCommand := by
  unfold Obligations.OpcodeMapSelectsTheCommand
  intro rowsN rowsS
  have hN : ∀ r ∈ rowsN, mnemonic r.2.2 = r.2.1 ∧ decode r.1 = .ok r.2.2 := by
    simp only [rowsN]
    decide
  have hS : ∀ r ∈ rowsS, (∀ k, mnemonic (r.2.2 k) = r.2.1) ∧ wordRsv r.1 = 0 ∧
      opcodeForm (wordOp r.1) = some (.formatS r.2.2) := by
    simp only [rowsS, List.forall_mem_cons]
    exact ⟨⟨fun _ => rfl, rfl, rfl⟩, ⟨fun _ => rfl, rfl, rfl⟩, ⟨fun _ => rfl, rfl, rfl⟩,
      ⟨fun _ => rfl, rfl, rfl⟩, ⟨fun _ => rfl, rfl, rfl⟩, ⟨fun _ => rfl, rfl, rfl⟩,
      ⟨fun _ => rfl, rfl, rfl⟩, List.forall_mem_nil _⟩
  refine ⟨fun r hr => ?_, fun r hr => ?_, fun w hnoN hnoS => ?_⟩
  · obtain ⟨hname, hdecode⟩ := hN r hr
    exact ⟨hname, fun w hw => by rw [← hdecode, ← hw, and_maskN]⟩
  · obtain ⟨hname, hrsv, hform⟩ := hS r hr
    exact ⟨hname, fun w hw => decode_of_row_formatS hw hrsv hform⟩
  · have hw : IllegalByRule w := illegalByRule_of_no_row rfl rfl hnoN hnoS
    exact ⟨hw, (illegalByRule_iff_decode_error w).1 hw⟩

end Sys2Proof.Machine
end

section
/-! PROOFS. The wire images (30_encoding.md R110, R111): the piece of the image that holds each field, and
the bytes of a field from its piece. -/

namespace Sys2Proof.Machine

theorem leBytes_getD_byteOf {n : Nat} (v : BitVec n) {m k : Nat} (hk : k < m) :
    (leBytes m v.toNat).getD k 0#8 = byteOf n v k := by
  rw [leBytes_getD m v.toNat k hk]
  apply BitVec.eq_of_toNat_eq
  rw [BitVec.toNat_ofNat, BitVec.extractLsb'_toNat, Nat.shiftRight_eq_div_pow, pow_mul]
  rfl

/-- The bytes of a little-endian field, where its piece of the image is known. -/
theorem getD_of_slice_eq_leBytes {b : List Byte} {i m n k : Nat} {v : BitVec n}
    (h : slice b i m = leBytes m v.toNat) (hk : k < m) : b.getD (i + k) 0#8 = byteOf n v k := by
  rw [← leBytes_getD_byteOf v hk, ← h, slice_getD, if_pos hk]

theorem wireCtrl_pieces (f : CtrlFrame) :
    slice (wireCtrl f) 0 4 = f.header.bytes ∧ slice (wireCtrl f) 4 4 = leBytes 4 f.nFile.toNat ∧
      slice (wireCtrl f) 8 2 = leBytes 2 f.nFrame.toNat ∧
      slice (wireCtrl f) 10 2 = leBytes 2 f.status.toNat ∧
      slice (wireCtrl f) 12 2 = leBytes 2 f.checksum.toNat := ⟨rfl, rfl, rfl, rfl, rfl⟩

/-- The fields before `data` stand at fixed offsets. -/
theorem wireData_head_pieces (f : Slot) :
    slice (wireData f) 0 4 = f.header.bytes ∧ slice (wireData f) 4 4 = leBytes 4 f.nFile.toNat ∧
      slice (wireData f) 8 2 = leBytes 2 f.nFrame.toNat ∧
      slice (wireData f) 10 3 = leBytes 3 f.nTotal.toNat ∧ (wireData f).getD 13 0#8 = f.flag ∧
      slice (wireData f) 14 4 = leBytes 4 f.totalLen.toNat ∧
      slice (wireData f) 18 2 = leBytes 2 f.dataLen.toNat := ⟨rfl, rfl, rfl, rfl, rfl, rfl, rfl⟩

theorem wireData_data_piece (f : Slot) : slice (wireData f) 20 f.data.length = f.data := by
  rw [wireData, bodyData, List.append_assoc, ← headData_length f, ← Nat.add_zero (headData f).length,
    slice_append_right, slice_append_left]

theorem wireData_checksum_piece (f : Slot) :
    slice (wireData f) (20 + f.data.length) 2 = leBytes 2 f.checksum.toNat := by
  rw [wireData, ← bodyData_length f, ← Nat.add_zero (bodyData f).length, slice_append_right]
  rfl

/-- Settles O24: each field's bytes are those of its piece. -/
theorem controlFrameWireImage : Obligations.ControlFrameWireImage := by
  intro f
  obtain ⟨hheader, hnFile, hnFrame, hstatus, hchecksum⟩ := wireCtrl_pieces f
  exact ⟨wireCtrl_length f, (List.take_left' (bodyCtrl_length f)).symm, hheader,
    fun k => getD_of_slice_eq_leBytes hnFile, fun k => getD_of_slice_eq_leBytes hnFrame,
    fun k => getD_of_slice_eq_leBytes hstatus, fun k => getD_of_slice_eq_leBytes hchecksum⟩

/-- Settles O25: as for the Control Frame, with `data` and the checksum at offsets that depend on `F`. -/
theorem dataFrameWireImage : Obligations.DataFrameWireImage := by
  rintro _ f rfl
  obtain ⟨hheader, hnFile, hnFrame, hnTotal, hflag, htotalLen, hdataLen⟩ := wireData_head_pieces f
  refine ⟨wireData_length f, (List.take_left' (bodyData_length f)).symm, hheader,
    fun k => getD_of_slice_eq_leBytes hnFile, fun k => getD_of_slice_eq_leBytes hnFrame,
    fun k => getD_of_slice_eq_leBytes hnTotal, hflag, fun k => getD_of_slice_eq_leBytes htotalLen,
    fun k => getD_of_slice_eq_leBytes hdataLen, fun j hj => ?_,
    fun k => getD_of_slice_eq_leBytes (wireData_checksum_piece f)⟩
  calc (wireData f).getD (20 + j) 0#8
      = (slice (wireData f) 20 f.data.length).getD j 0#8 := by rw [slice_getD, if_pos hj]
    _ = f.data.getD j 0#8 := by rw [wireData_data_piece]

end Sys2Proof.Machine
end

section
/-! PROOFS. The checksum function (40_checksum.md R131 to R133): its right-shift form, and that no step of its
register loses information once `POLY[0] = 1`. -/

namespace Sys2Proof

theorem repeat_eq_iterate {α : Type} (f : α → α) (n : Nat) : Nat.repeat f n = f^[n] := by
  funext x
  induction n with
  | zero => rfl
  | succ n ih => rw [Function.iterate_succ_apply', ← ih]; rfl

/-! ### The right-shift form -/

theorem reverse_xor {w : Nat} (a b : BitVec w) : (a ^^^ b).reverse = a.reverse ^^^ b.reverse := by
  apply BitVec.eq_of_getLsbD_eq
  intro i hi
  simp only [BitVec.getLsbD_xor, BitVec.getLsbD_reverse, BitVec.getMsbD_xor]

theorem reverse_shiftLeft_one (r : Half) : (r <<< 1).reverse = r.reverse >>> 1 := by
  apply BitVec.eq_of_getLsbD_eq
  intro i hi
  simp only [BitVec.getLsbD_reverse, BitVec.getMsbD_shiftLeft, BitVec.getLsbD_ushiftRight, Nat.add_comm]

theorem reverse_byte_high (b : Byte) : (b.setWidth 16 <<< 8).reverse = b.reverse.setWidth 16 := by
  apply BitVec.eq_of_getLsbD_eq
  intro i hi
  simp only [BitVec.getLsbD_reverse, BitVec.getMsbD_shiftLeft, BitVec.getMsbD_setWidth,
    BitVec.getLsbD_setWidth]
  simp [hi]

/-- One of the eight shifts of 40_checksum.md R132: `crcShift` with the bit order of the register and of the
polynomial reversed (`reverse_crcShift`). -/
def crcShiftRight (poly reg : Half) : Half :=
  if reg.getLsbD 0 then (reg >>> 1) ^^^ poly else reg >>> 1

/-- The register after one byte in the right-shift form (40_checksum.md R132). -/
def crcByteRight (poly reg : Half) (b : Byte) : Half :=
  Nat.repeat (crcShiftRight poly) 8 (reg ^^^ b.setWidth 16)

theorem reverse_crcShift (poly reg : Half) :
    (crcShift poly reg).reverse = crcShiftRight poly.reverse reg.reverse := by
  have hbit : reg.reverse.getLsbD 0 = reg.getLsbD 15 := BitVec.getLsbD_reverse
  rw [crcShift, crcShiftRight, hbit, apply_ite BitVec.reverse, reverse_xor, reverse_shiftLeft_one]

theorem reverse_crcByte {c : CrcParams} (hin : c.refIn = true) (reg : Half) (b : Byte) :
    (crcByte c reg b).reverse = crcByteRight c.poly.reverse reg.reverse b := by
  have hshifts : Function.Semiconj BitVec.reverse (crcShift c.poly)^[8] (crcShiftRight c.poly.reverse)^[8] :=
    Function.Semiconj.iterate_right (reverse_crcShift c.poly) 8
  simp only [crcByte, crcByteRight, repeat_eq_iterate, hin, if_true]
  rw [hshifts, reverse_xor, reverse_byte_high, BitVec.reverse_reverse_eq]

/-- A checksum that reflects its input and its output is the right-shift loop on the reversed constants. -/
theorem crc16_reflected {c : CrcParams} (hin : c.refIn = true) (hout : c.refOut = true) (bytes : List Byte) :
    crc16 c bytes = bytes.foldl (crcByteRight c.poly.reverse) c.init.reverse ^^^ c.xorOut := by
  have hfold := List.foldl_hom BitVec.reverse (l := bytes) (init := c.init)
    (fun reg b => (reverse_crcByte hin reg b).symm)
  rw [crc16, hout, hfold]
  rfl

theorem crc16_arc (bytes : List Byte) :
    crc16 CrcParams.arc bytes = bytes.foldl (crcByteRight 0xA001#16) 0#16 := by
  have hpoly : CrcParams.arc.poly.reverse = 0xA001#16 := by decide
  have hinit : CrcParams.arc.init.reverse = 0#16 := by decide
  rw [crc16_reflected rfl rfl, hpoly, hinit]
  exact BitVec.xor_zero

/-- Settles O22: the right-shift form is `crc16_arc`; the other clauses are closed evaluations. -/
theorem crcArcByRightShifts : Obligations.CrcArcByRightShifts := by
  refine ⟨rfl, rfl, crc16_arc, ?_, ?_, ?_, ?_, ?_, ?_⟩ <;>
    exact (crc16_arc _).trans (by decide +kernel)

/-! ### Single-bit errors -/

/-- With `POLY[0] = 1` the low bit of the result is the bit that was shifted out. -/
theorem crcShift_getLsbD_zero {poly : Half} (hpoly : poly.getLsbD 0 = true) (reg : Half) :
    (crcShift poly reg).getLsbD 0 = reg.getLsbD 15 := by
  unfold crcShift
  split
  next htop => rw [BitVec.getLsbD_xor, hpoly, htop]; simp
  next htop => rw [Bool.eq_false_of_not_eq_true htop]; simp

theorem eq_of_shiftLeft_one_eq {a b : Half} (htop : a.getLsbD 15 = b.getLsbD 15)
    (h : a <<< 1 = b <<< 1) : a = b := by
  apply BitVec.eq_of_getLsbD_eq
  intro i hi
  by_cases hlast : i = 15
  · exact hlast ▸ htop
  · have hbit : (a <<< 1).getLsbD (i + 1) = (b <<< 1).getLsbD (i + 1) := by rw [h]
    have hin : i + 1 < 16 := by omega
    simp only [BitVec.getLsbD_shiftLeft, hin] at hbit
    simpa using hbit

theorem crcShift_injective {poly : Half} (hpoly : poly.getLsbD 0 = true) :
    Function.Injective (crcShift poly) := by
  intro a b h
  have htop : a.getLsbD 15 = b.getLsbD 15 := by
    rw [← crcShift_getLsbD_zero hpoly a, h, crcShift_getLsbD_zero hpoly b]
  refine eq_of_shiftLeft_one_eq htop ?_
  unfold crcShift at h
  rw [htop] at h
  split at h
  next => exact (BitVec.xor_left_inj poly).1 h
  next => exact h

theorem crcShifts_injective {poly : Half} (hpoly : poly.getLsbD 0 = true) :
    Function.Injective (Nat.repeat (crcShift poly) 8) := by
  rw [repeat_eq_iterate]
  exact (crcShift_injective hpoly).iterate 8

/-- The reflection `REFIN` and `REFOUT` switch on loses nothing. -/
theorem reverseIf_injective {w : Nat} (flag : Bool) :
    Function.Injective (fun v : BitVec w => if flag then v.reverse else v) := by
  cases flag with
  | false => exact Function.injective_id
  | true => exact Function.LeftInverse.injective (g := BitVec.reverse) fun _ => BitVec.reverse_reverse_eq

theorem byte_high_injective : Function.Injective (fun b : Byte => b.setWidth 16 <<< 8) := by
  intro a b h
  bv_omega

section PolyLowBit

variable {c : CrcParams} (hpoly : c.poly.getLsbD 0 = true)
include hpoly

theorem crcByte_injective_reg (b : Byte) : Function.Injective (fun reg => crcByte c reg b) := fun _ _ h =>
  (BitVec.xor_left_inj _).1 (crcShifts_injective hpoly h)

theorem crcByte_injective_byte (reg : Half) : Function.Injective (crcByte c reg) := fun _ _ h =>
  reverseIf_injective c.refIn (byte_high_injective ((BitVec.xor_right_inj reg).1 (crcShifts_injective hpoly h)))

theorem foldl_crcByte_injective (bytes : List Byte) : Function.Injective (bytes.foldl (crcByte c)) := by
  induction bytes with
  | nil => exact Function.injective_id
  | cons b bytes ih => exact ih.comp (crcByte_injective_reg hpoly b)

/-- With `POLY[0] = 1` the checksum determines each byte, given all the others. -/
theorem crc16_injective_byte (before after : List Byte) :
    Function.Injective (fun x => crc16 c (before ++ x :: after)) := by
  intro x y h
  simp only [crc16, List.foldl_append, List.foldl_cons] at h
  have hreg := reverseIf_injective c.refOut ((BitVec.xor_left_inj c.xorOut).1 h)
  exact crcByte_injective_byte hpoly _ (foldl_crcByte_injective hpoly after hreg)

end PolyLowBit

theorem flipped_bit_ne (x : Byte) {k : Nat} (hk : k < 8) : x ^^^ (1#8 <<< k) ≠ x := by
  intro h
  have hbit : (x ^^^ (1#8 <<< k)).getLsbD k = x.getLsbD k := by rw [h]
  simp [hk] at hbit

/-- Settles O23: the checksum is injective in each byte, and the flip changes the byte. -/
theorem crcDetectsEverySingleBitError : Obligations.CrcDetectsEverySingleBitError := by
  intro c before after x k hpoly hk h
  exact flipped_bit_ne x hk (crc16_injective_byte hpoly before after h).symm

end Sys2Proof
end

section
/-! PROOFS. The checksum commands (40_checksum.md R135 to R137): what each does in each case of WLEN. -/

namespace Sys2Proof.Machine

theorem State.setCrcok_raise_eq_afterCheckError (s : State) (e : ErrCode) :
    (s.setCrcok false).raise e = s.afterCheckError e.code.toNat := by
  cases e <;> rfl

theorem Memory.fromLe_readBytes_two (m : Memory) (a : Nat) :
    fromLe (m.readBytes a 2) = (m.read a).toNat + 256 * (m.read (a + 1)).toNat := rfl

theorem Memory.read_writeBytes_half_low (m : Memory) (a : Nat) (v : Half) :
    (m.writeBytes a (leBytes 2 v.toNat)).read a = byteOf 16 v 0 := by
  rw [read_writeBytes, leBytes_length, if_pos (by omega), Nat.sub_self, leBytes_getD_byteOf v (by omega)]

theorem Memory.read_writeBytes_half_high (m : Memory) (a : Nat) (v : Half) :
    (m.writeBytes a (leBytes 2 v.toNat)).read (a + 1) = byteOf 16 v 1 := by
  rw [read_writeBytes, leBytes_length, if_pos (by omega), Nat.add_sub_cancel_left,
    leBytes_getD_byteOf v (by omega)]

theorem Memory.read_writeBytes_half_other (m : Memory) {a x : Nat} (v : Half) (hlow : x ≠ a)
    (hhigh : x ≠ a + 1) : (m.writeBytes a (leBytes 2 v.toNat)).read x = m.read x := by
  rw [read_writeBytes, leBytes_length, if_neg (by omega)]

section Commands

variable {s : State}

theorem execCrcCalc_fits (h : s.fitsWbuf s.wlen.toNat) :
    execCrcCalc s = .next { s with regs := { s.regs with
      csum := crc16 s.cfg.crc (s.readWbuf 0 s.wlen.toNat) } }.succeed := if_pos h

theorem execCrcCalc_range (h : ¬ s.fitsWbuf s.wlen.toNat) : execCrcCalc s = .next (s.afterError 7) :=
  (if_neg h).trans (congrArg _ (s.raise_eq_afterError .range))

theorem execCrcStamp_stampable (h : s.stampable) :
    execCrcStamp s = .next { s.writeWbuf (s.wlen.toNat - 2) (leBytes 2 s.imageCsum.toNat) with
      regs := { s.regs with csum := s.imageCsum } : State }.succeed := if_pos h

theorem execCrcStamp_range (h : ¬ s.stampable) : execCrcStamp s = .next (s.afterError 7) :=
  (if_neg h).trans (congrArg _ (s.raise_eq_afterError .range))

theorem execCrcCheck_match (h : s.stampable)
    (hcsum : s.imageCsum.toNat = fromLe (s.readWbuf (s.wlen.toNat - 2) 2)) :
    execCrcCheck s =
      .next ({ s with regs := { s.regs with csum := s.imageCsum } }.setCrcok true).succeed :=
  (if_pos h).trans (if_pos hcsum)

theorem execCrcCheck_mismatch (h : s.stampable)
    (hcsum : s.imageCsum.toNat ≠ fromLe (s.readWbuf (s.wlen.toNat - 2) 2)) :
    execCrcCheck s = .next (s.afterCheckError 3) :=
  (if_pos h).trans ((if_neg hcsum).trans (congrArg _ (s.setCrcok_raise_eq_afterCheckError .csum)))

theorem execCrcCheck_range (h : ¬ s.stampable) : execCrcCheck s = .next (s.afterCheckError 7) :=
  (if_neg h).trans (congrArg _ (s.setCrcok_raise_eq_afterCheckError .range))

theorem not_stampable (h : s.wlen.toNat < 2 ∨ 22 + s.cfg.fdMax < s.wlen.toNat) : ¬ s.stampable := by
  rintro ⟨hlow, hhigh⟩
  exact h.elim (Nat.not_lt.2 hlow) (Nat.not_lt.2 hhigh)

/-- Where the checksum has room, its high byte stands right after its low byte (40_checksum.md R136, R137). -/
theorem wlen_sub_one (h : 2 ≤ s.wlen.toNat) : s.wlen.toNat - 1 = s.wlen.toNat - 2 + 1 := by
  omega

end Commands

/-- Settles O30: by whether WLEN fits WBUF. -/
theorem crcCalcEffect : Obligations.CrcCalcEffect :=
  ⟨by decide, fun _ => ⟨execCrcCalc_fits, fun hover => execCrcCalc_range (Nat.not_le.2 hover)⟩⟩

/-- Settles O31: the stamp is a write of the two checksum bytes at `WLEN - 2`. -/
theorem crcStampEffect : Obligations.CrcStampEffect := by
  refine ⟨by decide, fun s => ⟨fun hlow hhigh => ?_, fun hout => execCrcStamp_range (not_stampable hout)⟩⟩
  rw [wlen_sub_one hlow]
  exact ⟨_, execCrcStamp_stampable ⟨hlow, hhigh⟩, s.wbuf.read_writeBytes_half_low _ s.imageCsum,
    s.wbuf.read_writeBytes_half_high _ s.imageCsum,
    fun _ => s.wbuf.read_writeBytes_half_other s.imageCsum, rfl, rfl, rfl⟩

/-- Settles O32: by whether WLEN is in range and, if so, whether the two checksums agree. -/
theorem crcCheckEffect : Obligations.CrcCheckEffect := by
  refine ⟨by decide, fun s => ⟨fun hlow hhigh hcsum => ?_, fun hlow hhigh hcsum => ?_,
    fun hout => execCrcCheck_range (not_stampable hout)⟩⟩ <;>
    rw [wlen_sub_one hlow, ← s.wbuf.fromLe_readBytes_two] at hcsum
  · exact execCrcCheck_match ⟨hlow, hhigh⟩ hcsum
  · exact execCrcCheck_mismatch ⟨hlow, hhigh⟩ hcsum

end Sys2Proof.Machine
end

section
/-! PROOFS. The packing of 24-bit fields (41_wire_codec.md R164, R165): what both packings do to the bytes of
a field, that each undoes the other, and the two commands. -/

namespace Sys2Proof.Machine

/-! ### The bytes of a 24-bit field -/

theorem byteOf_eq_iff {n : Nat} (v w : BitVec n) (j k : Nat) :
    byteOf n v j = byteOf n w k ↔ ∀ i < 8, v.getLsbD (8 * j + i) = w.getLsbD (8 * k + i) := by
  simp only [BitVec.eq_of_getLsbD_eq_iff, BitVec.getLsbD_extractLsb']
  exact forall₂_congr fun i hi => by simp only [hi, decide_true, Bool.true_and]

/-- A field of 24 bits is its three bytes. -/
theorem tri_ext {v w : Tri} (h : ∀ k < 3, byteOf 24 v k = byteOf 24 w k) : v = w := by
  apply BitVec.eq_of_getLsbD_eq
  intro i hi
  rw [← Nat.div_add_mod i 8]
  exact (byteOf_eq_iff v w _ _).1 (h (i / 8) (by omega)) (i % 8) (by omega)

theorem byteOf_pack24 (v : Tri) {k : Nat} (hk : k < 3) : byteOf 24 (pack24 v) k = byteOf 24 v (2 - k) := by
  refine (byteOf_eq_iff _ _ _ _).2 fun i hi => ?_
  rw [pack24_getLsbD v _ (by omega)]
  congr 1
  omega

theorem byteOf_unpack24 (p : Tri) {k : Nat} (hk : k < 3) :
    byteOf 24 (unpack24 p) k = byteOf 24 p (2 - k) := by
  refine (byteOf_eq_iff _ _ _ _).2 fun i hi => ?_
  rw [unpack24_getLsbD p _ (by omega)]
  congr 1
  omega

/-- The two packings are the same exchange of bytes. -/
theorem pack24_eq_unpack24 (v : Tri) : pack24 v = unpack24 v :=
  tri_ext fun _ hk => (byteOf_pack24 v hk).trans (byteOf_unpack24 v hk).symm

theorem unpack24_unpack24 (v : Tri) : unpack24 (unpack24 v) = v := by
  refine tri_ext fun k hk => ?_
  rw [byteOf_unpack24 _ hk, byteOf_unpack24 _ (by omega)]
  congr 1
  omega

@[simp] theorem unpack24_pack24 (v : Tri) : unpack24 (pack24 v) = v := by
  rw [pack24_eq_unpack24, unpack24_unpack24]

@[simp] theorem pack24_unpack24 (p : Tri) : pack24 (unpack24 p) = p := by
  rw [pack24_eq_unpack24, unpack24_unpack24]

/-! ### The two commands -/

theorem runCommands_pair {i j : Instr} {s t u : State} (hi : exec i s = .next t) (hj : exec j t = .next u) :
    runCommands [i, j] s = .next u := by
  simp only [runCommands, hi, hj]

theorem exec_pack24 (s : State) :
    exec .pack24 s = .next { s with regs := { s.regs with p24 := pack24 s.regs.ntotal } }.succeed := rfl

theorem exec_unpack24 (s : State) :
    exec .unpack24 s = .next { s with regs := { s.regs with ntotal := unpack24 s.regs.p24 } }.succeed := rfl

/-- Register 13 is P24 widened to a word. -/
theorem regRead_p24_top_byte (s : State) : byteOf 32 (s.regRead 13) 3 = 0 := by
  have h : s.regRead 13 = s.regs.p24.setWidth 32 := rfl
  refine BitVec.eq_of_getLsbD_eq fun i _ => ?_
  rw [h, byteOf, BitVec.getLsbD_extractLsb', BitVec.getLsbD_setWidth, BitVec.getLsbD_of_ge _ _ (by omega)]
  simp

/-- Settles O37: `pack24` exchanges the outer bytes. -/
theorem packEffect : Obligations.PackEffect :=
  ⟨by decide, fun s => ⟨_, exec_pack24 s, byteOf_pack24 _ (by decide), byteOf_pack24 _ (by decide),
    byteOf_pack24 _ (by decide), rfl, regRead_p24_top_byte _, rfl, rfl, rfl⟩⟩

/-- Settles O38: `unpack24` exchanges the outer bytes, and exchanging them twice restores the field. -/
theorem unpackEffectAndInverse : Obligations.UnpackEffectAndInverse :=
  ⟨by decide,
    fun s => ⟨_, exec_unpack24 s, byteOf_unpack24 _ (by decide), byteOf_unpack24 _ (by decide),
      byteOf_unpack24 _ (by decide), rfl, rfl, rfl, rfl⟩,
    fun s => ⟨_, runCommands_pair (exec_pack24 s) (exec_unpack24 _), unpack24_pack24 _⟩,
    fun s => ⟨_, runCommands_pair (exec_unpack24 s) (exec_pack24 _), pack24_unpack24 _⟩⟩

end Sys2Proof.Machine
end

section
/-! PROOFS. Parsing and forming wire images (41_wire_codec.md R151, R152), and what a memory that holds an
image reads as, field by field. -/

namespace Sys2Proof.Machine

/-! ### Fields and slices -/

/-- A value of `k` bytes is read back from its little-endian bytes. -/
theorem ofNat_fromLe_leBytes {n k : Nat} (v : BitVec n) (hn : n = 8 * k) :
    BitVec.ofNat n (fromLe (leBytes k v.toNat)) = v := by
  subst hn
  apply BitVec.eq_of_toNat_eq
  rw [fromLe_leBytes, BitVec.toNat_ofNat, show 256 = 2 ^ 8 from rfl, ← pow_mul, Nat.mod_mod,
    Nat.mod_eq_of_lt v.isLt]

/-- A sequence of `k` bytes is the little-endian image of the value it holds. -/
theorem leBytes_ofNat_fromLe {n k : Nat} {b : List Byte} (hb : b.length = k) (hn : n = 8 * k) :
    leBytes k (BitVec.ofNat n (fromLe b)).toNat = b := by
  subst hb hn
  have hlt : fromLe b < 2 ^ (8 * b.length) := by
    rw [pow_mul]
    exact fromLe_lt b
  rw [BitVec.toNat_ofNat, Nat.mod_eq_of_lt hlt, leBytes_fromLe]

/-- A slice, and the slice that starts where it ends. -/
theorem slice_append_slice (b : List Byte) {i j m n : Nat} (hj : i + m = j) :
    slice b i m ++ slice b j n = slice b i (m + n) := by
  subst hj
  simp only [slice, List.take_add, List.drop_drop]

theorem slice_one {b : List Byte} {i : Nat} (hi : i < b.length) : slice b i 1 = [b.getD i 0#8] := by
  rw [slice, List.drop_eq_getElem_cons hi, List.getD_eq_getElem _ _ hi]
  rfl

theorem slice_all {b : List Byte} {n : Nat} (hb : b.length = n) : slice b 0 n = b := by
  rw [slice, List.drop_zero, ← hb, List.take_length]

theorem header_bytes_getD (h : Header) {k : Nat} (hk : k < 4) :
    h.bytes.getD k 0#8 = byteOf 32 h.pack k := by
  rw [← h.unpack_pack, Header.pack_unpack]
  interval_cases k <;> rfl

/-! ### Parsing undoes forming the image -/

theorem parseCtrl_wireCtrl (f : CtrlFrame) : parseCtrl (wireCtrl f) = f := by
  obtain ⟨hheader, hnFile, hnFrame, hstatus, hchecksum⟩ := wireCtrl_pieces f
  simp only [parseCtrl, hheader, hnFile, hnFrame, hstatus, hchecksum, Header.ofBytes_bytes,
    ofNat_fromLe_leBytes]

theorem parseData_wireData (f : Slot) : parseData f.data.length (wireData f) = f := by
  obtain ⟨hheader, hnFile, hnFrame, hnTotal, hflag, htotalLen, hdataLen⟩ := wireData_head_pieces f
  simp only [parseData, dataOff, hheader, hnFile, hnFrame, hnTotal, hflag, htotalLen, hdataLen,
    wireData_data_piece, wireData_checksum_piece, Header.ofBytes_bytes, ofNat_fromLe_leBytes]

/-! ### Forming the image undoes parsing -/

/-- Each field of a parsed frame has the bytes it was parsed from. -/
theorem leBytes_ofNat_fromLe_slice {n i k : Nat} {b : List Byte} (hb : i + k ≤ b.length) (hn : n = 8 * k) :
    leBytes k (BitVec.ofNat n (fromLe (slice b i k))).toNat = slice b i k :=
  leBytes_ofNat_fromLe (slice_length b i k hb) hn

theorem bytes_ofBytes_slice {b : List Byte} {i : Nat} (hb : i + 4 ≤ b.length) :
    (Header.ofBytes (slice b i 4)).bytes = slice b i 4 :=
  Header.bytes_ofBytes _ (slice_length b i 4 hb)

theorem wireCtrl_parseCtrl {b : List Byte} (hb : b.length = ctrlSize) : wireCtrl (parseCtrl b) = b := by
  have hb' : b.length = 14 := hb
  calc wireCtrl (parseCtrl b)
      = slice b 0 4 ++ slice b 4 4 ++ slice b 8 2 ++ slice b 10 2 ++ slice b 12 2 := by
        simp (disch := omega) only [wireCtrl, bodyCtrl, parseCtrl, bytes_ofBytes_slice,
          leBytes_ofNat_fromLe_slice]
    _ = b := by simp only [slice_append_slice, Nat.reduceAdd, slice_all hb']

theorem wireData_parseData {fdMax : Nat} {b : List Byte} (hb : b.length = 22 + fdMax) :
    wireData (parseData fdMax b) = b := by
  have hflag : slice b 13 1 = [b.getD 13 0#8] := slice_one (by omega)
  calc wireData (parseData fdMax b)
      = slice b 0 4 ++ slice b 4 4 ++ slice b 8 2 ++ slice b 10 3 ++ slice b 13 1 ++ slice b 14 4 ++
          slice b 18 2 ++ slice b 20 fdMax ++ slice b (20 + fdMax) 2 := by
        simp (disch := omega) only [wireData, bodyData, headData, parseData, dataOff, hflag,
          bytes_ofBytes_slice, leBytes_ofNat_fromLe_slice]
    _ = b := by
        simp (disch := omega) only [slice_append_slice, Nat.reduceAdd]
        exact slice_all (by omega)

theorem parseData_data_length {fdMax : Nat} {b : List Byte} (hb : b.length = 22 + fdMax) :
    (parseData fdMax b).data.length = fdMax :=
  slice_length b dataOff fdMax (by rw [hb, dataOff]; omega)

/-- Three bytes put together, most significant first. -/
theorem byteOf_append3 (x y z : Byte) :
    byteOf 24 (x ++ y ++ z) 2 = x ∧ byteOf 24 (x ++ y ++ z) 1 = y ∧ byteOf 24 (x ++ y ++ z) 0 = z := by
  refine ⟨?_, ?_, ?_⟩ <;>
  · apply BitVec.eq_of_getLsbD_eq
    intro i hi
    simp only [BitVec.getLsbD_extractLsb', BitVec.getLsbD_append]
    interval_cases i <;> simp

/-- `n_total_frame` is `unpack24` of its three bytes read most significant first (30_encoding.md R112). -/
theorem parseData_nTotal {fdMax : Nat} {b : List Byte} (hb : b.length = 22 + fdMax) :
    (parseData fdMax b).nTotal =
      unpack24 (b.getD 10 0#8 ++ b.getD 11 0#8 ++ b.getD 12 0#8 : BitVec 24) := by
  obtain ⟨hhigh, hmid, hlow⟩ := byteOf_append3 (b.getD 10 0#8) (b.getD 11 0#8) (b.getD 12 0#8)
  obtain ⟨-, -, -, hnTotal, -, -, -⟩ := wireData_head_pieces (parseData fdMax b)
  rw [wireData_parseData hb] at hnTotal
  refine tri_ext fun k hk => ?_
  rw [byteOf_unpack24 _ hk, ← getD_of_slice_eq_leBytes hnTotal hk]
  interval_cases k
  · exact hhigh.symm
  · exact hmid.symm
  · exact hlow.symm

/-- Settles O26: an image is cut into its fields' pieces, and each piece is its field's bytes. -/
theorem parseAndWireAreInverse : Obligations.ParseAndWireAreInverse :=
  ⟨parseCtrl_wireCtrl, fun _ => wireCtrl_parseCtrl, by rintro _ f rfl; exact parseData_wireData f,
    fun _ _ hb => ⟨wireData_parseData hb, parseData_data_length hb, parseData_nTotal hb⟩⟩

/-! ### A memory that holds an image -/

section Image

variable {m : Memory} {b : List Byte} {n : Nat}

theorem Memory.readBytes_image (m : Memory) (hb : b.length = n) :
    (m.writeBytes 0 b).readBytes 0 n = b := by
  rw [← hb, readBytes_writeBytes]

theorem Memory.read_past_image (m : Memory) (hb : b.length = n) {a : Nat} (ha : n ≤ a) :
    (m.writeBytes 0 b).read a = m.read a := by
  rw [read_writeBytes, if_neg (by omega)]

theorem Memory.slice_readBytes (m : Memory) {a n i k : Nat} (hik : i + k ≤ n) :
    slice (m.readBytes a n) i k = m.readBytes (a + i) k := by
  apply bytes_ext
  · rw [slice_length _ _ _ (by rwa [readBytes_length]), readBytes_length]
  · intro j hj
    rw [slice_length _ _ _ (by rwa [readBytes_length])] at hj
    rw [slice_getD, if_pos hj, readBytes_getD, readBytes_getD, if_pos hj, if_pos (by omega), Nat.add_assoc]

/-- A piece of a memory that holds an image. -/
theorem Memory.readBytes_of_image (h : m.readBytes 0 n = b) {i k : Nat} (hik : i + k ≤ n) :
    m.readBytes i k = slice b i k := by
  rw [← h, slice_readBytes m hik, Nat.zero_add]

theorem Memory.read_of_image (h : m.readBytes 0 n = b) {i : Nat} (hi : i < n) :
    m.read i = b.getD i 0#8 := by
  rw [← h, readBytes_getD, if_pos hi, Nat.zero_add]

/-- The bytes of a little-endian field whose piece of the image is known. -/
theorem Memory.field_of_image (h : m.readBytes 0 n = b) {i w k : Nat} {v : BitVec k}
    (hpiece : slice b i w = leBytes w v.toNat) (hiw : i + w ≤ n) :
    ∀ j, j < w → m.read (i + j) = byteOf k v j := fun j hj =>
  (read_of_image h (by omega)).trans (getD_of_slice_eq_leBytes hpiece hj)

/-- The value of the two checksum bytes. -/
theorem Memory.half_of_image (h : m.readBytes 0 n = b) {i : Nat} {v : Half}
    (hpiece : slice b i 2 = leBytes 2 v.toNat) (hi : i + 2 ≤ n) :
    (m.read i).toNat + 256 * (m.read (i + 1)).toNat = v.toNat := by
  rw [← fromLe_readBytes_two, readBytes_of_image h hi, hpiece, fromLe_half]

end Image

/-- A memory that holds the image of a Control Frame (30_encoding.md R110), field by field. -/
theorem Memory.ctrlImage_reads {m : Memory} {f : CtrlFrame} (h : m.readBytes 0 ctrlSize = wireCtrl f) :
    m.readBytes 0 12 = bodyCtrl f ∧
      (∀ k, k < 4 → m.read k = byteOf 32 f.header.pack k) ∧
      (∀ k, k < 4 → m.read (4 + k) = byteOf 32 f.nFile k) ∧
      (∀ k, k < 2 → m.read (8 + k) = byteOf 16 f.nFrame k) ∧
      (∀ k, k < 2 → m.read (10 + k) = byteOf 16 f.status k) ∧
      (∀ k, k < 2 → m.read (12 + k) = byteOf 16 f.checksum k) ∧
      (m.read 12).toNat + 256 * (m.read 13).toNat = f.checksum.toNat := by
  obtain ⟨hheader, hnFile, hnFrame, hstatus, hchecksum⟩ := wireCtrl_pieces f
  refine ⟨readBytes_of_image h (by decide), fun k hk => ?_, field_of_image h hnFile (by decide),
    field_of_image h hnFrame (by decide), field_of_image h hstatus (by decide),
    field_of_image h hchecksum (by decide), half_of_image h hchecksum (by decide)⟩
  rw [← header_bytes_getD f.header hk, ← hheader, slice_getD, if_pos hk, Nat.zero_add]
  exact read_of_image h (Nat.lt_trans hk (by decide))

theorem wireData_body_piece (f : Slot) : slice (wireData f) 0 (20 + f.data.length) = bodyData f := by
  rw [← bodyData_length, wireData, slice_append_left]

/-- A memory that holds the image of a Data Frame (30_encoding.md R111), field by field. -/
theorem Memory.dataImage_reads {m : Memory} {fdMax : Nat} {f : Slot}
    (h : m.readBytes 0 (22 + fdMax) = wireData f) (hdata : f.data.length = fdMax) :
    m.readBytes 0 (20 + fdMax) = bodyData f ∧
      m.readBytes 0 4 = f.header.bytes ∧
      (∀ j, j < 4 → m.read (4 + j) = byteOf 32 f.nFile j) ∧
      (∀ j, j < 2 → m.read (8 + j) = byteOf 16 f.nFrame j) ∧
      (∀ j, j < 3 → m.read (10 + j) = byteOf 24 f.nTotal j) ∧
      m.read 13 = f.flag ∧
      (∀ j, j < 4 → m.read (14 + j) = byteOf 32 f.totalLen j) ∧
      (∀ j, j < 2 → m.read (18 + j) = byteOf 16 f.dataLen j) ∧
      m.readBytes 20 fdMax = f.data ∧
      (∀ j, j < 2 → m.read (20 + fdMax + j) = byteOf 16 f.checksum j) ∧
      (m.read (20 + fdMax)).toNat + 256 * (m.read (21 + fdMax)).toNat = f.checksum.toNat := by
  subst hdata
  obtain ⟨hheader, hnFile, hnFrame, hnTotal, hflag, htotalLen, hdataLen⟩ := wireData_head_pieces f
  have hchecksum := wireData_checksum_piece f
  refine ⟨(readBytes_of_image h (by omega)).trans (wireData_body_piece f),
    (readBytes_of_image h (by omega)).trans hheader,
    field_of_image h hnFile (by omega), field_of_image h hnFrame (by omega),
    field_of_image h hnTotal (by omega), (read_of_image h (by omega)).trans hflag,
    field_of_image h htotalLen (by omega), field_of_image h hdataLen (by omega),
    (readBytes_of_image h (by omega)).trans (wireData_data_piece f),
    field_of_image h hchecksum (by omega), ?_⟩
  rw [show 21 + f.data.length = 20 + f.data.length + 1 by omega]
  exact half_of_image h hchecksum (by omega)

end Sys2Proof.Machine
end

section
/-! PROOFS. The wire codec commands (41_wire_codec.md R160 to R163, R166): SER leaves a stamped image in WBUF,
and DES, on any image of the right length, compares the checksum field with the checksum of the frame. -/

namespace Sys2Proof.Machine

/-! ### The Control Frame -/

/-- The Control Frame in the registers with a fresh checksum (40_checksum.md R134). -/
def State.stampedCtrl (s : State) : CtrlFrame :=
  { s.regs.ctrlFrame with checksum := csumCtrl s.cfg.crc s.regs.ctrlFrame }

/-- What SER.CTRL leaves (R160). -/
def State.afterSerCtrl (s : State) : State :=
  ({ s.writeWbuf 0 (wireCtrl s.stampedCtrl) with
    regs := { s.regs with csum := s.stampedCtrl.checksum }
    wlen := BitVec.ofNat 32 ctrlSize } : State).succeed

/-- What DES.CTRL leaves where it accepts the frame `f` (R161). -/
def State.afterDesCtrl (s : State) (f : CtrlFrame) : State :=
  ({ s with regs := s.regs.loadCtrlFrame f }.setCrcok true).succeed

theorem exec_serCtrl (s : State) : exec .serCtrl s = .next s.afterSerCtrl := rfl

theorem State.stampedCtrl_checksum (s : State) :
    csumCtrl s.cfg.crc s.stampedCtrl = s.stampedCtrl.checksum := rfl

theorem State.stampedCtrl_hdr (s : State) : s.stampedCtrl.header.pack = s.regs.hdr := Header.pack_unpack _

theorem State.afterSerCtrl_wbuf (s : State) :
    s.afterSerCtrl.wbuf = s.wbuf.writeBytes 0 (wireCtrl s.stampedCtrl) := by
  simp only [afterSerCtrl, succeed_wbuf, writeWbuf_wbuf]

theorem State.afterSerCtrl_image (s : State) :
    s.afterSerCtrl.wbuf.readBytes 0 ctrlSize = wireCtrl s.stampedCtrl := by
  rw [afterSerCtrl_wbuf, Memory.readBytes_image _ (wireCtrl_length _)]

theorem State.afterSerCtrl_wbuf_past (s : State) {a : Nat} (ha : 14 ≤ a) :
    s.afterSerCtrl.wbuf.read a = s.wbuf.read a := by
  rw [afterSerCtrl_wbuf, Memory.read_past_image _ (wireCtrl_length _) ha]

/-- WBUF always holds the image of some Control Frame. -/
theorem State.exists_ctrlImage (s : State) : ∃ f, s.wbuf.readBytes 0 ctrlSize = wireCtrl f :=
  ⟨_, (wireCtrl_parseCtrl (s.wbuf.readBytes_length 0 ctrlSize)).symm⟩

/-- Settles O33: WBUF holds the image of the frame with its fresh checksum. -/
theorem serCtrlEffect : Obligations.SerCtrlEffect := by
  refine ⟨by decide, fun s => ⟨_, exec_serCtrl s, ?_⟩⟩
  obtain ⟨hbody, hheader, hnFile, hnFrame, hstatus, hchecksum, -⟩ :=
    Memory.ctrlImage_reads s.afterSerCtrl_image
  have hcsum : crc16 s.cfg.crc (s.afterSerCtrl.wbuf.readBytes 0 12) = s.stampedCtrl.checksum := by
    rw [hbody]
    exact s.stampedCtrl_checksum
  rw [s.stampedCtrl_hdr] at hheader
  simp only [hcsum]
  exact ⟨hheader, hnFile, hnFrame, hstatus, hchecksum,
    fun _ => s.afterSerCtrl_wbuf_past, rfl, rfl, rfl, rfl⟩

section DesCtrl

variable {s : State} {f : CtrlFrame}

/-- The check of DES.CTRL is that the image's checksum field is the frame's checksum. -/
theorem State.ctrlCsumOk_iff (h : s.wbuf.readBytes 0 ctrlSize = wireCtrl f) :
    s.ctrlCsumOk ↔ csumCtrl s.cfg.crc f = f.checksum := by
  obtain ⟨-, -, -, -, hchecksum⟩ := wireCtrl_pieces f
  have hbody : slice (wireCtrl f) 0 12 = bodyCtrl f := rfl
  rw [ctrlCsumOk, readWbuf, h, hbody, hchecksum, fromLe_half, BitVec.toNat_inj]
  rfl

theorem exec_desCtrl_short (hwlen : s.wlen.toNat ≠ ctrlSize) :
    exec .desCtrl s = .next (s.afterCheckError 2) :=
  (if_neg hwlen).trans (congrArg _ (s.setCrcok_raise_eq_afterCheckError .short))

theorem exec_desCtrl_mismatch (hwlen : s.wlen.toNat = ctrlSize)
    (h : s.wbuf.readBytes 0 ctrlSize = wireCtrl f) (hf : csumCtrl s.cfg.crc f ≠ f.checksum) :
    exec .desCtrl s = .next (s.afterCheckError 3) :=
  (if_pos hwlen).trans ((if_neg (mt (State.ctrlCsumOk_iff h).1 hf)).trans
    (congrArg _ (s.setCrcok_raise_eq_afterCheckError .csum)))

theorem exec_desCtrl_match (hwlen : s.wlen.toNat = ctrlSize)
    (h : s.wbuf.readBytes 0 ctrlSize = wireCtrl f) (hf : csumCtrl s.cfg.crc f = f.checksum) :
    exec .desCtrl s = .next (s.afterDesCtrl f) := by
  have hparse : parseCtrl (s.readWbuf 0 ctrlSize) = f := by rw [State.readWbuf, h, parseCtrl_wireCtrl]
  rw [State.afterDesCtrl, ← hparse]
  exact (if_pos hwlen).trans (if_pos ((State.ctrlCsumOk_iff h).2 hf))

end DesCtrl

/-- Settles O34: by WLEN and by whether the frame in WBUF carries its own checksum. -/
theorem desCtrlEffect : Obligations.DesCtrlEffect := by
  refine ⟨by decide, fun s => ?_⟩
  obtain ⟨f, himage⟩ := s.exists_ctrlImage
  obtain ⟨hbody, hheader, hnFile, hnFrame, hstatus, -, hstored⟩ := Memory.ctrlImage_reads himage
  have hwlen : s.wlen = 14 ↔ s.wlen.toNat = ctrlSize := BitVec.toNat_inj.symm
  simp only [hbody, hstored, hwlen, ne_eq, BitVec.toNat_inj]
  refine ⟨exec_desCtrl_short, fun hlen => exec_desCtrl_mismatch hlen himage, fun hlen hcsum =>
    ⟨_, exec_desCtrl_match hlen himage hcsum, fun k hk => (hheader k hk).symm,
      fun k hk => (hnFile k hk).symm, fun k hk => (hnFrame k hk).symm, fun k hk => (hstatus k hk).symm,
      hcsum.symm, rfl, rfl, rfl⟩⟩

/-! ### The Data Frame -/

/-- A format-S word with a slot number that fits its field (30_encoding.md R103). -/
theorem decode_formatS_word {op k : Nat} {mk : Nat → Instr} (hop : op < 256) (hk : k < 65536)
    (hform : opcodeForm (BitVec.ofNat 8 op) = some (.formatS mk)) :
    decode (BitVec.ofNat 32 (op + k * 2 ^ 16)) = .ok (mk k) := by
  obtain ⟨hword, hrsv, himm⟩ := fields_of_word op k hop
  rw [decode_of_formatS hrsv (hword ▸ hform), himm, BitVec.toNat_ofNat, Nat.mod_eq_of_lt hk]

/-- The frame of slot `k` with a fresh checksum. -/
def State.stampedSlot (s : State) (k : Nat) : Slot := (s.slot k).stamped s.cfg.crc

/-- What SER.DATA leaves where the slot exists (R162). -/
def State.afterSerData (s : State) (k : Nat) : State :=
  ({ State.writeWbuf (s.setSlot k (s.stampedSlot k)) 0 (wireData (s.stampedSlot k)) with
    wlen := BitVec.ofNat 32 s.cfg.dataSize } : State).succeed

/-- What DES.DATA leaves where it accepts the frame `f` (R163). -/
def State.afterDesData (s : State) (k : Nat) (f : Slot) : State :=
  ((s.setSlot k f).setCrcok true).succeed

theorem State.stampedSlot_data (s : State) (k : Nat) : (s.stampedSlot k).data = (s.slot k).data := rfl

theorem State.stampedSlot_data_length (s : State) (k : Nat) :
    (s.stampedSlot k).data.length = s.cfg.fdMax := s.slot_data_length k

theorem State.wireData_stampedSlot_length (s : State) (k : Nat) :
    (wireData (s.stampedSlot k)).length = 22 + s.cfg.fdMax := by
  rw [wireData_length, stampedSlot_data_length]

theorem State.stampedSlot_checksum (s : State) (k : Nat) :
    csumData s.cfg.crc (s.stampedSlot k) = (s.stampedSlot k).checksum := rfl

/-- WBUF always holds the image of some Data Frame with `F` bytes of data. -/
theorem State.exists_dataImage (s : State) :
    ∃ f : Slot, f.data.length = s.cfg.fdMax ∧ s.wbuf.readBytes 0 (22 + s.cfg.fdMax) = wireData f :=
  have hlen := s.wbuf.readBytes_length 0 (22 + s.cfg.fdMax)
  ⟨_, parseData_data_length hlen, (wireData_parseData hlen).symm⟩

section Data

variable {s : State} {k : Nat} {f : Slot}

theorem exec_slot_range {i : Instr} (hi : i.slotOperand = some k) (hk : s.cfg.nSlots ≤ k) :
    exec i s = .next (s.afterError 7) :=
  (exec_of_missing_slot hi (Nat.not_lt.2 hk)).trans (congrArg _ (s.raise_eq_afterError .range))

theorem exec_serData (hk : s.hasSlot k) : exec (.serData k) s = .next (s.afterSerData k) := if_pos hk

theorem State.afterSerData_wbuf (s : State) (k : Nat) :
    (s.afterSerData k).wbuf = s.wbuf.writeBytes 0 (wireData (s.stampedSlot k)) := by
  simp only [afterSerData, succeed_wbuf, writeWbuf_wbuf, setSlot_wbuf]

theorem State.afterSerData_image (s : State) (k : Nat) :
    (s.afterSerData k).wbuf.readBytes 0 (22 + s.cfg.fdMax) = wireData (s.stampedSlot k) := by
  rw [afterSerData_wbuf, Memory.readBytes_image _ (s.wireData_stampedSlot_length k)]

theorem State.afterSerData_wbuf_past (s : State) (k : Nat) {a : Nat} (ha : 22 + s.cfg.fdMax ≤ a) :
    (s.afterSerData k).wbuf.read a = s.wbuf.read a := by
  rw [afterSerData_wbuf, Memory.read_past_image _ (s.wireData_stampedSlot_length k) ha]

theorem State.afterSerData_wlen (hcfg : s.cfg.Valid) :
    (s.afterSerData k).wlen.toNat = 22 + s.cfg.fdMax := by
  obtain ⟨⟨-, hfdMax⟩, -, -⟩ := hcfg
  exact (BitVec.toNat_ofNat _ _).trans (Nat.mod_eq_of_lt (by rw [Config.dataSize]; omega))

theorem State.afterSerData_slot_self (hstore : s.StoreWf) (hk : s.hasSlot k) :
    (s.afterSerData k).slot k = s.stampedSlot k :=
  s.slot_setSlot_self k _ hstore hk (s.stampedSlot_data_length k)

theorem State.afterSerData_slot_ne {j : Nat} (hj : j ≠ k) : (s.afterSerData k).slot j = s.slot j :=
  s.slot_setSlot_ne k j _ hj

theorem State.afterDesData_slot_self (hstore : s.StoreWf) (hk : s.hasSlot k)
    (hf : f.data.length = s.cfg.fdMax) : (s.afterDesData k f).slot k = f :=
  s.slot_setSlot_self k f hstore hk hf

theorem State.afterDesData_slot_ne {j : Nat} (hj : j ≠ k) : (s.afterDesData k f).slot j = s.slot j :=
  s.slot_setSlot_ne k j f hj

/-- The check of DES.DATA is that the image's checksum field is the frame's checksum. -/
theorem State.dataCsumOk_iff (hf : f.data.length = s.cfg.fdMax)
    (h : s.wbuf.readBytes 0 (22 + s.cfg.fdMax) = wireData f) :
    s.dataCsumOk ↔ csumData s.cfg.crc f = f.checksum := by
  rw [dataCsumOk, readWbuf, Config.dataSize, h, dataOff, ← hf, wireData_body_piece, wireData_checksum_piece,
    fromLe_half, BitVec.toNat_inj]
  rfl

theorem exec_desData_short (hk : s.hasSlot k) (hwlen : s.wlen.toNat ≠ 22 + s.cfg.fdMax) :
    exec (.desData k) s = .next (s.afterCheckError 2) :=
  (if_pos hk).trans ((if_neg hwlen).trans (congrArg _ (s.setCrcok_raise_eq_afterCheckError .short)))

theorem exec_desData_mismatch (hk : s.hasSlot k) (hwlen : s.wlen.toNat = 22 + s.cfg.fdMax)
    (hf : f.data.length = s.cfg.fdMax) (h : s.wbuf.readBytes 0 (22 + s.cfg.fdMax) = wireData f)
    (hcsum : csumData s.cfg.crc f ≠ f.checksum) :
    exec (.desData k) s = .next (s.afterCheckError 3) :=
  (if_pos hk).trans ((if_pos hwlen).trans ((if_neg (mt (State.dataCsumOk_iff hf h).1 hcsum)).trans
    (congrArg _ (s.setCrcok_raise_eq_afterCheckError .csum))))

theorem exec_desData_match (hk : s.hasSlot k) (hwlen : s.wlen.toNat = 22 + s.cfg.fdMax)
    (hf : f.data.length = s.cfg.fdMax) (h : s.wbuf.readBytes 0 (22 + s.cfg.fdMax) = wireData f)
    (hcsum : csumData s.cfg.crc f = f.checksum) :
    exec (.desData k) s = .next (s.afterDesData k f) := by
  have hparse : parseData s.cfg.fdMax (s.readWbuf 0 s.cfg.dataSize) = f := by
    rw [State.readWbuf, Config.dataSize, h, ← hf, parseData_wireData]
  rw [State.afterDesData, ← hparse]
  exact (if_pos hk).trans ((if_pos hwlen).trans (if_pos ((State.dataCsumOk_iff hf h).2 hcsum)))

end Data

/-- Settles O35: WBUF holds the image of the slot with its fresh checksum. -/
theorem serDataEffect : Obligations.SerDataEffect := by
  refine ⟨fun k hk => decode_formatS_word (by decide) hk rfl, fun s k hcfg hstore =>
    ⟨exec_slot_range rfl, fun hk => ⟨_, exec_serData hk, ?_⟩⟩⟩
  obtain ⟨hbody, hheader, hnFile, hnFrame, hnTotal, hflag, htotalLen, hdataLen, hdata, hchecksum, -⟩ :=
    Memory.dataImage_reads (s.afterSerData_image k) (s.stampedSlot_data_length k)
  have hcsum : crc16 s.cfg.crc ((s.afterSerData k).wbuf.readBytes 0 (20 + s.cfg.fdMax)) =
      (s.stampedSlot k).checksum := by
    rw [hbody]
    exact s.stampedSlot_checksum k
  have hbytes : ∀ j, j < s.cfg.fdMax →
      (s.afterSerData k).wbuf.read (20 + j) = (s.slot k).data.getD j 0#8 := fun j hj => by
    rw [← s.stampedSlot_data k, ← hdata, Memory.readBytes_getD, if_pos hj]
  simp only [hcsum]
  exact ⟨hheader, hnFile, hnFrame, hnTotal, hflag, htotalLen, hdataLen, hbytes, hchecksum,
    fun _ => s.afterSerData_wbuf_past k, State.afterSerData_slot_self hstore hk, rfl,
    fun _ => State.afterSerData_slot_ne, State.afterSerData_wlen hcfg, rfl, rfl⟩

/-- Settles O36: by the slot, WLEN and whether the frame in WBUF carries its own checksum. -/
theorem desDataEffect : Obligations.DesDataEffect := by
  refine ⟨fun k hk => decode_formatS_word (by decide) hk rfl, fun s k _ hstore => ?_⟩
  obtain ⟨f, hlen, himage⟩ := s.exists_dataImage
  obtain ⟨hbody, hheader, hnFile, hnFrame, hnTotal, hflag, htotalLen, hdataLen, hdata, -, hstored⟩ :=
    Memory.dataImage_reads himage hlen
  simp only [hbody, hstored, ne_eq, BitVec.toNat_inj]
  refine ⟨exec_slot_range rfl, exec_desData_short,
    fun hk hwlen => exec_desData_mismatch hk hwlen hlen himage,
    fun hk hwlen hcsum => ⟨_, exec_desData_match hk hwlen hlen himage hcsum, ?_⟩⟩
  have hslot : (s.afterDesData k f).slot k = f := State.afterDesData_slot_self hstore hk hlen
  have hcurrent : (s.afterDesData k f).ChecksumCurrent k := by
    rw [State.ChecksumCurrent, State.slotCsum, hslot]
    exact hcsum.symm
  rw [hslot]
  exact ⟨hheader.symm, fun j hj => (hnFile j hj).symm, fun j hj => (hnFrame j hj).symm,
    fun j hj => (hnTotal j hj).symm, hflag.symm, fun j hj => (htotalLen j hj).symm,
    fun j hj => (hdataLen j hj).symm, hdata.symm, hcsum.symm, hcurrent,
    fun _ => State.afterDesData_slot_ne, rfl, rfl⟩

/-! ### SER, then DES -/

/-- DES.CTRL after SER.CTRL loads the fields the registers already hold. -/
theorem State.loadCtrlFrame_stampedCtrl (s : State) :
    s.afterSerCtrl.regs.loadCtrlFrame s.stampedCtrl =
      { s.regs with csum := csumCtrl s.cfg.crc s.regs.ctrlFrame } := by
  rw [Regs.loadCtrlFrame, stampedCtrl_hdr]
  rfl

/-- After SER.DATA into WBUF and DES.DATA from it the source slot still holds the stamped frame. -/
theorem State.afterDesData_afterSerData_slot {s : State} {k d : Nat} (hstore : s.StoreWf)
    (hk : s.hasSlot k) (hd : s.hasSlot d) {j : Nat} (hj : j = k ∨ j = d) :
    ((s.afterSerData k).afterDesData d (s.stampedSlot k)).slot j = s.stampedSlot k := by
  have hstore' : (s.afterSerData k).StoreWf :=
    s.storeWf_setSlot k _ hstore (s.stampedSlot_data_length k)
  by_cases hjd : j = d
  · subst hjd
    exact afterDesData_slot_self hstore' hd (s.stampedSlot_data_length k)
  · rw [afterDesData_slot_ne hjd, hj.resolve_right hjd, afterSerData_slot_self hstore hk]

/-- Settles O56: SER leaves the image of a frame that carries its own checksum, which DES accepts. -/
theorem serializeThenDeserialize : Obligations.SerializeThenDeserialize := by
  refine ⟨fun s k d hcfg hstore hk hd => ⟨_, runCommands_pair (exec_serData hk)
      (exec_desData_match hd (State.afterSerData_wlen hcfg) (s.stampedSlot_data_length k)
        (s.afterSerData_image k) (s.stampedSlot_checksum k)), rfl, rfl, ?_, ?_⟩,
    fun s => ⟨_, runCommands_pair (exec_serCtrl s)
      (exec_desCtrl_match rfl s.afterSerCtrl_image s.stampedCtrl_checksum), rfl, rfl,
      s.loadCtrlFrame_stampedCtrl⟩⟩
  · exact State.afterDesData_afterSerData_slot hstore hk hd (.inr rfl)
  · exact (State.afterDesData_afterSerData_slot hstore hk hd (.inl rfl)).trans
      (State.afterDesData_afterSerData_slot hstore hk hd (.inr rfl)).symm

end Sys2Proof.Machine
end

section
/-! PROOFS. The sequencer (42_sequencer.md R181 to R187): what its two functions answer in each mode, that they
are inverse, and its two commands. -/

namespace Sys2Proof.Machine

/-! ### The two functions -/

/-- R181, a transfer of one frame is not offset. -/
theorem indexToWire_documented_of_eq {len : Tri} (hlen : len = 1) (id : Half) :
    indexToWire .documented id len = id := if_pos hlen

/-- R182, a transfer of one frame is not offset. -/
theorem wireToIndex_documented_of_eq {len : Tri} (hlen : len = 1) (nFrame : Half) :
    wireToIndex .documented nFrame len = nFrame := if_pos hlen

theorem indexToWire_documented_of_ne {len : Tri} (hlen : len ≠ 1) (id : Half) :
    indexToWire .documented id len = id + 1 := if_neg hlen

theorem wireToIndex_documented_of_ne {len : Tri} (hlen : len ≠ 1) (nFrame : Half) :
    wireToIndex .documented nFrame len = nFrame - 1 := if_neg hlen

@[simp] theorem indexToWire_identity (id : Half) (len : Tri) : indexToWire .identity id len = id := rfl

@[simp] theorem wireToIndex_identity (nFrame : Half) (len : Tri) :
    wireToIndex .identity nFrame len = nFrame := rfl

/-- The increment of R181 as the spec writes it. -/
theorem toNat_indexToWire_documented {len : Tri} (hlen : len ≠ 1) (id : Half) :
    (indexToWire .documented id len).toNat = (id.toNat + 1) % 2 ^ 16 := by
  rw [indexToWire_documented_of_ne hlen, BitVec.toNat_add]
  rfl

/-- The decrement of R182 as the spec writes it: `- 1` is `+ 2^16 - 1` before the reduction. -/
theorem toNat_wireToIndex_documented {len : Tri} (hlen : len ≠ 1) (nFrame : Half) :
    (wireToIndex .documented nFrame len).toNat = (nFrame.toNat + 2 ^ 16 - 1) % 2 ^ 16 := by
  rw [wireToIndex_documented_of_ne hlen]
  bv_omega

/-- R185, for every index and every `len`, in both modes. -/
theorem wireToIndex_indexToWire (mode : SeqMode) (id : Half) (len : Tri) :
    wireToIndex mode (indexToWire mode id len) len = id := by
  cases mode with
  | identity => rw [indexToWire_identity, wireToIndex_identity]
  | documented =>
    by_cases hlen : len = 1
    · rw [indexToWire_documented_of_eq hlen, wireToIndex_documented_of_eq hlen]
    · rw [indexToWire_documented_of_ne hlen, wireToIndex_documented_of_ne hlen, BitVec.add_sub_cancel]

/-- R185, for every wire number and every `len`, in both modes. -/
theorem indexToWire_wireToIndex (mode : SeqMode) (nFrame : Half) (len : Tri) :
    indexToWire mode (wireToIndex mode nFrame len) len = nFrame := by
  cases mode with
  | identity => rw [wireToIndex_identity, indexToWire_identity]
  | documented =>
    by_cases hlen : len = 1
    · rw [wireToIndex_documented_of_eq hlen, indexToWire_documented_of_eq hlen]
    · rw [wireToIndex_documented_of_ne hlen, indexToWire_documented_of_ne hlen, BitVec.sub_add_cancel]

/-- Settles O41: 0 is a `len` other than 1, and there the increment and the decrement undo each other. -/
theorem sequencerWrapsAndInverts : Obligations.SequencerWrapsAndInverts := fun v len =>
  ⟨fun hlen => ⟨indexToWire_documented_of_ne hlen _, wireToIndex_documented_of_ne hlen _⟩,
    toNat_indexToWire_documented (by decide) v, wireToIndex_indexToWire _ v len,
    indexToWire_wireToIndex _ v len⟩

/-! ### The two commands -/

/-- What SEQ.I2W leaves (R186). -/
def State.afterSeqI2w (s : State) : State :=
  State.succeed { s with regs :=
    { s.regs with nframe := indexToWire s.cfg.seqMode s.regs.id s.regs.count } }

/-- What SEQ.W2I leaves (R187). -/
def State.afterSeqW2i (s : State) : State :=
  State.succeed { s with regs :=
    { s.regs with id := wireToIndex s.cfg.seqMode s.regs.nframe s.regs.count } }

theorem exec_seqI2w (s : State) : exec .seqI2w s = .next s.afterSeqI2w := rfl

theorem exec_seqW2i (s : State) : exec .seqW2i s = .next s.afterSeqW2i := rfl

@[simp] theorem State.afterSeqI2w_nframe (s : State) :
    s.afterSeqI2w.regs.nframe = indexToWire s.cfg.seqMode s.regs.id s.regs.count := rfl

@[simp] theorem State.afterSeqW2i_id (s : State) :
    s.afterSeqW2i.regs.id = wireToIndex s.cfg.seqMode s.regs.nframe s.regs.count := rfl

/-- Settles O39: NFRAME takes `indexToWire`, whose value is read off in each mode. -/
theorem seqI2wEffect : Obligations.SeqI2wEffect := by
  refine ⟨by decide, fun s => ⟨_, exec_seqI2w s, fun hmode hcount => ?_, fun hmode hcount => ?_,
    fun hmode => ?_, rfl, rfl, rfl⟩⟩
  · rw [s.afterSeqI2w_nframe, hmode, indexToWire_documented_of_eq hcount]
  · rw [s.afterSeqI2w_nframe, hmode, toNat_indexToWire_documented hcount]
  · rw [s.afterSeqI2w_nframe, hmode, indexToWire_identity]

/-- Settles O40: ID takes `wireToIndex`, whose value is read off in each mode. -/
theorem seqW2iEffect : Obligations.SeqW2iEffect := by
  refine ⟨by decide, fun s => ⟨_, exec_seqW2i s, fun hmode hcount => ?_, fun hmode hcount => ?_,
    fun hmode => ?_, rfl, rfl, rfl⟩⟩
  · rw [s.afterSeqW2i_id, hmode, wireToIndex_documented_of_eq hcount]
  · rw [s.afterSeqW2i_id, hmode, toNat_wireToIndex_documented hcount]
  · rw [s.afterSeqW2i_id, hmode, wireToIndex_identity]

end Sys2Proof.Machine
end

section
/-! PROOFS. The chunking arithmetic (43_frame_chunker.md R191): how many payload bytes each frame carries, and
that no byte is left out. -/

namespace Sys2Proof.Machine

/-- R191 in one formula for every frame: frame `i` carries what `i` full frames leave, at most `F` bytes. -/
theorem frameLen_eq_min {total fdMax i : Nat} (hf : 0 < fdMax) (hi : i < ceilDiv total fdMax) :
    frameLen fdMax total (ceilDiv total fdMax) i = min fdMax (total - i * fdMax) := by
  unfold frameLen
  split
  · have hnext := (lt_ceilDiv_iff total fdMax (i + 1) hf).1 ‹_›
    rw [Nat.succ_mul] at hnext
    omega
  · have hlast : ceilDiv total fdMax = i + 1 := by omega
    have hall := le_ceilDiv_mul total fdMax hf
    rw [hlast, Nat.succ_mul] at hall
    rw [hlast, Nat.add_sub_cancel]
    omega

theorem frameLen_of_next {total fdMax n i : Nat} (hi : i + 1 < n) :
    frameLen fdMax total n i = fdMax := if_pos hi

/-- Every frame carries between 1 and `F` bytes. -/
theorem frameLen_bounds {total fdMax i : Nat} (hf : 0 < fdMax) (hi : i < ceilDiv total fdMax) :
    1 ≤ frameLen fdMax total (ceilDiv total fdMax) i ∧
      frameLen fdMax total (ceilDiv total fdMax) i ≤ fdMax := by
  have hlt := (lt_ceilDiv_iff total fdMax i hf).1 hi
  rw [frameLen_eq_min hf hi]
  omega

/-- The first `k` pieces of at most `F` bytes make up `k * F` bytes, or all there are. -/
theorem sum_piece_lengths (total fdMax k : Nat) :
    ((List.range k).map (fun i => min fdMax (total - i * fdMax))).sum = min total (k * fdMax) := by
  induction k with
  | zero => simp
  | succ k ih =>
    rw [List.range_succ, List.map_append, List.sum_append, ih, Nat.succ_mul, List.map_singleton,
      List.sum_singleton]
    omega

theorem sum_frameLen {total fdMax : Nat} (hf : 0 < fdMax) :
    ((List.range (ceilDiv total fdMax)).map (frameLen fdMax total (ceilDiv total fdMax))).sum = total := by
  have hlen : (List.range (ceilDiv total fdMax)).map (frameLen fdMax total (ceilDiv total fdMax)) =
      (List.range (ceilDiv total fdMax)).map (fun i => min fdMax (total - i * fdMax)) :=
    List.map_congr_left fun i hi => frameLen_eq_min hf (List.mem_range.1 hi)
  rw [hlen, sum_piece_lengths]
  exact Nat.min_eq_left (le_ceilDiv_mul total fdMax hf)

/-- A last piece of 1 to `F` bytes is the remainder, or `F` where `F` divides the total. -/
theorem last_piece_eq_mod {fdMax q r : Nat} (h1 : 1 ≤ r) (hr : r ≤ fdMax) :
    r = if (q * fdMax + r) % fdMax = 0 then fdMax else (q * fdMax + r) % fdMax := by
  rw [Nat.mul_comm, Nat.mul_add_mod]
  rcases Nat.lt_or_eq_of_le hr with hlt | rfl
  · rw [Nat.mod_eq_of_lt hlt, if_neg (by omega)]
  · rw [Nat.mod_self, if_pos rfl]

/-- Settles O42: the count by the bound of `ceil_div`, the lengths by the bounds of each frame. -/
theorem chunkingArithmetic : Obligations.ChunkingArithmetic := by
  intro total fdMax hf n
  have hzero : n = 0 ↔ total = 0 := by
    rw [← Nat.le_zero, ceilDiv_le_iff total fdMax 0 hf, Nat.zero_mul, Nat.le_zero]
  refine ⟨fun q => ceilDiv_le_iff total fdMax q hf, hzero, fun i => frameLen_of_next, fun htotal => ?_,
    sum_frameLen hf⟩
  have hlast : n - 1 < ceilDiv total fdMax := by
    have hn : n ≠ 0 := fun h => by omega
    exact Nat.sub_one_lt hn
  have hlen : frameLen fdMax total n (n - 1) = total - (n - 1) * fdMax :=
    if_neg (by omega)
  obtain ⟨h1, hle⟩ := frameLen_bounds hf hlast
  refine ⟨hlen, h1, hle, ?_⟩
  have hsplit : (n - 1) * fdMax + frameLen fdMax total n (n - 1) = total := by
    have hlt := (lt_ceilDiv_iff total fdMax (n - 1) hf).1 hlast
    omega
  exact (last_piece_eq_mod h1 hle).trans (by rw [hsplit])

end Sys2Proof.Machine
end

section
/-! PROOFS. Frame sets and the frame store (10_state.md R40, R50): the slots of a store determine it, what a
frame set's lengths and payload are, and when a slot's checksum is current. -/

namespace Sys2Proof.Machine

/-! ### The store -/

/-- Two stores of the right shape that hold the same slots are the same. -/
theorem State.fs_eq_of_slot_eq {s t : State} (hs : s.StoreWf) (ht : t.StoreWf) (hcfg : t.cfg = s.cfg)
    (h : ∀ k, t.slot k = s.slot k) : t.fs = s.fs := by
  apply List.ext_getElem (by rw [hs.1, ht.1, hcfg])
  intro k hkt hks
  have hk := h k
  rwa [t.slot_eq_getD ht, s.slot_eq_getD hs, List.getD_eq_getElem _ _ hkt,
    List.getD_eq_getElem _ _ hks] at hk

/-- An update that changes none of the slots it visits changes nothing. -/
theorem State.updateSlots_eq_self {s : State} {n : Nat} {g : Nat → Slot → Slot} (hstore : s.StoreWf)
    (hlen : ∀ i f, f.data.length = s.cfg.fdMax → (g i f).data.length = s.cfg.fdMax)
    (hg : ∀ i, i < n → g i (s.slot i) = s.slot i) : s.updateSlots n g = s := by
  have hslot : ∀ k, (s.updateSlots n g).slot k = s.slot k := by
    intro k
    by_cases hk : k < n ∧ k < s.fs.length
    · rw [s.slot_updateSlots, if_pos hk, hg k hk.1, padTo_eq_self _ _ (s.slot_data_length k)]
    · rw [s.slot_updateSlots, if_neg hk]
  have hfs := fs_eq_of_slot_eq hstore (s.storeWf_updateSlots n g hstore hlen) rfl hslot
  calc s.updateSlots n g = { s with fs := (s.updateSlots n g).fs } := rfl
    _ = s := by rw [hfs]

/-- A slot that holds a stamped frame has a current checksum (10_state.md R50). -/
theorem State.checksumCurrent_of_stamped {t : State} {k : Nat} {f : Slot}
    (h : t.slot k = f.stamped t.cfg.crc) : t.ChecksumCurrent k := by
  rw [ChecksumCurrent, slotCsum, h, csumData_stamped, Slot.stamped_checksum]

/-! ### Frame sets -/

theorem State.frameSet_succ (s : State) (n : Nat) : s.frameSet (n + 1) = s.frameSet n ++ [s.slot n] := by
  simp only [frameSet, List.range_succ, List.map_append, List.map_singleton]

theorem State.forall_mem_frameSet (s : State) (n : Nat) (p : Slot → Prop) :
    (∀ f ∈ s.frameSet n, p f) ↔ ∀ i, i < n → p (s.slot i) := by
  simp [frameSet]

theorem State.sumDataLen_frameSet (s : State) (n : Nat) :
    sumDataLen (s.frameSet n) = ((List.range n).map (fun i => (s.slot i).dataLen.toNat)).sum := by
  rw [sumDataLen, frameSet, List.map_map]
  rfl

theorem State.payloadOf_frameSet (s : State) (n : Nat) :
    payloadOf (s.frameSet n) =
      ((List.range n).map (fun i => (s.slot i).data.take (s.slot i).dataLen.toNat)).flatten := by
  rw [payloadOf, frameSet, List.flatMap_def, List.map_map]
  rfl

/-- A frame set splits at each of its frames. -/
theorem State.frameSet_split (s : State) {i n : Nat} (hi : i < n) :
    ∃ rest, s.frameSet n = s.frameSet i ++ s.slot i :: rest := by
  induction n with
  | zero => omega
  | succ n ih =>
    rw [frameSet_succ]
    rcases Nat.lt_succ_iff_lt_or_eq.1 hi with hlt | rfl
    · obtain ⟨rest, hrest⟩ := ih hlt
      exact ⟨rest ++ [s.slot n], by rw [hrest, List.append_assoc, List.cons_append]⟩
    · exact ⟨[], rfl⟩

/-- The exact sum of 16-bit lengths over at most 65535 slots fits 32 bits (43_frame_chunker.md R194). -/
theorem State.sumDataLen_frameSet_lt {s : State} {n : Nat} (hcfg : s.cfg.Valid) (hn : s.fitsStore n) :
    sumDataLen (s.frameSet n) < 2 ^ 32 := by
  obtain ⟨-, ⟨-, hslots⟩, -⟩ := hcfg
  have hsum : sumDataLen (s.frameSet n) ≤ n * 65535 := by
    have h := List.sum_le_card_nsmul ((s.frameSet n).map (fun f => f.dataLen.toNat)) 65535 (by
      intro x hx
      obtain ⟨f, -, rfl⟩ := List.mem_map.1 hx
      exact Nat.le_of_lt_succ f.dataLen.isLt)
    rwa [List.length_map, frameSet_length] at h
  omega

/-- Where no length exceeds `F`, a frame set's payload is as long as the sum of its lengths. -/
theorem State.payloadOf_frameSet_length {s : State} {n : Nat}
    (hle : ∀ i, i < n → (s.slot i).dataLen.toNat ≤ s.cfg.fdMax) :
    (payloadOf (s.frameSet n)).length = sumDataLen (s.frameSet n) :=
  payloadOf_length _ s.cfg.fdMax (s.frameSet_data_length n) ((s.forall_mem_frameSet n _).2 hle)

/-- The valid bytes of frame `i` stand in the payload right after those of the frames before it. -/
theorem State.payloadOf_frameSet_getD {s : State} {n i j : Nat}
    (hle : ∀ i, i < n → (s.slot i).dataLen.toNat ≤ s.cfg.fdMax) (hi : i < n)
    (hj : j < (s.slot i).dataLen.toNat) :
    (payloadOf (s.frameSet n)).getD (sumDataLen (s.frameSet i) + j) 0#8 = (s.slot i).data.getD j 0#8 := by
  obtain ⟨rest, hrest⟩ := s.frameSet_split hi
  have hbefore := payloadOf_frameSet_length fun k hk => hle k (Nat.lt_trans hk hi)
  have hframe : j < ((s.slot i).data.take (s.slot i).dataLen.toNat).length := by
    have := hle i hi
    rw [List.length_take, s.slot_data_length]
    omega
  have hsplit : payloadOf (s.frameSet n) = payloadOf (s.frameSet i) ++
      ((s.slot i).data.take (s.slot i).dataLen.toNat ++ payloadOf rest) := by
    rw [hrest, payloadOf, List.flatMap_append, List.flatMap_cons]
    rfl
  rw [hsplit, List.getD_append_right _ _ _ _ (by omega), hbefore, Nat.add_sub_cancel_left,
    List.getD_append _ _ _ _ hframe]
  simp only [List.getD_eq_getElem?_getD, List.getElem?_take_of_lt hj]

/-- The last byte of each frame's share lies inside the whole. -/
theorem State.sumDataLen_add_dataLen_le (s : State) {n i : Nat} (hi : i < n) :
    sumDataLen (s.frameSet i) + (s.slot i).dataLen.toNat ≤ sumDataLen (s.frameSet n) := by
  obtain ⟨rest, hrest⟩ := s.frameSet_split hi
  rw [hrest]
  simp only [sumDataLen, List.map_append, List.map_cons, List.sum_append, List.sum_cons]
  omega

end Sys2Proof.Machine
end

section
/-! PROOFS. The commands over a given frame set (43_frame_chunker.md R194 to R198): its total length, its
payload, and the identity and the checksums of its frames. -/

namespace Sys2Proof.Machine

/-! ### TOTLEN -/

/-- What TOTLEN leaves where COUNT fits the store (R194). -/
def State.afterTotlen (s : State) : State :=
  State.succeed { s with regs :=
    { s.regs with len := BitVec.ofNat 32 (sumDataLen (s.frameSet s.countOperand)) } }

theorem exec_totlen {s : State} (hn : s.fitsStore s.countOperand) :
    exec .totlen s = .next s.afterTotlen := if_pos hn

theorem exec_totlen_range {s : State} (hn : ¬ s.fitsStore s.countOperand) :
    exec .totlen s = .next (s.afterError 7) :=
  (if_neg hn).trans (congrArg _ (s.raise_eq_afterError .range))

/-- LEN holds the sum exactly. -/
theorem State.toNat_ofNat_sumDataLen {s : State} {n : Nat} (hcfg : s.cfg.Valid) (hn : s.fitsStore n) :
    (BitVec.ofNat 32 (sumDataLen (s.frameSet n))).toNat = sumDataLen (s.frameSet n) := by
  rw [BitVec.toNat_ofNat, Nat.mod_eq_of_lt (sumDataLen_frameSet_lt hcfg hn)]

/-- Settles O47: by whether COUNT fits the store. -/
theorem totlenEffect : Obligations.TotlenEffect := by
  refine ⟨by decide, fun s hcfg => ⟨fun hn => exec_totlen_range (Nat.not_le.2 hn), fun hn =>
    ⟨_, exec_totlen hn, ?_, rfl, rfl, rfl⟩⟩⟩
  rw [← s.sumDataLen_frameSet]
  exact State.toNat_ofNat_sumDataLen hcfg hn

/-! ### REASM -/

/-- What REASM leaves where its conditions hold (R195). -/
def State.afterReasm (s : State) : State :=
  ({ s.writePmem s.regs.addr.toNat (payloadOf (s.frameSet s.countOperand)) with
    regs := { s.regs with
      len := BitVec.ofNat 32 (sumDataLen (s.frameSet s.countOperand)) } } : State).succeed

theorem exec_reasm {s : State} (h : s.reassemblable) : exec .reasm s = .next s.afterReasm := by
  obtain ⟨hn, hle, hfits⟩ := h
  exact (if_pos hn).trans ((if_pos hle).trans (if_pos hfits))

theorem exec_reasm_range {s : State} (h : ¬ s.reassemblable) :
    exec .reasm s = .next (s.afterError 7) := by
  refine Eq.trans ?_ (congrArg _ (s.raise_eq_afterError .range))
  by_cases hn : s.fitsStore s.countOperand
  · by_cases hle : ∀ f ∈ s.frameSet s.countOperand, f.dataLen.toNat ≤ s.cfg.fdMax
    · exact (if_pos hn).trans ((if_pos hle).trans (if_neg fun hfits => h ⟨hn, hle, hfits⟩))
    · exact (if_pos hn).trans (if_neg hle)
  · exact if_neg hn

/-- The conditions of REASM, slot by slot. -/
theorem State.reassemblable_iff (s : State) :
    s.reassemblable ↔ s.countOperand ≤ s.cfg.nSlots ∧
      (∀ i, i < s.countOperand → (s.slot i).dataLen.toNat ≤ s.cfg.fdMax) ∧
      s.regs.addr.toNat + sumDataLen (s.frameSet s.countOperand) ≤ s.cfg.pmemSize := by
  rw [reassemblable, s.forall_mem_frameSet]

/-- The bytes REASM writes are as many as it reports. -/
theorem State.reassemblable_payload_length {s : State} (h : s.reassemblable) :
    (payloadOf (s.frameSet s.countOperand)).length = sumDataLen (s.frameSet s.countOperand) := by
  obtain ⟨-, hle, -⟩ := s.reassemblable_iff.1 h
  exact payloadOf_frameSet_length hle

/-- After REASM the payload of the frame set stands in PMEM at ADDR. -/
theorem State.afterReasm_readBytes {s : State} (h : s.reassemblable) :
    s.afterReasm.pmem.readBytes s.regs.addr.toNat (sumDataLen (s.frameSet s.countOperand)) =
      payloadOf (s.frameSet s.countOperand) := by
  rw [← reassemblable_payload_length h]
  exact s.pmem.readBytes_writeBytes _ _

/-- REASM changes no byte of PMEM outside the range it writes. -/
theorem State.afterReasm_read_outside {s : State} (h : s.reassemblable) {x : Nat}
    (hx : x < s.regs.addr.toNat ∨
      s.regs.addr.toNat + sumDataLen (s.frameSet s.countOperand) ≤ x) :
    s.afterReasm.pmem.read x = s.pmem.read x := by
  rw [← reassemblable_payload_length h] at hx
  exact (s.pmem.read_writeBytes _ x _).trans (if_neg (by omega))

/-- After REASM byte `j` of frame `i` stands `j` bytes after the frames before it. -/
theorem State.afterReasm_read {s : State} (h : s.reassemblable) {i j : Nat} (hi : i < s.countOperand)
    (hj : j < (s.slot i).dataLen.toNat) :
    s.afterReasm.pmem.read (s.regs.addr.toNat + sumDataLen (s.frameSet i) + j) =
      (s.slot i).data.getD j 0#8 := by
  obtain ⟨-, hle, -⟩ := s.reassemblable_iff.1 h
  have hin := s.sumDataLen_add_dataLen_le hi
  have hread := s.afterReasm.pmem.readBytes_getD s.regs.addr.toNat
    (sumDataLen (s.frameSet s.countOperand)) (sumDataLen (s.frameSet i) + j)
  rw [if_pos (by omega), afterReasm_readBytes h, payloadOf_frameSet_getD hle hi hj, ← Nat.add_assoc] at hread
  exact hread.symm

/-- Settles O48: the three failures are the three conditions of REASM negated. -/
theorem reasmEffect : Obligations.ReasmEffect := by
  refine ⟨by decide, fun s hcfg _ => ?_⟩
  simp only [← s.sumDataLen_frameSet]
  refine ⟨fun hout => exec_reasm_range fun h => ?_, fun hn hle hfits => ?_⟩
  · obtain ⟨hn, hle, hfits⟩ := s.reassemblable_iff.1 h
    rcases hout with hcount | ⟨i, hi, hlen⟩ | hpmem
    · exact Nat.not_le.2 hcount hn
    · exact Nat.not_le.2 hlen (hle i hi)
    · exact Nat.not_le.2 hpmem hfits
  · have h : s.reassemblable := s.reassemblable_iff.2 ⟨hn, hle, hfits⟩
    exact ⟨_, exec_reasm h, fun i j => State.afterReasm_read h, fun x => State.afterReasm_read_outside h,
      State.toNat_ofNat_sumDataLen hcfg hn, rfl, rfl, rfl⟩

/-! ### INIT -/

/-- What INIT leaves where COUNT fits the store (R196). -/
def State.afterInit (s : State) : State :=
  (s.updateSlots s.countOperand (Slot.initialised s.cfg s.regs s.countOperand)).succeed

theorem exec_init {s : State} (hn : s.fitsStore s.countOperand) :
    exec .init s = .next s.afterInit := if_pos hn

theorem exec_init_range {s : State} (hn : ¬ s.fitsStore s.countOperand) :
    exec .init s = .next (s.afterError 7) :=
  (if_neg hn).trans (congrArg _ (s.raise_eq_afterError .range))

theorem State.afterInit_slot_lt {s : State} (hstore : s.StoreWf) (hn : s.fitsStore s.countOperand) {i : Nat}
    (hi : i < s.countOperand) :
    s.afterInit.slot i = Slot.initialised s.cfg s.regs s.countOperand i (s.slot i) :=
  s.slot_updateSlots_lt _ i _ hstore hi hn (s.slot_data_length i)

theorem State.afterInit_slot_ge (s : State) {i : Nat} (hi : s.countOperand ≤ i) :
    s.afterInit.slot i = s.slot i :=
  s.slot_updateSlots_ge _ i _ hi

theorem State.afterInit_storeWf {s : State} (hstore : s.StoreWf) : s.afterInit.StoreWf :=
  s.storeWf_updateSlots _ _ hstore fun _ _ hf => hf

/-- The sequence number of frame `i` of `n`, which no 16-bit wrap touches (42_sequencer.md R181, R183). -/
theorem toNat_indexToWire_ofNat {mode : SeqMode} {i n : Nat} (hi : i < n) (hn : n < 65536) :
    (indexToWire mode (BitVec.ofNat 16 i) (BitVec.ofNat 24 n)).toNat =
      match mode with
      | .documented => if n = 1 then 0 else i + 1
      | .identity => i := by
  have hindex : (BitVec.ofNat 16 i).toNat = i := Nat.mod_eq_of_lt (by omega)
  have hcount : (BitVec.ofNat 24 n).toNat = n := Nat.mod_eq_of_lt (by omega)
  cases mode with
  | identity => exact hindex
  | documented =>
    by_cases hone : n = 1
    · have hlen : BitVec.ofNat 24 n = 1 := congrArg (BitVec.ofNat 24) hone
      have hzero : i = 0 := by omega
      rw [indexToWire_documented_of_eq hlen, hindex]
      exact hzero.trans (if_pos hone).symm
    · have hne : BitVec.ofNat 24 n ≠ 1 := fun h => hone (hcount.symm.trans (congrArg BitVec.toNat h))
      rw [toNat_indexToWire_documented hne, hindex]
      exact (Nat.mod_eq_of_lt (by omega)).trans (if_neg hone).symm

/-- INIT on an initialised frame set changes nothing (R196). -/
theorem State.afterInit_afterInit {s : State} (hstore : s.StoreWf) (hn : s.fitsStore s.countOperand) :
    s.afterInit.afterInit = s.afterInit := by
  have hsame : s.afterInit.updateSlots s.countOperand
      (Slot.initialised s.cfg s.regs s.countOperand) = s.afterInit :=
    updateSlots_eq_self (afterInit_storeWf hstore) (fun _ _ hf => hf) fun i hi => by
      rw [afterInit_slot_lt hstore hn hi]
      rfl
  calc s.afterInit.afterInit
      = (s.afterInit.updateSlots s.countOperand
          (Slot.initialised s.cfg s.regs s.countOperand)).succeed := rfl
    _ = s.afterInit.succeed := by rw [hsame]
    _ = s.afterInit := rfl

/-- Settles O49: INIT writes the four fields slot by slot, and what it writes it does not read. -/
theorem initEffect : Obligations.InitEffect := by
  refine ⟨by decide, fun s hcfg hstore => ⟨fun hn => exec_init_range (Nat.not_le.2 hn), fun hn =>
    ⟨_, exec_init hn, fun i hi => ?_, fun i hi => s.afterInit_slot_ge hi, rfl, rfl,
      (exec_init (s := s.afterInit) hn).trans (congrArg _ (State.afterInit_afterInit hstore hn))⟩⟩⟩
  obtain ⟨-, ⟨-, hslots⟩, -⟩ := hcfg
  rw [State.afterInit_slot_lt hstore hn hi]
  exact ⟨rfl, toNat_indexToWire_ofNat hi (Nat.lt_succ_of_le (Nat.le_trans hn hslots))⟩

/-! ### STAMP and STAMP.ALL -/

/-- What STAMP leaves where the slot exists (R197). -/
def State.afterStamp (s : State) (k : Nat) : State := (s.setSlot k (s.stampedSlot k)).succeed

theorem exec_stamp {s : State} {k : Nat} (hk : s.hasSlot k) :
    exec (.stamp k) s = .next (s.afterStamp k) := if_pos hk

theorem State.afterStamp_slot_self {s : State} {k : Nat} (hstore : s.StoreWf) (hk : s.hasSlot k) :
    (s.afterStamp k).slot k = s.stampedSlot k :=
  s.slot_setSlot_self k _ hstore hk (s.stampedSlot_data_length k)

theorem State.afterStamp_slot_ne (s : State) {j k : Nat} (hj : j ≠ k) :
    (s.afterStamp k).slot j = s.slot j := s.slot_setSlot_ne k j _ hj

theorem State.afterStamp_storeWf {s : State} {k : Nat} (hstore : s.StoreWf) : (s.afterStamp k).StoreWf :=
  s.storeWf_setSlot k _ hstore (s.stampedSlot_data_length k)

/-- The checksum of a slot is that of its image but the last two bytes (40_checksum.md R134). -/
theorem State.slotCsum_eq_image (s : State) (k : Nat) :
    s.slotCsum k = crc16 s.cfg.crc ((wireData (s.slot k)).take (20 + s.cfg.fdMax)) := by
  have hbody : (wireData (s.slot k)).take (20 + s.cfg.fdMax) = bodyData (s.slot k) :=
    List.take_left' (by rw [bodyData_length, s.slot_data_length])
  rw [hbody]
  rfl

/-- Settles O50: the slot takes its stamped frame. -/
theorem stampEffect : Obligations.StampEffect := by
  refine ⟨fun k hk => decode_formatS_word (by decide) hk rfl, fun s k hstore =>
    ⟨exec_slot_range rfl, fun hk => ?_⟩⟩
  have hself := State.afterStamp_slot_self hstore hk
  rw [← s.slotCsum_eq_image]
  exact ⟨_, exec_stamp hk, hself, State.checksumCurrent_of_stamped hself,
    fun j hj => s.afterStamp_slot_ne hj, rfl, rfl⟩

/-- What STAMP.ALL leaves where COUNT fits the store (R198). -/
def State.afterStampAll (s : State) : State :=
  (s.updateSlots s.countOperand (fun _ f => f.stamped s.cfg.crc)).succeed

theorem exec_stampAll {s : State} (hn : s.fitsStore s.countOperand) :
    exec .stampAll s = .next s.afterStampAll := if_pos hn

theorem exec_stampAll_range {s : State} (hn : ¬ s.fitsStore s.countOperand) :
    exec .stampAll s = .next (s.afterError 7) :=
  (if_neg hn).trans (congrArg _ (s.raise_eq_afterError .range))

theorem State.afterStampAll_slot_lt {s : State} (hstore : s.StoreWf) (hn : s.fitsStore s.countOperand)
    {i : Nat} (hi : i < s.countOperand) : s.afterStampAll.slot i = s.stampedSlot i :=
  s.slot_updateSlots_lt _ i _ hstore hi hn (s.slot_data_length i)

theorem State.afterStampAll_slot_ge (s : State) {i : Nat} (hi : s.countOperand ≤ i) :
    s.afterStampAll.slot i = s.slot i :=
  s.slot_updateSlots_ge _ i _ hi

theorem State.afterStampAll_storeWf {s : State} (hstore : s.StoreWf) : s.afterStampAll.StoreWf :=
  s.storeWf_updateSlots _ _ hstore fun _ _ hf => hf

theorem runCommands_cons {i : Instr} {s t : State} (is : List Instr) (h : exec i s = .next t) :
    runCommands (i :: is) s = runCommands is t := by
  simp only [runCommands, h]

/-- A list of commands that answers is run before what follows it (30_encoding.md R104). -/
theorem runCommands_append {is : List Instr} (js : List Instr) {s t : State}
    (h : runCommands is s = .next t) : runCommands (is ++ js) s = runCommands js t := by
  induction is generalizing s with
  | nil => cases h; rfl
  | cons i is ih =>
    cases hi : exec i s with
    | next u =>
      rw [runCommands_cons is hi] at h
      rw [List.cons_append, runCommands_cons _ hi, ih h]
    | fault r => simp only [runCommands, hi, reduceCtorEq] at h
    | refused r => simp only [runCommands, hi, reduceCtorEq] at h

/-- `STAMP 0; ...; STAMP n-1` stamps slots `0` to `n-1` one by one. -/
theorem runCommands_stamps {s : State} (hstore : s.StoreWf) {n : Nat} (hn : s.fitsStore n) :
    ∃ u, runCommands ((List.range n).map .stamp) s = .next u ∧ u.cfg = s.cfg ∧ u.StoreWf ∧
      (∀ i, i < n → u.slot i = s.stampedSlot i) ∧ ∀ i, n ≤ i → u.slot i = s.slot i := by
  induction n with
  | zero => exact ⟨s, rfl, rfl, hstore, fun i hi => absurd hi (Nat.not_lt_zero i), fun _ _ => rfl⟩
  | succ n ih =>
    obtain ⟨u, hrun, hcfg, hu, hdone, hkeep⟩ := ih (Nat.le_of_succ_le hn)
    have hslot : u.hasSlot n := by rw [State.hasSlot, hcfg]; exact hn
    have hself : (u.afterStamp n).slot n = s.stampedSlot n := by
      rw [State.afterStamp_slot_self hu hslot, State.stampedSlot, hkeep n (Nat.le_refl n), hcfg]
      rfl
    refine ⟨u.afterStamp n, ?_, hcfg, State.afterStamp_storeWf hu, fun i hi => ?_, fun i hi => ?_⟩
    · rw [List.range_succ, List.map_append, runCommands_append _ hrun]
      exact runCommands_cons [] (exec_stamp hslot)
    · rcases Nat.lt_succ_iff_lt_or_eq.1 hi with hlt | rfl
      · rw [u.afterStamp_slot_ne (Nat.ne_of_lt hlt), hdone i hlt]
      · exact hself
    · rw [u.afterStamp_slot_ne (Nat.ne_of_gt hi), hkeep i (Nat.le_of_succ_le hi)]

/-- Settles O51: each of the first COUNT slots takes its stamped frame, one by one or all together. -/
theorem stampAllEffect : Obligations.StampAllEffect := by
  refine ⟨by decide, fun s hstore => ⟨fun hn => exec_stampAll_range (Nat.not_le.2 hn), fun hn => ?_⟩⟩
  obtain ⟨u, hrun, hcfg, hu, hdone, hkeep⟩ := runCommands_stamps hstore hn
  refine ⟨_, u, exec_stampAll hn, fun i hi => ?_, fun i hi => s.afterStampAll_slot_ge hi, rfl, rfl, hrun, ?_⟩
  · have hslot := State.afterStampAll_slot_lt hstore hn hi
    exact ⟨hslot, State.checksumCurrent_of_stamped hslot⟩
  · refine State.fs_eq_of_slot_eq (State.afterStampAll_storeWf hstore) hu hcfg fun k => ?_
    rcases Nat.lt_or_ge k s.countOperand with hk | hk
    · exact (hdone k hk).trans (State.afterStampAll_slot_lt hstore hn hk).symm
    · exact (hkeep k hk).trans (s.afterStampAll_slot_ge hk).symm

end Sys2Proof.Machine
end

section
/-! PROOFS. The chunk commands (43_frame_chunker.md R192, R193, R200, R201): the frame set made of a list of
chunks, the pieces CHUNK.BUF cuts its payload into, and that reassembling a frame set gives the chunks back. -/

namespace Sys2Proof.Machine

/-! ### The frame set made of chunks -/

theorem Slot.chunked_data_length (c : Config) (n total : Nat) (b : List Byte) (f : Slot) :
    (f.chunked c n total b).data.length = c.fdMax := padTo_length _ _

/-- What a chunk command writes is stamped, so its checksum is current. -/
theorem Slot.chunked_eq_stamped (c : Config) (n total : Nat) (b : List Byte) (f : Slot) :
    f.chunked c n total b = (f.chunked c n total b).stamped c.crc := rfl

theorem fdMax_pos_of_valid {c : Config} (h : c.Valid) : 0 < c.fdMax := by
  obtain ⟨⟨hf, -⟩, -, -⟩ := h
  exact hf

/-- A number of frames that fits the store fits 24 bits (10_state.md R25, R31). -/
theorem State.toNat_ofNat_of_fitsStore {s : State} {n : Nat} (hvalid : s.cfg.Valid) (hn : s.fitsStore n) :
    (BitVec.ofNat 24 n).toNat = n := by
  obtain ⟨-, ⟨-, hslots⟩, -⟩ := hvalid
  exact Nat.mod_eq_of_lt (Nat.lt_of_le_of_lt (Nat.le_trans hn hslots) (by decide))

theorem ChunksOk.length_le {fdMax max total : Nat} {chunks : List (List Byte)}
    (h : ChunksOk fdMax max total chunks) : ∀ c ∈ chunks, c.length ≤ fdMax := fun c hc => by
  obtain ⟨-, hle⟩ := h.pos c hc
  exact hle

theorem length_getD_le {chunks : List (List Byte)} {m : Nat} (hlen : ∀ c ∈ chunks, c.length ≤ m) (i : Nat) :
    (chunks.getD i []).length ≤ m := by
  rcases Nat.lt_or_ge i chunks.length with hi | hi
  · rw [List.getD_eq_getElem _ _ hi]
    exact hlen _ (List.getElem_mem hi)
  · rw [List.getD_eq_default _ _ hi]
    exact Nat.zero_le m

/-- A state whose first slots have taken their chunks holds the frame set made of them: no field is too
narrow for what it takes. -/
theorem frameSetMade_of_chunked {s t : State} {chunks : List (List Byte)} {total : Nat}
    (hvalid : s.cfg.Valid) (hcfg : t.cfg = s.cfg) (hfits : s.fitsStore chunks.length)
    (hlen : ∀ c ∈ chunks, c.length ≤ s.cfg.fdMax) (htotal : total < 2 ^ 32)
    (hmade : ∀ i, i < chunks.length →
      t.slot i = (s.slot i).chunked s.cfg chunks.length total (chunks.getD i []))
    (hkeep : ∀ i, chunks.length ≤ i → t.slot i = s.slot i) : FrameSetMade s t chunks total := by
  have hnTotal := State.toNat_ofNat_of_fitsStore hvalid hfits
  obtain ⟨⟨-, hfdMax⟩, -, -⟩ := hvalid
  refine ⟨fun i hi => ?_, hkeep⟩
  have hpiece := length_getD_le hlen i
  have hcurrent : t.ChecksumCurrent i := State.checksumCurrent_of_stamped (by
    rw [hcfg]
    exact (hmade i hi).trans (Slot.chunked_eq_stamped ..))
  have hdataLen : (BitVec.ofNat 16 (chunks.getD i []).length).toNat = (chunks.getD i []).length :=
    Nat.mod_eq_of_lt (by omega)
  have htotalLen : (BitVec.ofNat 32 total).toNat = total := Nat.mod_eq_of_lt htotal
  rw [hmade i hi]
  exact ⟨padTo_short _ _ hpiece, hdataLen, hnTotal, htotalLen, hcurrent, rfl, rfl, rfl, rfl⟩

theorem range_map_getD (l : List (List Byte)) : (List.range l.length).map (fun i => l.getD i []) = l := by
  apply List.ext_getElem (by simp)
  intro i hi hl
  simp only [List.getElem_map, List.getElem_range, List.getD_eq_getElem _ _ hl]

section Made

variable {s t : State} {chunks : List (List Byte)} {total : Nat}

theorem FrameSetMade.dataLen (h : FrameSetMade s t chunks total) {i : Nat} (hi : i < chunks.length) :
    (t.slot i).dataLen.toNat = (chunks.getD i []).length := by
  obtain ⟨-, hdataLen, -⟩ := h.1 i hi
  exact hdataLen

/-- The valid bytes of each frame are its chunk. -/
theorem FrameSetMade.take_data (h : FrameSetMade s t chunks total) {i : Nat} (hi : i < chunks.length) :
    (t.slot i).data.take (t.slot i).dataLen.toNat = chunks.getD i [] := by
  obtain ⟨hdata, hdataLen, -⟩ := h.1 i hi
  rw [hdata, hdataLen, List.take_left']
  rfl

/-- Past its chunk a frame holds zeros. -/
theorem FrameSetMade.padding (h : FrameSetMade s t chunks total) {i j : Nat} (hi : i < chunks.length)
    (hj : (t.slot i).dataLen.toNat ≤ j) : (t.slot i).data.getD j 0#8 = 0 := by
  obtain ⟨hdata, hdataLen, -⟩ := h.1 i hi
  rw [hdata, List.getD_append_right _ _ _ _ (hdataLen ▸ hj), List.getD_eq_getElem?_getD]
  exact List.getElem?_getD_replicate_default_eq ..

/-- The frame set is as long as its chunks. -/
theorem FrameSetMade.sumDataLen_frameSet (h : FrameSetMade s t chunks total) :
    sumDataLen (t.frameSet chunks.length) = (chunks.map List.length).sum := by
  have hlen : (List.range chunks.length).map (fun i => (t.slot i).dataLen.toNat) =
      (List.range chunks.length).map (fun i => (chunks.getD i []).length) :=
    List.map_congr_left fun i hi => h.dataLen (List.mem_range.1 hi)
  rw [State.sumDataLen_frameSet, hlen]
  conv_rhs => rw [← range_map_getD chunks, List.map_map]
  rfl

/-- The payload of the frame set is its chunks one after another. -/
theorem FrameSetMade.payloadOf_frameSet (h : FrameSetMade s t chunks total) :
    payloadOf (t.frameSet chunks.length) = chunks.flatten := by
  have htake : (List.range chunks.length).map
        (fun i => (t.slot i).data.take (t.slot i).dataLen.toNat) =
      (List.range chunks.length).map (fun i => chunks.getD i []) :=
    List.map_congr_left fun i hi => h.take_data (List.mem_range.1 hi)
  rw [State.payloadOf_frameSet, htake, range_map_getD]

end Made

/-! ### CHUNK.BUF -/

/-- What CHUNK.BUF leaves where its payload fits the store and PMEM (R192). -/
def State.afterChunkBuf (s : State) : State :=
  ({ s.chunkedBuf with
    regs := { s.regs with count := BitVec.ofNat 24 s.frameCount } } : State).succeed

theorem exec_chunkBuf {s : State} (hn : s.fitsStore s.frameCount)
    (hfits : s.fitsPmem s.regs.addr.toNat s.regs.len.toNat) :
    exec .chunkBuf s = .next s.afterChunkBuf := (if_pos hn).trans (if_pos hfits)

theorem exec_chunkBuf_range {s : State}
    (h : ¬ (s.fitsStore s.frameCount ∧ s.fitsPmem s.regs.addr.toNat s.regs.len.toNat)) :
    exec .chunkBuf s = .next (s.afterError 7) := by
  refine Eq.trans ?_ (congrArg _ (s.raise_eq_afterError .range))
  by_cases hn : s.fitsStore s.frameCount
  · exact (if_pos hn).trans (if_neg fun hfits => h ⟨hn, hfits⟩)
  · exact if_neg hn

theorem State.payloadPieces_length (s : State) : s.payloadPieces.length = s.frameCount := by
  rw [payloadPieces, List.length_map, List.length_range]

theorem State.payloadPieces_getD (s : State) {i : Nat} (hi : i < s.frameCount) :
    s.payloadPieces.getD i [] = s.readPmem (s.regs.addr.toNat + i * s.cfg.fdMax)
      (min s.cfg.fdMax (s.regs.len.toNat - i * s.cfg.fdMax)) := by
  rw [List.getD_eq_getElem _ _ (by rwa [payloadPieces_length])]
  simp only [payloadPieces, List.getElem_map, List.getElem_range]
  rfl

/-- The pieces are a complete run of chunks: as a pull loop's, full but for the last and none of them empty. -/
theorem State.payloadPieces_chunksOk {s : State} (hvalid : s.cfg.Valid) :
    ChunksOk s.cfg.fdMax s.regs.len.toNat s.regs.len.toNat s.payloadPieces := by
  have hf := fdMax_pos_of_valid hvalid
  have hlen : ∀ i, i < s.frameCount → (s.payloadPieces.getD i []).length =
      frameLen s.cfg.fdMax s.regs.len.toNat s.frameCount i := fun i hi => by
    rw [s.payloadPieces_getD hi, readPmem, Memory.readBytes_length, frameCount, frameLen_eq_min hf hi]
  refine ⟨?_, Nat.le_refl _, fun c hc => ?_, fun k hk => ?_, fun h => absurd h (Nat.lt_irrefl _)⟩
  · rw [payloadPieces, List.map_map]
    simp only [Function.comp_def, Memory.readBytes_length, sum_piece_lengths]
    exact Nat.min_eq_left (le_ceilDiv_mul _ _ hf)
  · obtain ⟨i, hi, rfl⟩ := List.getElem_of_mem hc
    rw [← List.getD_eq_getElem _ [] hi]
    rw [payloadPieces_length] at hi
    rw [hlen i hi]
    exact frameLen_bounds hf hi
  · rw [payloadPieces_length] at hk
    rw [hlen k (Nat.lt_of_succ_lt hk), frameLen_of_next hk]

theorem State.afterChunkBuf_made {s : State} (hvalid : s.cfg.Valid) (hstore : s.StoreWf)
    (hn : s.fitsStore s.frameCount) :
    FrameSetMade s s.afterChunkBuf s.payloadPieces s.regs.len.toNat := by
  have hf := fdMax_pos_of_valid hvalid
  refine frameSetMade_of_chunked hvalid rfl (by rwa [payloadPieces_length])
    (payloadPieces_chunksOk hvalid).length_le s.regs.len.isLt ?_ ?_ <;>
    rw [payloadPieces_length] <;> intro i hi
  · rw [s.payloadPieces_getD hi, frameCount, ← frameLen_eq_min hf hi]
    exact s.slot_updateSlots_lt _ i _ hstore hi hn (Slot.chunked_data_length ..)
  · exact s.slot_updateSlots_ge _ i _ hi

theorem State.afterChunkBuf_count {s : State} (hvalid : s.cfg.Valid) (hn : s.fitsStore s.frameCount) :
    s.afterChunkBuf.regs.count.toNat = s.frameCount := toNat_ofNat_of_fitsStore hvalid hn

theorem State.afterChunkBuf_fitsStore {s : State} (hvalid : s.cfg.Valid) (hn : s.fitsStore s.frameCount) :
    s.afterChunkBuf.fitsStore s.afterChunkBuf.countOperand := by
  rw [countOperand, afterChunkBuf_count hvalid hn]
  exact hn

/-- Settles O43: by whether the frames fit the store and the payload lies inside PMEM. -/
theorem chunkBufEffect : Obligations.ChunkBufEffect := by
  refine ⟨by decide, fun s hvalid hstore => ⟨fun hout => exec_chunkBuf_range fun h => ?_,
    fun hn hfits => ⟨_, exec_chunkBuf hn hfits, State.afterChunkBuf_made hvalid hstore hn,
      s.payloadPieces_length, State.afterChunkBuf_count hvalid hn, rfl, rfl, rfl⟩⟩⟩
  obtain ⟨hn, hfits⟩ := h
  exact hout.elim (Nat.not_lt.2 hn) (Nat.not_lt.2 hfits)

/-! ### What holds of every frame set a chunk command makes -/

/-- The frame set of `n` frames and `total` payload bytes in the first slots, as R201 describes it. -/
def State.HoldsFrameSet (t : State) (n total : Nat) : Prop :=
  (∀ k, k + 1 < n → (t.slot k).dataLen.toNat = t.cfg.fdMax) ∧
    (0 < n → 1 ≤ (t.slot (n - 1)).dataLen.toNat ∧ (t.slot (n - 1)).dataLen.toNat ≤ t.cfg.fdMax) ∧
    ((List.range n).map (fun k => (t.slot k).dataLen.toNat)).sum = total ∧
    ∀ k, k < n → (t.slot k).nTotal.toNat = n ∧ (t.slot k).totalLen.toNat = total ∧
      (∀ j, (t.slot k).dataLen.toNat ≤ j → (t.slot k).data.getD j 0#8 = 0) ∧ t.ChecksumCurrent k

/-- A frame set made of a complete run of chunks is as R201 describes it. -/
theorem FrameSetMade.holdsFrameSet {s t : State} {chunks : List (List Byte)} {total : Nat}
    (h : FrameSetMade s t chunks total) (hcfg : t.cfg = s.cfg)
    (hok : ChunksOk s.cfg.fdMax total total chunks) : t.HoldsFrameSet chunks.length total := by
  refine ⟨fun k hk => ?_, fun hpos => ?_, ?_, fun k hk => ?_⟩
  · rw [h.dataLen (Nat.lt_of_succ_lt hk), hok.full k hk, hcfg]
  · have hlast : chunks.length - 1 < chunks.length := Nat.sub_one_lt_of_lt hpos
    rw [h.dataLen hlast, hcfg, List.getD_eq_getElem _ _ hlast]
    exact hok.pos _ (List.getElem_mem hlast)
  · rw [← State.sumDataLen_frameSet, h.sumDataLen_frameSet, hok.sum]
  · obtain ⟨-, -, hnTotal, htotalLen, hcurrent, -⟩ := h.1 k hk
    exact ⟨hnTotal, htotalLen, fun j => h.padding hk, hcurrent⟩

/-- The chunks a finished pull loop hands on are a complete run of as many bytes as they have, and there is
a slot for each of them. -/
theorem State.pullRun_chunksOk {s : State} {chunks : List (List Byte)} {ended : Bool} {src : Source}
    (hvalid : s.cfg.Valid) (hrun : s.pullRun = .finished chunks ended src) :
    ChunksOk s.cfg.fdMax (chunks.map List.length).sum (chunks.map List.length).sum chunks ∧
      (chunks.map List.length).sum ≤ s.regs.len.toNat ∧ chunks.length ≤ s.frameCount := by
  have hf := fdMax_pos_of_valid hvalid
  obtain ⟨hsum, hpos, hfull, hlen, -⟩ := pullLoop_finished _ _ hf _ _ _ _ _ _ _
    (ChunksOk.nil s.cfg.fdMax s.regs.len.toNat)
    (by rw [Nat.zero_add]; exact le_ceilDiv_mul _ _ hf) hrun
  exact ⟨⟨rfl, Nat.le_refl _, hpos, hfull, fun h => absurd h (Nat.lt_irrefl _)⟩, hsum, by simpa using hlen⟩

theorem State.frameChunks_made {s : State} {chunks : List (List Byte)} {ended : Bool}
    (hvalid : s.cfg.Valid) (hstore : s.StoreWf) (hfits : s.fitsStore chunks.length)
    (hlen : ∀ c ∈ chunks, c.length ≤ s.cfg.fdMax) (htotal : (chunks.map List.length).sum < 2 ^ 32) :
    FrameSetMade s (s.frameChunks chunks ended) chunks (chunks.map List.length).sum :=
  frameSetMade_of_chunked hvalid rfl hfits hlen htotal
    (fun i hi => s.slot_updateSlots_lt _ i _ hstore hi hfits (Slot.chunked_data_length ..))
    (fun i hi => s.slot_updateSlots_ge _ i _ hi)

/-- No error has the code 0, which stands for success (60_exceptions.md R240). -/
theorem State.raise_err_ne_zero (s : State) (e : ErrCode) : (s.raise e).stat.err ≠ 0 := by
  rw [raise_stat, Stat.raise_err]
  cases e <;> decide

theorem execChunkBuf_holdsFrameSet {s t : State} (hvalid : s.cfg.Valid) (hstore : s.StoreWf)
    (h : execChunkBuf s = .next t) (herr : t.stat.err = 0) :
    t.HoldsFrameSet t.regs.count.toNat t.regs.len.toNat := by
  rcases execChunkBuf_cases s t h with ⟨hn, -, rfl⟩ | ⟨-, rfl⟩
  · have hset := (State.afterChunkBuf_made hvalid hstore hn).holdsFrameSet rfl
      (State.payloadPieces_chunksOk hvalid)
    rw [s.payloadPieces_length, ← State.afterChunkBuf_count hvalid hn] at hset
    exact hset
  · exact absurd herr (s.raise_err_ne_zero .range)

theorem execChunkSrc_holdsFrameSet {s t : State} (hvalid : s.cfg.Valid) (hstore : s.StoreWf)
    (h : execChunkSrc s = .next t) (herr : t.stat.err = 0) :
    t.HoldsFrameSet t.regs.count.toNat t.regs.len.toNat := by
  rcases execChunkSrc_cases s t h with ⟨-, _, _, -, rfl⟩ | ⟨-, _, _, -, rfl⟩ |
    ⟨hn, chunks, ended, src, hrun, -, rfl⟩ | ⟨-, rfl⟩
  · exact absurd herr (State.raise_err_ne_zero _ .srcError)
  · exact absurd herr (State.raise_err_ne_zero _ .srcExhausted)
  · obtain ⟨hok, hsum, hlen⟩ := State.pullRun_chunksOk hvalid hrun
    have hfits : s.fitsStore chunks.length := Nat.le_trans hlen hn
    have htotal : (chunks.map List.length).sum < 2 ^ 32 := Nat.lt_of_le_of_lt hsum s.regs.len.isLt
    have hset := (State.frameChunks_made (s := { s with src := src }) (ended := ended) hvalid hstore hfits
      hok.length_le htotal).holdsFrameSet rfl hok
    rw [← State.toNat_ofNat_of_fitsStore hvalid hfits, ← Nat.mod_eq_of_lt htotal] at hset
    exact hset
  · exact absurd herr (s.raise_err_ne_zero .range)

/-- Settles O58: both commands make a frame set of a complete run of chunks. -/
theorem chunkedFrameSetInvariants : Obligations.ChunkedFrameSetInvariants := by
  rintro i s t hvalid hstore (rfl | rfl) h herr
  · exact execChunkBuf_holdsFrameSet hvalid hstore h herr
  · exact execChunkSrc_holdsFrameSet hvalid hstore h herr

/-! ### Chunk, total length, reassemble -/

theorem Memory.readBytes_add (m : Memory) (a k n : Nat) :
    m.readBytes a (k + n) = m.readBytes a k ++ m.readBytes (a + k) n := by
  induction k generalizing a with
  | zero => simp [readBytes]
  | succ k ih =>
    rw [Nat.succ_add, readBytes, ih, readBytes, List.cons_append, Nat.add_assoc, Nat.add_comm 1 k]

/-- The first `k` pieces of a range, one after another, are the range's first bytes. -/
theorem Memory.flatten_pieces (m : Memory) (a fdMax total k : Nat) :
    ((List.range k).map
      (fun i => m.readBytes (a + i * fdMax) (min fdMax (total - i * fdMax)))).flatten =
      m.readBytes a (min total (k * fdMax)) := by
  induction k with
  | zero => simp [readBytes]
  | succ k ih =>
    rw [List.range_succ, List.map_append, List.flatten_append, ih, List.map_singleton,
      List.flatten_singleton, Nat.succ_mul]
    rcases Nat.le_total total (k * fdMax) with hle | hle
    · have hnone : min fdMax (total - k * fdMax) = 0 := by omega
      rw [hnone, Nat.min_eq_left hle, Nat.min_eq_left (by omega)]
      exact List.append_nil _
    · have hadd : min total (k * fdMax + fdMax) = k * fdMax + min fdMax (total - k * fdMax) := by omega
      rw [Nat.min_eq_right hle, hadd, readBytes_add]

theorem State.payloadPieces_flatten {s : State} (hvalid : s.cfg.Valid) :
    s.payloadPieces.flatten = s.pmem.readBytes s.regs.addr.toNat s.regs.len.toNat := by
  have hf := fdMax_pos_of_valid hvalid
  rw [payloadPieces, Memory.flatten_pieces, Nat.min_eq_left]
  exact le_ceilDiv_mul _ _ hf

/-- The host's write of `a` to ADDR (10_state.md R32). -/
def State.withAddr (s : State) (a : Word) : State := { s with regs := { s.regs with addr := a } }

section RoundTrip

variable {s : State} (hvalid : s.cfg.Valid) (hstore : s.StoreWf) (hn : s.fitsStore s.frameCount)

include hvalid hstore hn

/-- After CHUNK.BUF the store holds as many payload bytes as were cut up. -/
theorem State.sumDataLen_afterChunkBuf :
    sumDataLen (s.afterChunkBuf.frameSet s.afterChunkBuf.countOperand) = s.regs.len.toNat := by
  have hset := afterChunkBuf_made hvalid hstore hn
  rw [countOperand, afterChunkBuf_count hvalid hn, ← payloadPieces_length, hset.sumDataLen_frameSet,
    (payloadPieces_chunksOk hvalid).sum]

/-- After CHUNK.BUF the store holds the bytes of PMEM that were cut up. -/
theorem State.payloadOf_afterChunkBuf :
    payloadOf (s.afterChunkBuf.frameSet s.afterChunkBuf.countOperand) =
      s.pmem.readBytes s.regs.addr.toNat s.regs.len.toNat := by
  have hset := afterChunkBuf_made hvalid hstore hn
  rw [countOperand, afterChunkBuf_count hvalid hn, ← payloadPieces_length, hset.payloadOf_frameSet,
    payloadPieces_flatten hvalid]

/-- TOTLEN after CHUNK.BUF finds LEN as it was. -/
theorem State.afterTotlen_afterChunkBuf_len : s.afterChunkBuf.afterTotlen.regs.len = s.regs.len :=
  BitVec.eq_of_toNat_eq ((toNat_ofNat_sumDataLen (s := s.afterChunkBuf) hvalid
    (afterChunkBuf_fitsStore hvalid hn)).trans (sumDataLen_afterChunkBuf hvalid hstore hn))

/-- After CHUNK.BUF and TOTLEN, REASM runs at every address where the payload fits. -/
theorem State.reassemblable_afterTotlen {a' : Word}
    (ha' : a'.toNat + s.regs.len.toNat ≤ s.cfg.pmemSize) :
    (s.afterChunkBuf.afterTotlen.withAddr a').reassemblable := by
  have hset := afterChunkBuf_made hvalid hstore hn
  refine (State.reassemblable_iff _).2
    ⟨afterChunkBuf_fitsStore hvalid hn, fun i hi => ?_, ?_⟩
  · have hi' : i < s.payloadPieces.length := by
      rw [payloadPieces_length, ← afterChunkBuf_count hvalid hn]
      exact hi
    have hlen := hset.dataLen hi'
    have hle := length_getD_le (payloadPieces_chunksOk hvalid).length_le i
    exact hlen.trans_le hle
  · have hsum := sumDataLen_afterChunkBuf hvalid hstore hn
    exact (congrArg (a'.toNat + ·) hsum).trans_le ha'

end RoundTrip

/-- Settles O57: CHUNK.BUF keeps the payload in the store, TOTLEN changes LEN only, and REASM writes the
store's payload, wherever it is aimed. -/
theorem chunkThenReassemble : Obligations.ChunkThenReassemble := by
  intro s t1 t2 a' hvalid hstore hlen hfits ha' h1 h2
  have hn : s.fitsStore s.frameCount := (ceilDiv_le_iff _ _ _ (by omega)).2 hlen
  obtain rfl : s.afterChunkBuf = t1 := by
    rw [exec_chunkBuf hn hfits] at h1
    exact Host.Outcome.next.inj h1
  obtain rfl : s.afterChunkBuf.afterTotlen = t2 := by
    rw [exec_totlen (State.afterChunkBuf_fitsStore hvalid hn)] at h2
    exact Host.Outcome.next.inj h2
  have hreasm := State.reassemblable_afterTotlen hvalid hstore hn ha'
  have hsum := State.sumDataLen_afterChunkBuf hvalid hstore hn
  have hbytes := State.afterReasm_readBytes hreasm
  refine ⟨rfl, rfl, State.afterTotlen_afterChunkBuf_len hvalid hstore hn, _, exec_reasm hreasm, rfl,
    ?_, fun x hx => ?_⟩
  · rw [← hsum]
    exact hbytes.trans ((State.payloadOf_afterChunkBuf hvalid hstore hn).trans (by rw [hsum]))
  · rw [← hsum] at hx
    exact State.afterReasm_read_outside hreasm hx

end Sys2Proof.Machine
end

section
/-! PROOFS. The frame access commands (44_access_and_system.md R220 to R223): what a slot's fields become in
the staging registers and back, and what a slot's data become in PMEM and back. -/

namespace Sys2Proof.Machine

/-! ### FGET and FPUT -/

/-- Byte `k` of a header held in a register is header byte `k` (10_state.md R21). -/
theorem byteOf_header_pack (h : Header) :
    byteOf 32 h.pack 0 = h.b0 ∧ byteOf 32 h.pack 1 = h.b1 ∧ byteOf 32 h.pack 2 = h.b2 ∧
      byteOf 32 h.pack 3 = h.b3 :=
  have h' := h.unpack_pack
  ⟨congrArg Header.b0 h', congrArg Header.b1 h', congrArg Header.b2 h', congrArg Header.b3 h'⟩

/-- The staging registers hold all of a slot but its data, so staging it back loses nothing. -/
theorem Regs.stageInto_loadSlot (x : Regs) (f g : Slot) :
    (x.loadSlot f).stageInto g = { f with data := g.data } := by
  simp only [stageInto, loadSlot, Header.unpack_pack]

/-- What FGET leaves where the slot exists (R220). -/
def State.afterFget (s : State) (k : Nat) : State :=
  ({ s with regs := s.regs.loadSlot (s.slot k) } : State).succeed

/-- What FPUT leaves where the slot exists (R221). -/
def State.afterFput (s : State) (k : Nat) : State :=
  (s.setSlot k (s.regs.stageInto (s.slot k))).succeed

theorem State.afterFput_slot_ne (s : State) {j k : Nat} (hj : j ≠ k) :
    (s.afterFput k).slot j = s.slot j := s.slot_setSlot_ne k j _ hj

section Staging

variable {s : State} {k : Nat}

theorem exec_fget (hk : s.hasSlot k) : exec (.fget k) s = .next (s.afterFget k) := if_pos hk

theorem exec_fput (hk : s.hasSlot k) : exec (.fput k) s = .next (s.afterFput k) := if_pos hk

theorem State.afterFput_slot_self (hstore : s.StoreWf) (hk : s.hasSlot k) :
    (s.afterFput k).slot k = s.regs.stageInto (s.slot k) :=
  s.slot_setSlot_self k _ hstore hk (s.slot_data_length k)

/-- FGET leaves the store alone, so FPUT after it stages the slot FGET has read. -/
theorem State.afterFget_afterFput_slot_self {d : Nat} (hstore : s.StoreWf) (hd : s.hasSlot d) :
    ((s.afterFget k).afterFput d).slot d = { s.slot k with data := (s.slot d).data } :=
  calc ((s.afterFget k).afterFput d).slot d
      = (s.regs.loadSlot (s.slot k)).stageInto (s.slot d) :=
        afterFput_slot_self (s := s.afterFget k) hstore hd
    _ = { s.slot k with data := (s.slot d).data } := s.regs.stageInto_loadSlot _ _

end Staging

/-- Settles O52: the staging registers take the slot's fields, HDR its packed header. -/
theorem fgetEffect : Obligations.FgetEffect := by
  refine ⟨fun k hk => decode_formatS_word (by decide) hk rfl, fun s k =>
    ⟨exec_slot_range rfl, fun hk => ⟨_, exec_fget hk, ?_⟩⟩⟩
  obtain ⟨h0, h1, h2, h3⟩ := byteOf_header_pack (s.slot k).header
  exact ⟨h0, h1, h2, h3, rfl, rfl, rfl⟩

/-- Settles O53: the slot takes the staging registers, which after FGET hold what FGET has read. -/
theorem fputEffect : Obligations.FputEffect :=
  ⟨fun _ hk => decode_formatS_word (by decide) hk rfl,
    fun s _ hstore => ⟨exec_slot_range rfl, fun hk => ⟨_, exec_fput hk,
      State.afterFput_slot_self hstore hk, fun _ => s.afterFput_slot_ne, rfl, rfl⟩⟩,
    fun s k _ hstore hk hd => ⟨_, runCommands_pair (exec_fget hk) (exec_fput hd),
      State.afterFget_afterFput_slot_self hstore hd, fun _ => (s.afterFget k).afterFput_slot_ne⟩⟩

/-! ### DGET and DPUT -/

/-- What DGET leaves where the slot exists and the window lies inside PMEM (R222). -/
def State.afterDget (s : State) (k : Nat) : State :=
  (s.writePmem s.regs.addr.toNat (s.slot k).data).succeed

/-- What DPUT leaves where the slot exists and the window lies inside PMEM (R223). -/
def State.afterDput (s : State) (k : Nat) : State :=
  (s.setSlot k { s.slot k with data := s.readPmem s.regs.addr.toNat s.cfg.fdMax }).succeed

/-- After DGET the window holds the slot's data, padding included. -/
theorem State.afterDget_read_window (s : State) (k : Nat) {j : Nat} (hj : j < s.cfg.fdMax) :
    (s.afterDget k).pmem.read (s.regs.addr.toNat + j) = (s.slot k).data.getD j 0#8 := by
  have hread := s.pmem.read_writeBytes s.regs.addr.toNat (s.regs.addr.toNat + j) (s.slot k).data
  rwa [s.slot_data_length, if_pos (by omega), Nat.add_sub_cancel_left] at hread

theorem State.afterDget_read_outside (s : State) (k : Nat) {x : Nat}
    (hx : x < s.regs.addr.toNat ∨ s.regs.addr.toNat + s.cfg.fdMax ≤ x) :
    (s.afterDget k).pmem.read x = s.pmem.read x := by
  have hread := s.pmem.read_writeBytes s.regs.addr.toNat x (s.slot k).data
  rwa [s.slot_data_length, if_neg (by omega)] at hread

theorem State.afterDput_slot_ne (s : State) {j k : Nat} (hj : j ≠ k) :
    (s.afterDput k).slot j = s.slot j := s.slot_setSlot_ne k j _ hj

section Window

variable {s : State} {k : Nat}

theorem exec_dget (hk : s.hasSlot k) (hfits : s.fitsPmem s.regs.addr.toNat s.cfg.fdMax) :
    exec (.dget k) s = .next (s.afterDget k) := (if_pos hk).trans (if_pos hfits)

theorem exec_dput (hk : s.hasSlot k) (hfits : s.fitsPmem s.regs.addr.toNat s.cfg.fdMax) :
    exec (.dput k) s = .next (s.afterDput k) := (if_pos hk).trans (if_pos hfits)

/-- DGET and DPUT test the slot and then the window; both failures raise RANGE. -/
theorem exec_window_range {i : Instr} (hi : i = .dget k ∨ i = .dput k)
    (hout : s.cfg.nSlots ≤ k ∨ s.cfg.pmemSize < s.regs.addr.toNat + s.cfg.fdMax) :
    exec i s = .next (s.afterError 7) := by
  rcases Nat.lt_or_ge k s.cfg.nSlots with hk | hk
  · have hfits : ¬ s.fitsPmem s.regs.addr.toNat s.cfg.fdMax :=
      Nat.not_le.2 (hout.resolve_left (Nat.not_le.2 hk))
    refine Eq.trans ?_ (congrArg _ (s.raise_eq_afterError .range))
    rcases hi with rfl | rfl <;> exact (if_pos hk).trans (if_neg hfits)
  · exact exec_slot_range (by rcases hi with rfl | rfl <;> rfl) hk

theorem State.afterDput_slot_self (hstore : s.StoreWf) (hk : s.hasSlot k) :
    (s.afterDput k).slot k =
      { s.slot k with data := s.pmem.readBytes s.regs.addr.toNat s.cfg.fdMax } :=
  s.slot_setSlot_self k _ hstore hk (s.pmem.readBytes_length _ _)

end Window

/-- Settles O54: a slot's data are `F` bytes, which the window takes in one block write. -/
theorem dgetEffect : Obligations.DgetEffect :=
  ⟨fun _ hk => decode_formatS_word (by decide) hk rfl,
    fun s k => ⟨exec_window_range (.inl rfl), fun hk hfits => ⟨_, exec_dget hk hfits,
      fun _ => s.afterDget_read_window k, fun _ => s.afterDget_read_outside k, rfl, rfl⟩⟩⟩

/-- Settles O55: the window is `F` bytes, which the slot takes as its data. -/
theorem dputEffect : Obligations.DputEffect :=
  ⟨fun _ hk => decode_formatS_word (by decide) hk rfl,
    fun s _ hstore => ⟨exec_window_range (.inr rfl), fun hk hfits => ⟨_, exec_dput hk hfits,
      State.afterDput_slot_self hstore hk, fun _ => s.afterDput_slot_ne, rfl, rfl⟩⟩⟩

end Sys2Proof.Machine
end

section
/-! PROOFS. The system commands (44_access_and_system.md R224 to R226), and the reset values of the registers
(10_state.md R48) that SRST restores. -/

namespace Sys2Proof.Machine

/-! ### Reset values -/

theorem toNat_append_byte {n : Nat} (v : BitVec n) (b : Byte) :
    (v ++ b).toNat = v.toNat * 2 ^ 8 + b.toNat := by
  rw [BitVec.toNat_append, ← Nat.shiftLeft_add_eq_or_of_lt b.isLt, Nat.shiftLeft_eq]

/-- The header in a register as the sum of 10_state.md R21. -/
theorem toNat_header_pack (h : Header) :
    h.pack.toNat = h.b0.toNat + h.b1.toNat * 2 ^ 8 + h.b2.toNat * 2 ^ 16 + h.b3.toNat * 2 ^ 24 := by
  have hpack : h.pack.toNat = ((h.b3.toNat * 2 ^ 8 + h.b2.toNat) * 2 ^ 8 + h.b1.toNat) * 2 ^ 8 +
      h.b0.toNat := by
    simp only [Header.pack, toNat_append_byte]
  omega

theorem Regs.reset_atReset (c : Config) : (Regs.reset c).AtReset c.magic :=
  ⟨toNat_header_pack c.magic, rfl⟩

theorem Stat.toWord_reset : Stat.reset.toWord = 0 := by decide

/-! ### The three commands -/

theorem exec_nop (s : State) : exec .nop s = .next s.succeed := rfl

theorem exec_clrerr (s : State) : exec .clrerr s = .next { s with stat := s.stat.clearErrors } := rfl

theorem exec_srst (s : State) : exec .srst s = .next s.resetRegs := rfl

/-- Settles O27: NOP only completes. -/
theorem nopEffect : Obligations.NopEffect := ⟨by decide, exec_nop⟩

/-- Settles O28: CLRERR clears the two error fields of STAT. -/
theorem clrerrEffect : Obligations.ClrerrEffect := ⟨by decide, exec_clrerr⟩

/-- Settles O29: SRST restores the reset values, HDR's being MAGIC packed. -/
theorem srstEffect : Obligations.SrstEffect :=
  ⟨by decide, fun s => ⟨_, exec_srst s, Regs.reset_atReset s.cfg, Stat.toWord_reset, rfl, rfl⟩⟩

end Sys2Proof.Machine
end

section
/-! PROOFS. How a command ends (60_exceptions.md): every command answers a next state (R255), and what the ways
a command can fail leave unchanged (R250). -/

namespace Sys2Proof.Machine

/-! ### Every command ends -/

/-- A command ends in a state from which FPC goes on (60_exceptions.md R255). -/
def Answers (r : Result) : Prop := ∃ t, r = .next t

theorem Answers.next (t : State) : Answers (.next t) := ⟨t, rfl⟩

/-- A check that a command makes on its operands ends it in neither case. -/
theorem Answers.ite {p : Prop} [Decidable p] {a b : Result} (ha : Answers a) (hb : Answers b) :
    Answers (if p then a else b) := by
  split
  · exact ha
  · exact hb

/-- The pull loop of CHUNK.SRC ends in one of two ways, and the command answers after both. -/
theorem execChunkSrc_answers (s : State) : Answers (execChunkSrc s) := by
  refine .ite ?_ (.next _)
  cases pullLoop s.cfg.fdMax s.regs.len.toNat (ceilDiv s.regs.len.toNat s.cfg.fdMax) 0 [] s.src with
  | failed done src => exact .next _
  | finished chunks ended src => exact .ite (.next _) (.next _)

/-- Settles O17, by the checks each command makes: none, one, two or three nested, or the pull loop. -/
theorem everyCommandEnds : Obligations.EveryCommandEnds := by
  intro i s
  change Answers (exec i s)
  cases i with
  | nop | clrerr | srst | serCtrl | pack24 | unpack24 | seqI2w | seqW2i => exact .next _
  | crcCalc | crcStamp | serData | totlen | init | stamp | stampAll | fget | fput =>
    exact .ite (.next _) (.next _)
  | crcCheck | desCtrl | chunkBuf | dget | dput => exact .ite (.ite (.next _) (.next _)) (.next _)
  | desData | reasm => exact .ite (.ite (.ite (.next _) (.next _)) (.next _)) (.next _)
  | chunkSrc => exact execChunkSrc_answers s

/-! ### The ways a command can fail -/

/-- The first exception of 60_exceptions.md R250: CRC.CHECK clears CRCOK whatever it raises, DES.CTRL and
DES.DATA with every code but RANGE. -/
def ClearsCrcok (i : Instr) (code : BitVec 4) : Prop :=
  i = .crcCheck ∨ ((i = .desCtrl ∨ ∃ k, i = .desData k) ∧ code ≠ 7)

/-- The four ways in which the command `i` can fail in `s`, each with the state it leaves; `exec_failsTo` ties
them to the model. -/
inductive FailsTo (i : Instr) (s : State) : State → Prop
  /-- An operand is out of range, and the command has done nothing yet. -/
  | range (hi : i ≠ .crcCheck) : FailsTo i s (s.raise .range)
  /-- A check of the wire buffer fails. -/
  | check (e : ErrCode) (hi : ClearsCrcok i e.code) : FailsTo i s ((s.setCrcok false).raise e)
  /-- The source has been pulled and gave no byte. -/
  | exhausted (hi : i = .chunkSrc) (src : Source) :
      FailsTo i s (({ s with src := src } : State).raise .srcExhausted)
  /-- The source has been pulled and answered `Err` after `done` frames. -/
  | source (hi : i = .chunkSrc) (src : Source) (done : Nat) :
      FailsTo i s (({ s with src := src } : State).srcFailed done)

/-- The commands that test their operands once, up front: what does not succeed has raised RANGE. -/
theorem FailsTo.of_succeed_or_range {p q : Prop} {i : Instr} {s t u : State} (herr : t.stat.err ≠ 0)
    (hi : i ≠ .crcCheck) (h : (p ∧ t = u.succeed) ∨ (q ∧ t = s.raise .range)) : FailsTo i s t := by
  rcases h with ⟨-, rfl⟩ | ⟨-, rfl⟩
  · exact absurd rfl herr
  · exact .range hi

/-- What a failed command can have done: a command that ends with ERR not 0 has failed in one of the four
ways. -/
theorem exec_failsTo {i : Instr} {s t : State} (h : exec i s = .next t) (herr : t.stat.err ≠ 0) :
    FailsTo i s t := by
  cases i with
  | nop | clrerr | srst | serCtrl | pack24 | unpack24 | seqI2w | seqW2i => cases h; exact absurd rfl herr
  | crcCalc => exact .of_succeed_or_range herr nofun (execCrcCalc_cases s t h)
  | crcStamp => exact .of_succeed_or_range herr nofun (execCrcStamp_cases s t h)
  | serData k => exact .of_succeed_or_range herr nofun (execSerData_cases k s t h)
  | totlen => exact .of_succeed_or_range herr nofun (execTotlen_cases s t h)
  | reasm => exact .of_succeed_or_range herr nofun (execReasm_cases s t h)
  | init => exact .of_succeed_or_range herr nofun (execInit_cases s t h)
  | stamp k => exact .of_succeed_or_range herr nofun (execStamp_cases k s t h)
  | stampAll => exact .of_succeed_or_range herr nofun (execStampAll_cases s t h)
  | fget k => exact .of_succeed_or_range herr nofun (execFget_cases k s t h)
  | fput k => exact .of_succeed_or_range herr nofun (execFput_cases k s t h)
  | dget k => exact .of_succeed_or_range herr nofun (execDget_cases k s t h)
  | dput k => exact .of_succeed_or_range herr nofun (execDput_cases k s t h)
  | chunkBuf =>
    rcases execChunkBuf_cases s t h with ⟨-, -, rfl⟩ | ⟨-, rfl⟩
    · exact absurd rfl herr
    · exact .range nofun
  | crcCheck =>
    rcases execCrcCheck_cases s t h with ⟨-, -, rfl⟩ | ⟨-, -, rfl⟩ | ⟨-, rfl⟩
    · exact absurd rfl herr
    · exact .check .csum (.inl rfl)
    · exact .check .range (.inl rfl)
  | desCtrl =>
    rcases execDesCtrl_cases s t h with ⟨-, -, rfl⟩ | ⟨-, -, rfl⟩ | ⟨-, rfl⟩
    · exact absurd rfl herr
    · exact .check .csum (.inr ⟨.inl rfl, by decide⟩)
    · exact .check .short (.inr ⟨.inl rfl, by decide⟩)
  | desData k =>
    rcases execDesData_cases k s t h with ⟨-, -, -, rfl⟩ | ⟨-, -, -, rfl⟩ | ⟨-, -, rfl⟩ | ⟨-, rfl⟩
    · exact absurd rfl herr
    · exact .check .csum (.inr ⟨.inr ⟨k, rfl⟩, by decide⟩)
    · exact .check .short (.inr ⟨.inr ⟨k, rfl⟩, by decide⟩)
    · exact .range nofun
  | chunkSrc =>
    rcases execChunkSrc_cases s t h with ⟨-, done, src, -, rfl⟩ | ⟨-, _, src, -, rfl⟩ |
      ⟨-, _, _, _, -, -, rfl⟩ | ⟨-, rfl⟩
    · exact .source rfl src done
    · exact .exhausted rfl src
    · exact absurd rfl herr
    · exact .range nofun

/-! ### What each way leaves unchanged -/

section Failure

variable {i : Instr} {s t : State}

theorem ClearsCrcok.ne_chunkSrc {code : BitVec 4} (h : ClearsCrcok i code) : i ≠ .chunkSrc := by
  rcases h with rfl | ⟨rfl | ⟨k, rfl⟩, -⟩ <;> nofun

theorem not_clearsCrcok_range (hi : i ≠ .crcCheck) : ¬ ClearsCrcok i 7
  | .inl hcheck => hi hcheck
  | .inr hdes => hdes.2 rfl

theorem FailsTo.sticky_limit (h : FailsTo i s t) :
    t.stat.sticky = s.stat.sticky ||| (1#8 <<< t.stat.err.toNat) ∧ t.stat.limit = s.stat.limit := by
  cases h <;> exact ⟨rfl, rfl⟩

theorem FailsTo.crcok (h : FailsTo i s t) :
    (ClearsCrcok i t.stat.err → t.stat.crcok = false) ∧
      (¬ ClearsCrcok i t.stat.err → t.stat.crcok = s.stat.crcok) := by
  cases h with
  | range hi => exact ⟨fun hclear => absurd hclear (not_clearsCrcok_range hi), fun _ => rfl⟩
  | check e hi => exact ⟨fun _ => rfl, fun hkept => absurd hi hkept⟩
  | exhausted hi | source hi => exact ⟨fun hclear => absurd hi hclear.ne_chunkSrc, fun _ => rfl⟩

theorem FailsTo.frame (h : FailsTo i s t) :
    t.regs = s.regs ∧ t.wlen = s.wlen ∧ t.wbuf = s.wbuf ∧ t.pmem = s.pmem ∧ t.cfg = s.cfg ∧
      t.script = s.script ∧ t.reports = s.reports := by
  cases h <;> exact ⟨rfl, rfl, rfl, rfl, rfl, rfl, rfl⟩

theorem FailsTo.src_eq (h : FailsTo i s t) (hi : i ≠ .chunkSrc) : t.src = s.src := by
  cases h with
  | range | check => rfl
  | exhausted hsrc | source hsrc => exact absurd hsrc hi

/-- Only SRC_ERROR touches the frame store. -/
theorem FailsTo.fs_eq (h : FailsTo i s t) (hi : ¬ (i = .chunkSrc ∧ t.stat.err = 5)) : t.fs = s.fs := by
  cases h with
  | range | check | exhausted => rfl
  | source hsrc => exact absurd ⟨hsrc, rfl⟩ hi

/-- SRC_ERROR leaves free values in `data` and `data_len` of slots, and every other field as it was. -/
theorem State.srcFailed_slot (s : State) (done k : Nat) :
    (s.srcFailed done).slot k =
      { s.slot k with data := ((s.srcFailed done).slot k).data,
                      dataLen := ((s.srcFailed done).slot k).dataLen } := by
  have hslot : (s.srcFailed done).slot k =
      (s.updateSlots (done + 1) (Slot.scrambled s.cfg.fdMax s.freeDraws)).slot k := rfl
  rw [hslot, slot_updateSlots]
  split <;> rfl

/-- The second exception of 60_exceptions.md R250 bounds what SRC_ERROR does to a slot; the other failures keep
every slot whole. -/
theorem FailsTo.slot (h : FailsTo i s t) (k : Nat) :
    t.slot k = { s.slot k with data := (t.slot k).data, dataLen := (t.slot k).dataLen } := by
  cases h with
  | range | check | exhausted => rfl
  | source _ src done => exact State.srcFailed_slot { s with src := src } done k

end Failure

/-- Settles O18: an illegal word raises ILLEGAL, and each clause holds of the four ways a command can fail. -/
theorem failedCommandsAreAllOrNothing : Obligations.FailedCommandsAreAllOrNothing := by
  refine ⟨fun s w ⟨e, he⟩ => ?_, fun i s t h herr => ?_⟩
  · rw [s.runCommand_of_error he]
    exact congrArg _ (s.raise_eq_afterError .illegal)
  · have hfail := exec_failsTo h herr
    exact ⟨hfail.sticky_limit, hfail.crcok, hfail.frame, hfail.src_eq, hfail.fs_eq, hfail.slot⟩

end Sys2Proof.Machine
end

section
/-! PROOFS. The command word and its encoding (30_encoding.md R90 to R103): encoder and decoder use one opcode
map, so each undoes the other. -/

namespace Sys2Proof

/-! ### The opcode map in both directions -/

theorem opcodeForm_opcode_formatN {i : Instr} (h : i.slotOperand = none) :
    opcodeForm i.opcode = some (.formatN i) := by
  cases i with
  | serData | desData | stamp | fget | fput | dget | dput => cases h
  | _ => rfl

theorem opcodeForm_opcode_formatS {i : Instr} {k : Nat} (h : i.slotOperand = some k) :
    ∃ mk, opcodeForm i.opcode = some (.formatS mk) ∧ mk k = i := by
  cases i with
  | serData | desData | stamp | fget | fput | dget | dput => cases h; exact ⟨_, rfl, rfl⟩
  | _ => cases h

theorem opcode_slot_of_formatN {op : Byte} {i : Instr} (hform : opcodeForm op = some (.formatN i)) :
    i.opcode = op ∧ i.slotOperand = none := by
  unfold opcodeForm at hform
  split at hform <;> cases hform <;> exact ⟨BitVec.eq_of_toNat_eq (Eq.symm ‹_›), rfl⟩

theorem opcode_of_formatS {op : Byte} {mk : Nat → Instr} (hform : opcodeForm op = some (.formatS mk))
    (k : Nat) : (mk k).opcode = op := by
  unfold opcodeForm at hform
  split at hform <;> cases hform <;> exact BitVec.eq_of_toNat_eq (Eq.symm ‹_›)

theorem Instr.wf_of_slot_lt {i : Instr} (h : i.slotOperand.getD 0 < 65536) : i.wf = true := by
  unfold wf
  split
  · rfl
  next k hk => exact decide_eq_true (by rwa [hk] at h)

/-! ### Decoding an encoding -/

/-- Settles O1: the word's fields are the command's opcode and slot, and the opcode selects the command's own
row of the map. -/
theorem decodeOfEncodeIsTheCommand : Obligations.DecodeOfEncodeIsTheCommand := by
  intro i hwf
  obtain ⟨hop, hrsv, himm⟩ := Laws.EncodedFields.of_fields i hwf
  cases hslot : i.slotOperand with
  | none =>
    have hzero : wordImm (encode i) = 0 := BitVec.eq_of_toNat_eq (by rw [himm, hslot]; rfl)
    exact decode_of_formatN hrsv (hop ▸ opcodeForm_opcode_formatN hslot) hzero
  | some k =>
    obtain ⟨mk, hform, hmk⟩ := opcodeForm_opcode_formatS hslot
    rw [decode_of_formatS hrsv (hop ▸ hform), himm, hslot, Option.getD_some, hmk]

/-! ### Encoding what has been decoded -/

/-- What a legal word says of the command it decodes to. -/
theorem fields_of_decode {w : Word} {i : Instr} (h : decode w = .ok i) :
    i.opcode = wordOp w ∧ wordRsv w = 0 ∧ i.slotOperand.getD 0 = (wordImm w).toNat := by
  by_cases hrsv : wordRsv w = 0
  · cases hform : opcodeForm (wordOp w) with
    | none =>
      rw [decode_of_unknownOpcode hrsv hform] at h
      cases h
    | some form =>
      cases form with
      | formatN j =>
        by_cases himm : wordImm w = 0
        · rw [decode_of_formatN hrsv hform himm] at h
          cases h
          obtain ⟨hop, hslot⟩ := opcode_slot_of_formatN hform
          exact ⟨hop, hrsv, by rw [hslot, himm]; rfl⟩
        · rw [decode_of_immediate hrsv hform himm] at h
          cases h
      | formatS mk =>
        rw [decode_of_formatS hrsv hform] at h
        cases h
        exact ⟨opcode_of_formatS hform _, hrsv, by rw [slotOperand_of_formatS hform, Option.getD_some]⟩
  · rw [decode_of_reservedBits hrsv] at h
    cases h

/-- A word whose reserved bits are 0 is its opcode and its immediate (30_encoding.md R90). -/
theorem word_of_fields {w : Word} (hrsv : wordRsv w = 0) :
    BitVec.ofNat 32 ((wordOp w).toNat + (wordImm w).toNat * 2 ^ 16) = w := by
  obtain ⟨hop, hrsv', himm⟩ := fields_toNat w
  have hzero : w.toNat / 256 % 256 = 0 := hrsv'.symm.trans (congrArg BitVec.toNat hrsv)
  have hsum : w.toNat % 256 + w.toNat / 65536 * 2 ^ 16 = w.toNat := by omega
  rw [hop, himm, hsum, BitVec.ofNat_toNat, BitVec.setWidth_eq]

/-- Settles O2: the command has the opcode and the slot of the word's fields, so it is made into the same
word, and an immediate fits the slot's 16 bits. -/
theorem encodeOfDecodeIsTheWord : Obligations.EncodeOfDecodeIsTheWord := by
  intro w i h
  obtain ⟨hop, hrsv, hslot⟩ := fields_of_decode h
  exact ⟨by rw [encode, hop, hslot, word_of_fields hrsv],
    Instr.wf_of_slot_lt (hslot ▸ (wordImm w).isLt)⟩

/-- Settles O5: nine of the words are legal, and each of the others has one of the three defects of R101. -/
theorem sampleWordsDecode : Obligations.SampleWordsDecode := by
  refine ⟨?_, ?_, ?_, ?_, ?_, ?_, ?_, ?_, ?_, decode_of_unknownOpcode (by decide) rfl,
    decode_of_reservedBits (by decide), decode_of_immediate (by decide) rfl (by decide)⟩ <;> decide

end Sys2Proof
end

section
/-! PROOFS. One step of the machine (20_memory.md R71): which action it takes, what no step changes, and what
the configuration registers and STAT show (10_state.md R38, R45). -/

namespace Sys2Proof.Machine

/-! ### The next action -/

theorem step_of_empty_script {s : State} (hvalid : s.cfg.Valid) (h : s.script = []) : step s = .next s := by
  simp only [step, nextAction, h]
  exact if_pos hvalid

theorem step_of_script {s : State} {a : HostAction} {rest : List HostAction} (hvalid : s.cfg.Valid)
    (h : s.script = a :: rest) : step s = perform { s with script := rest } a := by
  simp only [step, nextAction, h]
  exact if_pos hvalid

/-- Settles O6: the action is a write to CMD, which runs the word. -/
theorem stepRunsTheDecodedCommand : Obligations.StepRunsTheDecodedCommand := by
  intro s w i rest hvalid hscript hdecode
  obtain ⟨-, hwf⟩ := encodeOfDecodeIsTheWord w i hdecode
  refine ⟨hwf, ?_⟩
  rw [step_of_script hvalid hscript, perform_regWrite _ w (by decide)]
  exact State.runCommand_of_ok _ hdecode

/-- Settles O7: with no action to take the step is idle. -/
theorem idleMachineKeepsItsState : Obligations.IdleMachineKeepsItsState := fun _ => step_of_empty_script

/-! ### What no action changes -/

/-- No host action changes the configuration or the actions still to come. -/
theorem perform_keeps {s t : State} {a : HostAction} (h : perform s a = .next t) :
    t.cfg = s.cfg ∧ t.script = s.script := by
  rcases perform_cases s t a h with ⟨_, -, -, rfl⟩ | ⟨w, -, hrun⟩ | ⟨_, _, -, -, -, ht⟩ | ⟨_, -, -, rfl⟩ |
    ⟨_, _, -, -, rfl⟩ | ⟨_, -, -, rfl⟩ | ⟨_, _, -, -, rfl⟩ | ⟨_, -, rfl⟩
  case inr.inl =>
    rcases s.runCommand_cases w t hrun with ⟨i, -, hexec⟩ | ⟨-, rfl⟩
    · obtain ⟨hcfg, hscript, -⟩ := exec_keeps i s t hexec
      exact ⟨hcfg, hscript⟩
    · exact ⟨rfl, rfl⟩
  case inr.inr.inl => rw [ht]; exact ⟨rfl, rfl⟩
  all_goals exact ⟨rfl, rfl⟩

theorem step_cfg {s t : State} (h : step s = .next t) : t.cfg = s.cfg := by
  obtain ⟨-, ⟨-, rfl⟩ | ⟨a, rest, -, hperform⟩⟩ := step_cases s t h
  · rfl
  · obtain ⟨hcfg, -⟩ := perform_keeps hperform
    exact hcfg

/-- Registers 24 to 31 show the configuration and nothing else (10_state.md R45). -/
theorem State.regRead_config {s t : State} (hcfg : t.cfg = s.cfg) {n : Nat} (hlow : 24 ≤ n)
    (hhigh : n < 32) : t.regRead n = s.regRead n := by
  interval_cases n <;> simp only [regRead, regOfNumber, readReg, hcfg]

/-- Settles O10: no action changes the configuration, and registers 24 to 31 show only it. -/
theorem configurationNeverChanges : Obligations.ConfigurationNeverChanges := fun _ _ h =>
  ⟨step_cfg h, fun _ => State.regRead_config (step_cfg h)⟩

/-- Settles O12: a read adds a report, a register write reaches operand registers and WLEN only, and a byte
write its memory only. -/
theorem hostAccessesKeepFramesAndStatus : Obligations.HostAccessesKeepFramesAndStatus := by
  intro s a t h hcmd hreset
  rcases perform_cases s t a h with ⟨_, -, -, rfl⟩ | ⟨w, rfl, -⟩ | ⟨_, _, rfl, -, -, ht⟩ | ⟨_, -, -, rfl⟩ |
    ⟨_, _, rfl, -, rfl⟩ | ⟨_, -, -, rfl⟩ | ⟨_, _, rfl, -, rfl⟩ | ⟨c, rfl, -⟩
  case inr.inl => exact absurd rfl (hcmd w)
  case inr.inr.inl => rw [ht]; exact ⟨rfl, rfl, rfl, rfl, nofun⟩
  case inr.inr.inr.inr.inl | inr.inr.inr.inr.inr.inr.inl => exact ⟨rfl, rfl, rfl, rfl, nofun⟩
  case inr.inr.inr.inr.inr.inr.inr => exact absurd rfl (hreset c)
  all_goals exact ⟨rfl, rfl, rfl, rfl, fun _ => rfl⟩

/-! ### Scripts -/

theorem State.runCommand_answers (s : State) (w : Word) : Answers (s.runCommand w) := by
  cases hdecode : decode w with
  | ok i =>
    rw [s.runCommand_of_ok hdecode]
    exact everyCommandEnds i s
  | error e => exact ⟨_, s.runCommand_of_error hdecode⟩

theorem State.regWrite_answers (s : State) (n : Nat) (v : Word) : Answers (s.regWrite n v) := by
  cases hreg : regOfNumber n with
  | none => exact ⟨s, s.regWrite_of_none v hreg⟩
  | some r =>
    rw [s.regWrite_of_some v hreg]
    by_cases hr : r = .CMD
    · rw [hr]
      exact s.runCommand_answers v
    · exact s.writeReg_answers v hr

/-- An action inside the map is not refused (20_memory.md R69, 60_exceptions.md R255). -/
theorem perform_answers {s : State} {a : HostAction} (h : a.InMap s.cfg) : Answers (perform s a) := by
  cases a with
  | regRead n => exact ⟨_, perform_regRead s h⟩
  | regWrite n v =>
    rw [perform_regWrite s v h]
    exact s.regWrite_answers n v
  | pmemRead x => exact ⟨_, perform_pmemRead s h⟩
  | pmemWrite x b => exact ⟨_, perform_pmemWrite s b h⟩
  | wbufRead x => exact ⟨_, perform_wbufRead s h⟩
  | wbufWrite x b => exact ⟨_, perform_wbufWrite s b h⟩
  | reset c => exact .next _

/-- A script inside the map is run to its end, one action a step. -/
theorem runActions_ends {c : Config} (hvalid : c.Valid) {l : List HostAction} (hmap : ∀ a ∈ l, a.InMap c)
    {s : State} (hcfg : s.cfg = c) (hscript : s.script = l) :
    ∃ t, runActions l.length s = .next t ∧ t.script = [] := by
  induction l generalizing s with
  | nil => exact ⟨s, rfl, hscript⟩
  | cons a rest ih =>
    obtain ⟨ha, hrest⟩ := List.forall_mem_cons.1 hmap
    obtain ⟨u, hu⟩ := perform_answers (s := { s with script := rest }) (hcfg.symm ▸ ha)
    obtain ⟨hucfg, huscript⟩ := perform_keeps hu
    have hstep : step s = .next u := (step_of_script (hcfg.symm ▸ hvalid) hscript).trans hu
    obtain ⟨t, ht, hdone⟩ := ih hrest (hucfg.trans hcfg) huscript
    exact ⟨t, by simp only [List.length_cons, runActions, hstep, ht], hdone⟩

/-- Settles O16, by induction over the script. -/
theorem scriptsInsideTheMapRunToTheirEnd : Obligations.ScriptsInsideTheMapRunToTheirEnd :=
  fun _ hvalid hmap => runActions_ends hvalid hmap rfl rfl

/-! ### What the read-only registers show -/

/-- STAT above its three flag fields. -/
theorem Stat.toWord_above_flags (t : Stat) {start : Nat} (len : Nat) (h : 6 ≤ start) :
    t.toWord.extractLsb' start len = (0#16 ++ t.sticky ++ 0#2).extractLsb' (start - 6) len :=
  calc t.toWord.extractLsb' start len
      = (0#16 ++ t.sticky ++ 0#2 ++ BitVec.ofBool t.limit ++ BitVec.ofBool t.crcok).extractLsb'
          (start - 4) len := BitVec.extractLsb'_append_eq_of_le (by omega)
    _ = (0#16 ++ t.sticky ++ 0#2 ++ BitVec.ofBool t.limit).extractLsb' (start - 4 - 1) len :=
        BitVec.extractLsb'_append_eq_of_le (by omega)
    _ = (0#16 ++ t.sticky ++ 0#2).extractLsb' (start - 4 - 1 - 1) len :=
        BitVec.extractLsb'_append_eq_of_le (by omega)

/-- Bit `n` of a word with a flag appended above `n` bits is the flag. -/
theorem getLsbD_append_flag {m n : Nat} (hi : BitVec m) (b : Bool) (lo : BitVec n) :
    (hi ++ BitVec.ofBool b ++ lo).getLsbD n = b := by
  rw [BitVec.getLsbD_append, if_neg (Nat.lt_irrefl n), Nat.sub_self, BitVec.getLsbD_append,
    if_pos Nat.one_pos]
  exact BitVec.getLsbD_ofBool ..

theorem Stat.toWord_fields (t : Stat) :
    t.toWord.extractLsb' 0 4 = t.err ∧ t.toWord.getLsbD 4 = t.crcok ∧ t.toWord.getLsbD 5 = t.limit ∧
      t.toWord.extractLsb' 6 2 = 0 ∧ t.toWord.extractLsb' 8 8 = t.sticky ∧
      t.toWord.extractLsb' 16 16 = 0 := by
  refine ⟨BitVec.extractLsb'_append_eq_right, getLsbD_append_flag _ _ t.err, ?_, ?_, ?_, ?_⟩
  · exact BitVec.getLsbD_append.trans
      (getLsbD_append_flag (0#16 ++ t.sticky ++ 0#2) _ (BitVec.ofBool t.crcok))
  · exact (t.toWord_above_flags 2 (by decide)).trans BitVec.extractLsb'_append_eq_right
  · exact (t.toWord_above_flags 8 (by decide)).trans
      ((BitVec.extractLsb'_append_eq_of_le (by decide)).trans BitVec.extractLsb'_append_eq_right)
  · exact (t.toWord_above_flags 16 (by decide)).trans
      ((BitVec.extractLsb'_append_eq_of_le (by decide)).trans BitVec.extractLsb'_append_eq_left)

theorem cfgCrc0_fields (c : CrcParams) :
    (cfgCrc0 c).extractLsb' 0 16 = c.poly ∧ (cfgCrc0 c).extractLsb' 16 16 = c.init :=
  ⟨BitVec.extractLsb'_append_eq_right, BitVec.extractLsb'_append_eq_left⟩

theorem cfgCrc1_fields (c : CrcParams) :
    (cfgCrc1 c).extractLsb' 0 16 = c.xorOut ∧ (cfgCrc1 c).getLsbD 16 = c.refIn ∧
      (cfgCrc1 c).getLsbD 17 = c.refOut ∧ (cfgCrc1 c).extractLsb' 18 14 = 0 := by
  refine ⟨BitVec.extractLsb'_append_eq_right, getLsbD_append_flag _ _ c.xorOut, ?_, ?_⟩
  · exact BitVec.getLsbD_append.trans (getLsbD_append_flag 0#14 _ (BitVec.ofBool c.refIn))
  · exact (BitVec.extractLsb'_append_eq_of_le (by decide)).trans
      ((BitVec.extractLsb'_append_eq_of_le (by decide)).trans BitVec.extractLsb'_append_eq_left)

theorem cfgSeq_eq_iff (m : SeqMode) :
    (cfgSeq m = 1 ↔ m = .identity) ∧ (cfgSeq m = 0 ↔ m = .documented) := by
  cases m <;> decide

/-- The sizes of a valid configuration fit their registers (00_scope.md R6 to R8). -/
theorem Config.sizes_fit {c : Config} (hvalid : c.Valid) :
    (BitVec.ofNat 32 c.fdMax).toNat = c.fdMax ∧ (BitVec.ofNat 32 c.nSlots).toNat = c.nSlots ∧
      (BitVec.ofNat 32 c.pmemSize).toNat = c.pmemSize := by
  obtain ⟨⟨-, hfdMax⟩, ⟨-, hslots⟩, -, hpmem⟩ := hvalid
  exact ⟨Nat.mod_eq_of_lt (by omega), Nat.mod_eq_of_lt (by omega), Nat.mod_eq_of_lt (by omega)⟩

/-- Settles O9: register by register. -/
theorem statusAndConfigurationViews : Obligations.StatusAndConfigurationViews := by
  refine ⟨Stat.toWord_fields, fun s hvalid => ?_⟩
  obtain ⟨hfdMax, hslots, hpmem⟩ := Config.sizes_fit hvalid
  exact ⟨rfl, hfdMax, hslots, hpmem, byteOf_header_pack s.cfg.magic, cfgCrc0_fields s.cfg.crc,
    cfgCrc1_fields s.cfg.crc, cfgSeq_eq_iff s.cfg.seqMode⟩

end Sys2Proof.Machine
end

section
/-! PROOFS. Good states (10_state.md R38 to R44): what reset leaves (R48), and that every command and every
host action keeps the store's shape, the memories canonical and STAT legal. -/

namespace Sys2Proof.Machine

/-! ### Reset -/

theorem padSlots_length (fdMax n : Nat) (l : List Slot) : (padSlots fdMax n l).length = n := by
  rw [padSlots, List.length_map, List.length_take, List.length_append, List.length_replicate]
  omega

theorem padSlots_data_length (fdMax n : Nat) (l : List Slot) :
    ∀ f ∈ padSlots fdMax n l, f.data.length = fdMax := by
  intro f hf
  obtain ⟨g, -, rfl⟩ := List.mem_map.1 hf
  exact padTo_length fdMax g.data

/-- Slots of the right number and shape need no padding. -/
theorem padSlots_eq_self {fdMax n : Nat} {l : List Slot} (hl : l.length = n)
    (hdata : ∀ f ∈ l, f.data.length = fdMax) : padSlots fdMax n l = l := by
  rw [padSlots, List.take_left' hl]
  calc l.map (fun f => { f with data := padTo fdMax f.data })
      = l.map id := List.map_congr_left fun f hf => by rw [padTo_eq_self _ _ (hdata f hf)]; rfl
    _ = l := List.map_id l

/-- Contents that fill a memory are read back from it. -/
theorem readBytes_of_contents {b : List Byte} {n : Nat} (hb : b.length = n) :
    (Memory.writeBytes [] 0 (b.take n)).readBytes 0 n = b := by
  rw [← hb, List.take_length, Memory.readBytes_writeBytes]

theorem State.resetTo_cfg (s : State) (c : Contents) : (s.resetTo c).cfg = s.cfg := rfl

theorem perform_reset (s : State) (c : Contents) : perform s (.reset c) = .next (s.resetTo c) := rfl

/-- Settles O13: well-sized contents are kept as they are, and all else is at its reset value. -/
theorem resetLeavesTheResetValues : Obligations.ResetLeavesTheResetValues := by
  refine ⟨fun s c hpmem hwbuf hfs hdata => ⟨_, perform_reset s c, Regs.reset_atReset s.cfg,
    Stat.toWord_reset, rfl, rfl, fun _ => State.regRead_config (s.resetTo_cfg c), readBytes_of_contents hpmem,
    readBytes_of_contents hwbuf, padSlots_eq_self hfs hdata⟩,
    Regs.reset_atReset Config.cfg4, Stat.toWord_reset, rfl⟩

/-- Contents cut to a memory's size make a canonical memory inside its space. -/
theorem Memory.wf_inside_of_contents (size : Nat) (b : List Byte) :
    (Memory.writeBytes [] 0 (b.take size)).wf = true ∧
      (Memory.writeBytes [] 0 (b.take size)).inside size = true :=
  ⟨wf_writeBytes [] 0 _ rfl, inside_writeBytes [] 0 size _ rfl (by rw [List.length_take]; omega)⟩

theorem Stat.legal_reset : Stat.reset.Legal := by decide

theorem State.resetTo_wf {s : State} (hvalid : s.cfg.Valid) (c : Contents) : (s.resetTo c).Wf :=
  ⟨hvalid, ⟨padSlots_length _ _ _, padSlots_data_length _ _ _⟩,
    ⟨Memory.wf_inside_of_contents _ _, Memory.wf_inside_of_contents _ _⟩, Stat.legal_reset⟩

/-- Settles O14: the model's reset state by evaluation, any other by what its contents are padded and cut
to. -/
theorem resetStatesAreGood : Obligations.ResetStatesAreGood :=
  ⟨by decide, fun _ c hvalid => State.resetTo_wf hvalid c⟩

/-! ### What each state operation keeps

An operation on registers, WLEN, the source or the host's record touches no part of `State.Wf`, so it needs no
rule here. -/

/-- The codes a version 1 FPC raises, and the bits they set in STICKY (60_exceptions.md R240, R241). -/
theorem ErrCode.code_legal {e : ErrCode} (he : e ≠ .timeout) :
    (e.code.toNat ≤ 7 ∧ e.code ≠ 1) ∧
      (1#8 <<< e.code.toNat).getLsbD 0 = false ∧ (1#8 <<< e.code.toNat).getLsbD 1 = false := by
  cases e with
  | timeout => exact absurd rfl he
  | _ => decide

theorem Stat.legal_raise {t : Stat} (h : t.Legal) {e : ErrCode} (he : e ≠ .timeout) : (t.raise e).Legal := by
  obtain ⟨-, -, h0, h1⟩ := h
  obtain ⟨⟨hle, hne⟩, hbit0, hbit1⟩ := ErrCode.code_legal he
  exact ⟨hle, hne, by rw [raise_sticky, BitVec.getLsbD_or, h0, hbit0, Bool.or_false],
    by rw [raise_sticky, BitVec.getLsbD_or, h1, hbit1, Bool.or_false]⟩

theorem errZero_legal : (0#4).toNat ≤ 7 ∧ 0#4 ≠ 1 := by decide

theorem Stat.legal_succeed {t : Stat} (h : t.Legal) : t.succeed.Legal := by
  obtain ⟨-, -, hsticky⟩ := h
  obtain ⟨hle, hne⟩ := errZero_legal
  exact ⟨hle, hne, hsticky⟩

theorem Stat.legal_clearErrors (t : Stat) : t.clearErrors.Legal := by
  obtain ⟨hle, hne⟩ := errZero_legal
  exact ⟨hle, hne, BitVec.getLsbD_zero, BitVec.getLsbD_zero⟩

/-- A frame parsed from WBUF has `F` bytes of `data` (41_wire_codec.md R152). -/
theorem State.parsedData_length (s : State) :
    (parseData s.cfg.fdMax (s.readWbuf 0 s.cfg.dataSize)).data.length = s.cfg.fdMax :=
  slice_length _ _ _ (by rw [readWbuf, Memory.readBytes_length, Config.dataSize, dataOff]; omega)

section Keeps

variable {s : State} (h : s.Wf)

include h

theorem State.Wf.valid : s.cfg.Valid := by
  obtain ⟨hvalid, -⟩ := h
  exact hvalid

theorem State.Wf.withStat {t : Stat} (ht : t.Legal) : ({ s with stat := t } : State).Wf := by
  obtain ⟨hvalid, hstore, hmem, -⟩ := h
  exact ⟨hvalid, hstore, hmem, ht⟩

theorem State.Wf.legal : s.stat.Legal := by
  obtain ⟨-, -, -, hstat⟩ := h
  exact hstat

theorem State.Wf.raise {e : ErrCode} (he : e ≠ .timeout) : (s.raise e).Wf :=
  h.withStat (Stat.legal_raise h.legal he)

theorem State.Wf.succeed : s.succeed.Wf := h.withStat (Stat.legal_succeed h.legal)

theorem State.Wf.setCrcok (b : Bool) : (s.setCrcok b).Wf := h.withStat h.legal

theorem State.Wf.setLimit (b : Bool) : (s.setLimit b).Wf := h.withStat h.legal

theorem State.Wf.setSlot (k : Nat) {f : Slot} (hf : f.data.length = s.cfg.fdMax) : (s.setSlot k f).Wf := by
  obtain ⟨hvalid, hstore, hmem, hstat⟩ := h
  exact ⟨hvalid, s.storeWf_setSlot k f hstore hf, hmem, hstat⟩

theorem State.Wf.updateSlots (n : Nat) {g : Nat → Slot → Slot}
    (hg : ∀ i f, f.data.length = s.cfg.fdMax → (g i f).data.length = s.cfg.fdMax) :
    (s.updateSlots n g).Wf := by
  obtain ⟨hvalid, hstore, hmem, hstat⟩ := h
  exact ⟨hvalid, s.storeWf_updateSlots n g hstore hg, hmem, hstat⟩

theorem State.Wf.writePmem {a : Nat} {b : List Byte} (hb : s.fitsPmem a b.length) : (s.writePmem a b).Wf := by
  obtain ⟨hvalid, hstore, ⟨⟨hpwf, hpin⟩, hwbuf⟩, hstat⟩ := h
  exact ⟨hvalid, hstore, ⟨⟨s.pmem.wf_writeBytes a b hpwf, s.pmem.inside_writeBytes a _ b hpin hb⟩, hwbuf⟩,
    hstat⟩

theorem State.Wf.writeWbuf {a : Nat} {b : List Byte} (hb : s.fitsWbuf (a + b.length)) :
    (s.writeWbuf a b).Wf := by
  obtain ⟨hvalid, hstore, ⟨hpmem, hwwf, hwin⟩, hstat⟩ := h
  exact ⟨hvalid, hstore, ⟨hpmem, s.wbuf.wf_writeBytes a b hwwf, s.wbuf.inside_writeBytes a _ b hwin hb⟩,
    hstat⟩

/-! ### What each command keeps -/

/-- SRC_ERROR leaves free values in slots, but as many bytes as there were (43_frame_chunker.md R193). -/
theorem State.Wf.srcFailed (done : Nat) : (s.srcFailed done).Wf := by
  refine State.Wf.raise (h.updateSlots (done + 1) ?_) nofun
  intro i f _
  rw [Slot.scrambled, List.length_map, List.length_range]

theorem State.Wf.frameChunks (chunks : List (List Byte)) (ended : Bool) :
    (s.frameChunks chunks ended).Wf := by
  refine ((h.updateSlots chunks.length ?_).setLimit (!ended)).succeed
  exact fun _ _ _ => Slot.chunked_data_length ..

theorem State.Wf.afterSerCtrl : s.afterSerCtrl.Wf := by
  refine (h.writeWbuf (a := 0) (b := wireCtrl s.stampedCtrl) ?_).succeed
  rw [wireCtrl_length, State.fitsWbuf, Config.wbufSize, Config.dataSize, ctrlSize]
  omega

theorem State.Wf.afterSerData (k : Nat) : (s.afterSerData k).Wf := by
  have hslot := h.setSlot k (s.stampedSlot_data_length k)
  refine (hslot.writeWbuf (a := 0) (b := wireData (s.stampedSlot k)) ?_).succeed
  rw [s.wireData_stampedSlot_length k, Nat.zero_add]
  exact Nat.le_refl _

theorem State.Wf.afterDesData_parsed (k : Nat) :
    (s.afterDesData k (parseData s.cfg.fdMax (s.readWbuf 0 s.cfg.dataSize))).Wf :=
  ((h.setSlot k s.parsedData_length).setCrcok true).succeed

theorem State.Wf.afterChunkBuf : s.afterChunkBuf.Wf := by
  have hchunked : s.chunkedBuf.Wf := by
    refine h.updateSlots s.frameCount ?_
    exact fun _ _ _ => Slot.chunked_data_length ..
  exact hchunked.succeed

theorem State.Wf.afterInit : s.afterInit.Wf := by
  refine (h.updateSlots s.countOperand ?_).succeed
  exact fun _ _ hf => hf

theorem State.Wf.afterStampAll : s.afterStampAll.Wf := by
  refine (h.updateSlots s.countOperand ?_).succeed
  exact fun _ _ hf => hf

theorem State.Wf.afterFput (k : Nat) : (s.afterFput k).Wf :=
  (h.setSlot k (f := s.regs.stageInto (s.slot k)) (s.slot_data_length k)).succeed

theorem State.Wf.afterReasm (hr : s.reassemblable) : s.afterReasm.Wf := by
  have hlen := State.reassemblable_payload_length hr
  obtain ⟨-, -, hfits⟩ := hr
  exact (h.writePmem (hlen ▸ hfits)).succeed

/-- The commands that test their operands once, up front: what does not succeed has raised RANGE. -/
theorem State.Wf.of_succeed_or_range {p q : Prop} {t u : State}
    (hcases : (p ∧ t = u.succeed) ∨ (q ∧ t = s.raise .range)) (hu : p → u.succeed.Wf) : t.Wf := by
  rcases hcases with ⟨hp, rfl⟩ | ⟨-, rfl⟩
  · exact hu hp
  · exact h.raise nofun

end Keeps

/-- A command keeps good states good. -/
theorem exec_wf {i : Instr} {s t : State} (h : s.Wf) (hexec : exec i s = .next t) : t.Wf := by
  cases i with
  | nop | pack24 | unpack24 | seqI2w | seqW2i => cases hexec; exact h.succeed
  | clrerr => cases hexec; exact h.withStat (Stat.legal_clearErrors _)
  | srst => cases hexec; exact h.withStat Stat.legal_reset
  | serCtrl => cases hexec; exact h.afterSerCtrl
  | crcCalc => exact h.of_succeed_or_range (execCrcCalc_cases s t hexec) fun _ => h.succeed
  | totlen => exact h.of_succeed_or_range (execTotlen_cases s t hexec) fun _ => h.succeed
  | fget k => exact h.of_succeed_or_range (execFget_cases k s t hexec) fun _ => h.succeed
  | crcStamp =>
    refine h.of_succeed_or_range (execCrcStamp_cases s t hexec) fun hok => ?_
    obtain ⟨hlow, hfits⟩ := hok
    exact (h.writeWbuf (by rwa [leBytes_length, Nat.sub_add_cancel hlow])).succeed
  | serData k => exact h.of_succeed_or_range (execSerData_cases k s t hexec) fun _ => h.afterSerData k
  | reasm => exact h.of_succeed_or_range (execReasm_cases s t hexec) h.afterReasm
  | init => exact h.of_succeed_or_range (execInit_cases s t hexec) fun _ => h.afterInit
  | stamp k =>
    exact h.of_succeed_or_range (execStamp_cases k s t hexec) fun _ =>
      (h.setSlot k (s.stampedSlot_data_length k)).succeed
  | stampAll => exact h.of_succeed_or_range (execStampAll_cases s t hexec) fun _ => h.afterStampAll
  | fput k => exact h.of_succeed_or_range (execFput_cases k s t hexec) fun _ => h.afterFput k
  | dget k =>
    refine h.of_succeed_or_range (execDget_cases k s t hexec) fun hok => ?_
    obtain ⟨-, hfits⟩ := hok
    exact (h.writePmem (by rwa [s.slot_data_length])).succeed
  | dput k =>
    exact h.of_succeed_or_range (execDput_cases k s t hexec) fun _ =>
      (h.setSlot k (s.pmem.readBytes_length _ _)).succeed
  | chunkBuf =>
    rcases execChunkBuf_cases s t hexec with ⟨-, -, rfl⟩ | ⟨-, rfl⟩
    · exact h.afterChunkBuf
    · exact h.raise nofun
  | crcCheck =>
    rcases execCrcCheck_cases s t hexec with ⟨-, -, rfl⟩ | ⟨-, -, rfl⟩ | ⟨-, rfl⟩
    · exact (h.setCrcok true).succeed
    · exact (h.setCrcok false).raise nofun
    · exact (h.setCrcok false).raise nofun
  | desCtrl =>
    rcases execDesCtrl_cases s t hexec with ⟨-, -, rfl⟩ | ⟨-, -, rfl⟩ | ⟨-, rfl⟩
    · exact (h.setCrcok true).succeed
    · exact (h.setCrcok false).raise nofun
    · exact (h.setCrcok false).raise nofun
  | desData k =>
    rcases execDesData_cases k s t hexec with ⟨-, -, -, rfl⟩ | ⟨-, -, -, rfl⟩ | ⟨-, -, rfl⟩ | ⟨-, rfl⟩
    · exact h.afterDesData_parsed k
    · exact (h.setCrcok false).raise nofun
    · exact (h.setCrcok false).raise nofun
    · exact h.raise nofun
  | chunkSrc =>
    rcases execChunkSrc_cases s t hexec with ⟨-, done, src, -, rfl⟩ | ⟨-, _, src, -, rfl⟩ |
      ⟨-, chunks, ended, src, -, -, rfl⟩ | ⟨-, rfl⟩
    · exact State.Wf.srcFailed (s := { s with src := src }) h done
    · exact State.Wf.raise (s := { s with src := src }) h nofun
    · exact State.Wf.frameChunks (s := { s with src := src }) h chunks ended
    · exact h.raise nofun

/-- A host action keeps good states good. -/
theorem perform_wf {s t : State} {a : HostAction} (h : s.Wf) (hperform : perform s a = .next t) : t.Wf := by
  rcases perform_cases s t a hperform with ⟨_, -, -, rfl⟩ | ⟨w, -, hrun⟩ | ⟨_, _, -, -, -, ht⟩ |
    ⟨_, -, -, rfl⟩ | ⟨x, b, -, hx, rfl⟩ | ⟨_, -, -, rfl⟩ | ⟨x, b, -, hx, rfl⟩ | ⟨c, -, rfl⟩
  case inr.inl =>
    rcases s.runCommand_cases w t hrun with ⟨i, -, hexec⟩ | ⟨-, rfl⟩
    · exact exec_wf h hexec
    · exact h.raise nofun
  case inr.inr.inl => rw [ht]; exact h
  case inr.inr.inr.inr.inl => exact h.writePmem hx
  case inr.inr.inr.inr.inr.inr.inl => exact h.writeWbuf hx
  case inr.inr.inr.inr.inr.inr.inr => exact State.resetTo_wf h.valid c
  all_goals exact h

/-- Settles O15: a step is idle or one host action. -/
theorem everyStepKeepsGoodStates : Obligations.EveryStepKeepsGoodStates := by
  intro s t h hstep
  obtain ⟨-, ⟨-, rfl⟩ | ⟨a, rest, -, hperform⟩⟩ := step_cases s t hstep
  · exact h
  · exact perform_wf (s := { s with script := rest }) h hperform

end Sys2Proof.Machine
end

section
/-! PROOFS. What a command does to STAT (10_state.md R38, 60_exceptions.md R240 to R247): the flags a success
writes, the codes each command can raise, and that only CHUNK.SRC pulls (20_memory.md R72). -/

namespace Sys2Proof.Machine

/-! ### The two ways a command ends -/

/-- The codes a command can raise (60_exceptions.md R241 to R247). -/
def raisedCodes : Instr → List ErrCode
  | .nop | .clrerr | .srst | .serCtrl | .pack24 | .unpack24 | .seqI2w | .seqW2i => []
  | .crcCheck => [.csum, .range]
  | .desCtrl => [.short, .csum]
  | .desData _ => [.short, .csum, .range]
  | .chunkSrc => [.srcExhausted, .srcError, .range]
  | .crcCalc | .crcStamp | .serData _ | .chunkBuf | .totlen | .reasm | .init | .stamp _ | .stampAll
  | .fget _ | .fput _ | .dget _ | .dput _ => [.range]

/-- STAT after a command that succeeds (10_state.md R38): `limit` is what CHUNK.SRC leaves in LIMIT. -/
def Stat.afterSuccess (limit : Bool) (t : Stat) : Instr → Stat
  | .clrerr => t.clearErrors
  | .srst => .reset
  | .crcCheck | .desCtrl | .desData _ => (t.withCrcok true).succeed
  | .chunkSrc => (t.withLimit limit).succeed
  | _ => t.succeed

/-- How the command `i` ends in `s`, as far as STAT and the source show it; `exec_endsIn` ties it to the
model. -/
inductive EndsIn (i : Instr) (s t : State) : Prop
  | success (limit : Bool) (hstat : t.stat = s.stat.afterSuccess limit i)
      (hsrc : t.src = s.src ∨ i = .chunkSrc)
  | failure (e : ErrCode) (he : e ∈ raisedCodes i) (herr : t.stat.err = e.code)
      (hsrc : t.src = s.src ∨ i = .chunkSrc)

theorem EndsIn.of_succeed_or_range {p q : Prop} {i : Instr} {s t u : State}
    (h : (p ∧ t = u.succeed) ∨ (q ∧ t = s.raise .range)) (hi : raisedCodes i = [.range])
    (hstat : u.succeed.stat = s.stat.afterSuccess false i) (hsrc : u.succeed.src = s.src) :
    EndsIn i s t := by
  rcases h with ⟨-, rfl⟩ | ⟨-, rfl⟩
  · exact .success false hstat (.inl hsrc)
  · exact .failure .range (hi ▸ List.mem_singleton_self _) rfl (.inl rfl)

/-- Every command succeeds with the STAT of its kind or raises one of its codes. -/
theorem exec_endsIn {i : Instr} {s t : State} (h : exec i s = .next t) : EndsIn i s t := by
  cases i with
  | nop | clrerr | srst | serCtrl | pack24 | unpack24 | seqI2w | seqW2i =>
    cases h
    exact .success false rfl (.inl rfl)
  | crcCalc => exact .of_succeed_or_range (execCrcCalc_cases s t h) rfl rfl rfl
  | crcStamp => exact .of_succeed_or_range (execCrcStamp_cases s t h) rfl rfl rfl
  | serData k => exact .of_succeed_or_range (execSerData_cases k s t h) rfl rfl rfl
  | totlen => exact .of_succeed_or_range (execTotlen_cases s t h) rfl rfl rfl
  | reasm => exact .of_succeed_or_range (execReasm_cases s t h) rfl rfl rfl
  | init => exact .of_succeed_or_range (execInit_cases s t h) rfl rfl rfl
  | stamp k => exact .of_succeed_or_range (execStamp_cases k s t h) rfl rfl rfl
  | stampAll => exact .of_succeed_or_range (execStampAll_cases s t h) rfl rfl rfl
  | fget k => exact .of_succeed_or_range (execFget_cases k s t h) rfl rfl rfl
  | fput k => exact .of_succeed_or_range (execFput_cases k s t h) rfl rfl rfl
  | dget k => exact .of_succeed_or_range (execDget_cases k s t h) rfl rfl rfl
  | dput k => exact .of_succeed_or_range (execDput_cases k s t h) rfl rfl rfl
  | chunkBuf =>
    rcases execChunkBuf_cases s t h with ⟨-, -, rfl⟩ | ⟨-, rfl⟩
    · exact .success false rfl (.inl rfl)
    · exact .failure .range (.head _) rfl (.inl rfl)
  | crcCheck =>
    rcases execCrcCheck_cases s t h with ⟨-, -, rfl⟩ | ⟨-, -, rfl⟩ | ⟨-, rfl⟩
    · exact .success false rfl (.inl rfl)
    · exact .failure .csum (.head _) rfl (.inl rfl)
    · exact .failure .range (.tail _ (.head _)) rfl (.inl rfl)
  | desCtrl =>
    rcases execDesCtrl_cases s t h with ⟨-, -, rfl⟩ | ⟨-, -, rfl⟩ | ⟨-, rfl⟩
    · exact .success false rfl (.inl rfl)
    · exact .failure .csum (.tail _ (.head _)) rfl (.inl rfl)
    · exact .failure .short (.head _) rfl (.inl rfl)
  | desData k =>
    rcases execDesData_cases k s t h with ⟨-, -, -, rfl⟩ | ⟨-, -, -, rfl⟩ | ⟨-, -, rfl⟩ | ⟨-, rfl⟩
    · exact .success false rfl (.inl rfl)
    · exact .failure .csum (.tail _ (.head _)) rfl (.inl rfl)
    · exact .failure .short (.head _) rfl (.inl rfl)
    · exact .failure .range (.tail _ (.tail _ (.head _))) rfl (.inl rfl)
  | chunkSrc =>
    rcases execChunkSrc_cases s t h with ⟨-, _, _, -, rfl⟩ | ⟨-, _, _, -, rfl⟩ |
      ⟨-, _, ended, _, -, -, rfl⟩ | ⟨-, rfl⟩
    · exact .failure .srcError (.tail _ (.head _)) rfl (.inr rfl)
    · exact .failure .srcExhausted (.head _) rfl (.inr rfl)
    · exact .success (!ended) rfl (.inr rfl)
    · exact .failure .range (.tail _ (.tail _ (.head _))) rfl (.inl rfl)

/-! ### The flags a success writes -/

section Success

variable {i : Instr} (limit : Bool) (t : Stat)

theorem Stat.afterSuccess_err : (t.afterSuccess limit i).err = 0 := by
  cases i <;> rfl

theorem Stat.afterSuccess_sticky (hclrerr : i ≠ .clrerr) (hsrst : i ≠ .srst) :
    (t.afterSuccess limit i).sticky = t.sticky := by
  cases i with
  | clrerr => exact absurd rfl hclrerr
  | srst => exact absurd rfl hsrst
  | _ => rfl

theorem Stat.afterSuccess_crcok_checked (h : i = .crcCheck ∨ i = .desCtrl ∨ ∃ k, i = .desData k) :
    (t.afterSuccess limit i).crcok = true := by
  rcases h with rfl | rfl | ⟨k, rfl⟩ <;> rfl

theorem Stat.afterSuccess_crcok_kept
    (h : ¬ (i = .crcCheck ∨ i = .desCtrl ∨ i = .srst ∨ ∃ k, i = .desData k)) :
    (t.afterSuccess limit i).crcok = t.crcok := by
  cases i with
  | crcCheck => exact absurd (.inl rfl) h
  | desCtrl => exact absurd (.inr (.inl rfl)) h
  | srst => exact absurd (.inr (.inr (.inl rfl))) h
  | desData k => exact absurd (.inr (.inr (.inr ⟨k, rfl⟩))) h
  | _ => rfl

theorem Stat.afterSuccess_limit_kept (hsrc : i ≠ .chunkSrc) (hsrst : i ≠ .srst) :
    (t.afterSuccess limit i).limit = t.limit := by
  cases i with
  | chunkSrc => exact absurd rfl hsrc
  | srst => exact absurd rfl hsrst
  | _ => rfl

end Success

/-- Settles O19: STAT after a success is that of the command's kind, flag by flag. -/
theorem successfulCommandsKeepTheOtherFlags : Obligations.SuccessfulCommandsKeepTheOtherFlags := by
  intro i s t h herr
  cases exec_endsIn h with
  | failure e _ hcode =>
    have hne : e.code ≠ 0 := s.raise_err_ne_zero e
    exact absurd (hcode.symm.trans herr) hne
  | success limit hstat =>
    rw [hstat]
    exact ⟨s.stat.afterSuccess_sticky limit, s.stat.afterSuccess_crcok_checked limit,
      s.stat.afterSuccess_crcok_kept limit, s.stat.afterSuccess_limit_kept limit⟩

/-! ### The codes a command raises -/

/-- The error kind of a code (60_exceptions.md R240). -/
def ErrCode.ofCode (c : BitVec 4) : Option ErrCode :=
  [.timeout, .short, .csum, .srcExhausted, .srcError, .illegal, .range][c.toNat - 1]?

theorem ErrCode.ofCode_code (e : ErrCode) : ofCode e.code = some e := by
  cases e <;> rfl

theorem ErrCode.code_injective {a b : ErrCode} (h : a.code = b.code) : a = b :=
  Option.some.inj ((ofCode_code a).symm.trans (h ▸ ofCode_code b))

theorem exec_err_zero_or_raised {i : Instr} {s t : State} (h : exec i s = .next t) :
    t.stat.err = 0 ∨ ∃ e ∈ raisedCodes i, t.stat.err = e.code := by
  cases exec_endsIn h with
  | success limit hstat => exact .inl (hstat ▸ s.stat.afterSuccess_err limit)
  | failure e he herr => exact .inr ⟨e, he, herr⟩

/-- A code found in STAT after a command is one of the command's. -/
theorem mem_raisedCodes_of_err {i : Instr} {s t : State} (h : exec i s = .next t) {e : ErrCode}
    (herr : t.stat.err = e.code) : e ∈ raisedCodes i := by
  rcases exec_err_zero_or_raised h with hzero | ⟨e', he', herr'⟩
  · exact absurd (herr.symm.trans hzero) (s.raise_err_ne_zero e)
  · rwa [ErrCode.code_injective (herr.symm.trans herr')]

section Raised

variable {i : Instr}

/-- TIMEOUT and ILLEGAL are no command's (60_exceptions.md R241, R246). -/
theorem code_of_mem_raisedCodes {e : ErrCode} (he : e ∈ raisedCodes i) :
    e.code.toNat ∈ [0, 2, 3, 4, 5, 7] := by
  cases e with
  | timeout | illegal => cases i <;> simp [raisedCodes] at he
  | _ => decide

theorem short_raised (h : .short ∈ raisedCodes i) : i = .desCtrl ∨ ∃ k, i = .desData k := by
  cases i with
  | desCtrl => exact .inl rfl
  | desData k => exact .inr ⟨k, rfl⟩
  | _ => simp [raisedCodes] at h

theorem csum_raised (h : .csum ∈ raisedCodes i) :
    i = .crcCheck ∨ i = .desCtrl ∨ ∃ k, i = .desData k := by
  cases i with
  | crcCheck => exact .inl rfl
  | desCtrl => exact .inr (.inl rfl)
  | desData k => exact .inr (.inr ⟨k, rfl⟩)
  | _ => simp [raisedCodes] at h

theorem source_error_raised (h : .srcExhausted ∈ raisedCodes i ∨ .srcError ∈ raisedCodes i) :
    i = .chunkSrc := by
  cases i with
  | chunkSrc => rfl
  | _ => simp [raisedCodes] at h

theorem range_raised (h : .range ∈ raisedCodes i) :
    i ∉ [.nop, .clrerr, .srst, .serCtrl, .desCtrl, .pack24, .unpack24, .seqI2w, .seqW2i] := by
  cases i with
  | nop | clrerr | srst | serCtrl | desCtrl | pack24 | unpack24 | seqI2w | seqW2i => simp [raisedCodes] at h
  | _ => simp

/-- The commands without operands to check never fail. -/
theorem raisedCodes_eq_nil
    (h : i ∈ [.nop, .clrerr, .srst, .serCtrl, .pack24, .unpack24, .seqI2w, .seqW2i]) :
    raisedCodes i = [] := by
  simp only [List.mem_cons, List.not_mem_nil, or_false] at h
  rcases h with rfl | rfl | rfl | rfl | rfl | rfl | rfl | rfl <;> rfl

end Raised

/-- Settles O20: each clause is a fact about the codes of the command. -/
theorem errorCodesByCommand : Obligations.ErrorCodesByCommand := by
  intro i s t h
  have hmem : ∀ e : ErrCode, t.stat.err = e.code → e ∈ raisedCodes i := fun e => mem_raisedCodes_of_err h
  refine ⟨?_, fun herr => short_raised (hmem .short herr), fun herr => csum_raised (hmem .csum herr),
    fun herr => source_error_raised (.inl (hmem .srcExhausted herr)),
    fun herr => source_error_raised (.inr (hmem .srcError herr)), fun hi => ?_,
    fun herr => range_raised (hmem .range herr)⟩
  · rcases exec_err_zero_or_raised h with hzero | ⟨e, he, herr⟩
    · rw [hzero]
      decide
    · rw [herr]
      exact code_of_mem_raisedCodes he
  · rcases exec_err_zero_or_raised h with hzero | ⟨e, he, -⟩
    · exact hzero
    · rw [raisedCodes_eq_nil hi] at he
      cases he

/-! ### The source -/

/-- What a pull leaves scheduled after an answer that stood first (20_memory.md R72). -/
theorem Source.pull_of_queue {src : Source} {n : Nat} {b : List Byte} {q : List SrcAnswer}
    (h : src.queue = .ok b :: q) :
    (src.pull n).1 = .ok (b.take n) ∧ (src.pull n).2.queue = leftover n (.ok b) ++ q := by
  simp only [pull, h, boundAnswer, and_self]

theorem exec_src_eq {i : Instr} {s t : State} (hi : i ≠ .chunkSrc) (h : exec i s = .next t) :
    t.src = s.src := by
  cases exec_endsIn h with
  | success _ _ hsrc | failure _ _ _ hsrc => exact hsrc.resolve_right hi

/-- Settles O21: an answer is cut to the request, and what is cut off is scheduled next. -/
theorem onlyChunkSrcPullsAndPullsAreBounded : Obligations.OnlyChunkSrcPullsAndPullsAreBounded := by
  refine ⟨Source.pull_ok_length, fun src n b q hq => ?_, fun i s t => exec_src_eq⟩
  obtain ⟨hanswer, hqueue⟩ := Source.pull_of_queue (n := n) hq
  refine ⟨hanswer, fun hle => ?_, fun hlt => ?_⟩
  · rw [hqueue, leftover, if_neg (Nat.not_lt.2 hle), List.nil_append]
  · rw [hqueue, leftover, if_pos hlt, List.singleton_append]

end Sys2Proof.Machine
end

section
/-! PROOFS. CHUNK.SRC over a given schedule of answers (43_frame_chunker.md R193): how its pull loop goes on
after full answers, the ways it ends, and what the command then leaves. -/

namespace Sys2Proof.Machine

/-! ### One round of the pull loop -/

section Round

variable {fdMax max fuel total : Nat} {chunks : List (List Byte)}

/-- The loop stops where all the bytes have come. -/
theorem pullLoop_of_all (h : max ≤ total) (src : Source) :
    pullLoop fdMax max fuel total chunks src = .finished chunks false src := by
  cases fuel with
  | zero => rfl
  | succ fuel => rw [pullLoop, if_neg (Nat.not_lt.2 h)]

theorem pullLoop_of_err (h : total < max) (q : List SrcAnswer) (hist : List SrcPull) :
    ∃ hist', pullLoop fdMax max (fuel + 1) total chunks ⟨.err :: q, hist⟩ =
      .failed chunks.length ⟨q, hist'⟩ := by
  refine ⟨hist ++ [⟨min fdMax (max - total), .err⟩], ?_⟩
  rw [pullLoop, if_pos h]
  simp only [Source.pull_scheduled_err]

theorem pullLoop_of_short {b : List Byte} (h : total < max) (hb : b.length < min fdMax (max - total))
    (q : List SrcAnswer) (hist : List SrcPull) :
    ∃ hist', pullLoop fdMax max (fuel + 1) total chunks ⟨.ok b :: q, hist⟩ =
      .finished (if b = [] then chunks else chunks ++ [b]) true ⟨q, hist'⟩ := by
  refine ⟨hist ++ [⟨min fdMax (max - total), .ok b⟩], ?_⟩
  rw [pullLoop, if_pos h]
  simp only [Source.pull_scheduled _ _ _ _ (Nat.le_of_lt hb), if_pos hb, List.length_eq_zero_iff]

theorem pullLoop_of_last {b : List Byte} (h : total < max) (hmax : total + b.length = max)
    (hb : b.length ≤ fdMax) (q : List SrcAnswer) (hist : List SrcPull) :
    ∃ hist', pullLoop fdMax max (fuel + 1) total chunks ⟨.ok b :: q, hist⟩ =
      .finished (chunks ++ [b]) false ⟨q, hist'⟩ := by
  have hreq : min fdMax (max - total) = b.length := by omega
  refine ⟨hist ++ [⟨b.length, .ok b⟩], ?_⟩
  rw [pullLoop, if_pos h]
  simp only [hreq, Source.pull_scheduled _ _ _ _ (Nat.le_refl b.length), Nat.lt_irrefl, if_false]
  rw [if_neg (by omega), pullLoop_of_all (Nat.le_of_eq hmax.symm)]

end Round

/-- The pulls CHUNK.SRC makes: after `full` answers of `F` bytes, with bytes still missing, the loop has
another round to go. -/
theorem State.pullRun_after_full {s : State} {full : List (List Byte)} {q : List SrcAnswer}
    (hvalid : s.cfg.Valid) (hfull : ∀ b ∈ full, b.length = s.cfg.fdMax)
    (hmissing : full.length * s.cfg.fdMax < s.regs.len.toNat) (hq : s.src.queue = full.map .ok ++ q) :
    ∃ fuel hist, s.pullRun =
      pullLoop s.cfg.fdMax s.regs.len.toNat (fuel + 1) (full.length * s.cfg.fdMax) full ⟨q, hist⟩ := by
  have hf := fdMax_pos_of_valid hvalid
  have hrounds : full.length < s.frameCount := (lt_ceilDiv_iff _ _ _ hf).2 hmissing
  obtain ⟨fuel, hfuel⟩ := Nat.exists_eq_add_of_lt hrounds
  obtain ⟨hist, hloop⟩ := pullLoop_full s.cfg.fdMax s.regs.len.toNat hf full (fuel + 1) 0 [] q
    s.src.history hfull (by omega)
  rw [Nat.zero_add, List.nil_append, ← hq] at hloop
  exact ⟨fuel, hist, by rw [pullRun, hfuel]; exact hloop⟩

/-! ### What the command does after each end of the loop -/

/-- What CHUNK.SRC leaves where its pull loop has handed on `chunks` (R193). -/
def State.afterChunkSrc (s : State) (src : Source) (chunks : List (List Byte)) (ended : Bool) : State :=
  ({ s with src := src } : State).frameChunks chunks ended

section Command

variable {s : State} (hn : s.fitsStore s.frameCount)

include hn

theorem exec_chunkSrc_failed {done : Nat} {src : Source} (h : s.pullRun = .failed done src) :
    exec .chunkSrc s = .next (({ s with src := src } : State).srcFailed done) := by
  unfold State.pullRun at h
  unfold State.frameCount at hn h
  simp only [exec, execChunkSrc, if_pos hn, h]

theorem exec_chunkSrc_exhausted {ended : Bool} {src : Source} (h : s.pullRun = .finished [] ended src) :
    exec .chunkSrc s = .next (({ s with src := src } : State).raise .srcExhausted) := by
  unfold State.pullRun at h
  unfold State.frameCount at hn h
  simp only [exec, execChunkSrc, if_pos hn, h, if_true]

theorem exec_chunkSrc_made {chunks : List (List Byte)} {ended : Bool} {src : Source}
    (h : s.pullRun = .finished chunks ended src) (hne : chunks ≠ []) :
    exec .chunkSrc s = .next (s.afterChunkSrc src chunks ended) := by
  unfold State.pullRun at h
  unfold State.frameCount at hn h
  simp only [exec, execChunkSrc, if_pos hn, h, if_neg hne, State.afterChunkSrc]

end Command

theorem exec_chunkSrc_range {s : State} (hn : ¬ s.fitsStore s.frameCount) :
    exec .chunkSrc s = .next (s.afterError 7) :=
  (if_neg hn).trans (congrArg _ (s.raise_eq_afterError .range))

/-! ### The frame set it makes -/

theorem sum_full_lengths {full : List (List Byte)} {fdMax : Nat} (hfull : ∀ b ∈ full, b.length = fdMax) :
    (full.map List.length).sum = full.length * fdMax := by
  rw [List.map_congr_left hfull, List.map_const', List.sum_replicate, smul_eq_mul]

theorem sum_full_last_lengths {full : List (List Byte)} {fdMax : Nat} (hfull : ∀ b ∈ full, b.length = fdMax)
    (last : List Byte) : ((full ++ [last]).map List.length).sum = full.length * fdMax + last.length := by
  rw [List.map_append, List.sum_append, sum_full_lengths hfull, List.map_singleton, List.sum_singleton]

theorem ChunksOk.total_pos {fdMax max total : Nat} {chunks : List (List Byte)}
    (h : ChunksOk fdMax max total chunks) (hne : chunks ≠ []) : 0 < total := by
  obtain ⟨c, rest, rfl⟩ := List.exists_cons_of_ne_nil hne
  obtain ⟨hc, -⟩ := h.pos c List.mem_cons_self
  have hsum := h.sum
  rw [List.map_cons, List.sum_cons] at hsum
  omega

/-- The chunks that a pull loop hands on make a frame set: there is a slot for each, and COUNT and LEN hold
their number and their length. -/
theorem State.afterChunkSrc_made {s : State} {chunks : List (List Byte)} {ended : Bool} {src : Source}
    (hvalid : s.cfg.Valid) (hstore : s.StoreWf) (hn : s.fitsStore s.frameCount)
    (hrun : s.pullRun = .finished chunks ended src) :
    FrameSetMade s (s.afterChunkSrc src chunks ended) chunks (chunks.map List.length).sum ∧
      (s.afterChunkSrc src chunks ended).regs.count.toNat = chunks.length ∧
      (s.afterChunkSrc src chunks ended).regs.len.toNat = (chunks.map List.length).sum := by
  obtain ⟨hok, hsum, hlen⟩ := pullRun_chunksOk hvalid hrun
  have hfits : s.fitsStore chunks.length := Nat.le_trans hlen hn
  have htotal : (chunks.map List.length).sum < 2 ^ 32 := Nat.lt_of_le_of_lt hsum s.regs.len.isLt
  exact ⟨frameChunks_made (s := { s with src := src }) hvalid hstore hfits hok.length_le htotal,
    toNat_ofNat_of_fitsStore hvalid hfits, Nat.mod_eq_of_lt htotal⟩

/-- Settles O44: the loop hands on the full answers and, unless it is empty, the short one; with neither the
source is exhausted. -/
theorem chunkSrcEndsOnAShortRead : Obligations.ChunkSrcEndsOnAShortRead := by
  refine ⟨by decide, fun s full last rest hvalid hstore hn hfull hmissing hshort hq => ?_⟩
  intro chunks total
  obtain ⟨fuel, hist, hrun⟩ := State.pullRun_after_full hvalid hfull hmissing hq
  obtain ⟨hist', hend⟩ := pullLoop_of_short (fuel := fuel) (chunks := full) hmissing hshort rest hist
  have hloop : s.pullRun = .finished chunks true ⟨rest, hist'⟩ := hrun.trans hend
  have hsum : (chunks.map List.length).sum = total := by
    simp only [chunks, total]
    split
    next hlast => rw [sum_full_lengths hfull, hlast, List.length_nil, Nat.add_zero]
    next => exact sum_full_last_lengths hfull last
  by_cases hnone : chunks = []
  · have hzero : total = 0 := by rw [← hsum, hnone]; rfl
    rw [hnone] at hloop
    exact ⟨_, exec_chunkSrc_exhausted hn hloop, rfl, fun _ => rfl,
      fun hpos => absurd hzero (Nat.ne_of_gt hpos)⟩
  · obtain ⟨hok, -, -⟩ := State.pullRun_chunksOk hvalid hloop
    obtain ⟨hmade, hcount, hlen⟩ := State.afterChunkSrc_made hvalid hstore hn hloop
    have hpos : total ≠ 0 := Nat.ne_of_gt (hsum ▸ hok.total_pos hnone)
    rw [hsum] at hmade hlen
    exact ⟨_, exec_chunkSrc_made hn hloop hnone, rfl, fun hzero => absurd hzero hpos,
      fun _ => ⟨hmade, hcount, hlen, rfl, rfl, rfl⟩⟩

/-- Settles O45: the last answer brings the last of the `LEN` bytes. -/
theorem chunkSrcStopsAtTheLimit : Obligations.ChunkSrcStopsAtTheLimit := by
  intro s full last rest hvalid hstore hn hfull hmissing hmax hle hq
  obtain ⟨fuel, hist, hrun⟩ := State.pullRun_after_full hvalid hfull hmissing hq
  obtain ⟨hist', hend⟩ := pullLoop_of_last (fuel := fuel) (chunks := full) hmissing hmax hle rest hist
  have hloop : s.pullRun = .finished (full ++ [last]) false ⟨rest, hist'⟩ := hrun.trans hend
  have hsum := (sum_full_last_lengths hfull last).trans hmax
  obtain ⟨hmade, hcount, hlen⟩ := State.afterChunkSrc_made hvalid hstore hn hloop
  rw [hsum] at hmade hlen
  have hkept := BitVec.eq_of_toNat_eq hlen
  refine ⟨_, exec_chunkSrc_made hn hloop (by simp), rfl, hmade, hcount.trans List.length_append, hkept, ?_,
    rfl, rfl⟩
  exact congrArg (fun v => { s.regs with len := v }) hkept

/-! ### The failures -/

/-- SRC_ERROR leaves the slots past the one it was filling as they were. -/
theorem State.srcFailed_slot_gt (s : State) {done i : Nat} (hi : done < i) :
    (s.srcFailed done).slot i = s.slot i := s.slot_updateSlots_ge _ i _ hi

/-- Settles O46: the check of LEN comes before any pull, a LEN of 0 asks for none, and after the full answers
the read error ends the loop. -/
theorem chunkSrcFailures : Obligations.ChunkSrcFailures := by
  refine ⟨fun s hover => exec_chunkSrc_range (Nat.not_le.2 hover), fun s hvalid hzero => ?_,
    fun s full rest hvalid hstore hn hfull hmissing hq => ?_⟩
  · have hlen : s.regs.len.toNat = 0 := by rw [hzero]; rfl
    have hcount : s.frameCount = 0 := by
      rw [State.frameCount, hlen, ceilDiv_zero _ (fdMax_pos_of_valid hvalid)]
    have hfits : s.fitsStore s.frameCount := by rw [hcount]; exact Nat.zero_le _
    exact exec_chunkSrc_exhausted hfits (pullLoop_of_all (Nat.le_of_eq hlen) s.src)
  · obtain ⟨fuel, hist, hrun⟩ := State.pullRun_after_full hvalid hfull hmissing hq
    obtain ⟨hist', hend⟩ := pullLoop_of_err (fdMax := s.cfg.fdMax) (fuel := fuel) (chunks := full) hmissing
      rest hist
    exact ⟨_, exec_chunkSrc_failed hn (hrun.trans hend), rfl, fun i hi => State.srcFailed_slot_gt _ hi,
      fun i => State.srcFailed_slot _ _ i, rfl⟩

end Sys2Proof.Machine
end

section
/-! PROOFS. CHUNK.BUF and INIT in either order (43_frame_chunker.md R199): over one COUNT, the two write
different fields of a slot, and the checksum, which covers both, is stamped last. -/

namespace Sys2Proof.Machine

/-- Stamping the identity over a chunk's fields, and the checksum last, is writing the chunk's fields over the
identity. -/
theorem Slot.chunked_initialised (c : Config) (x : Regs) (m n i total : Nat) (b : List Byte) (f : Slot) :
    (Slot.initialised c x m i f).chunked c n total b =
      (Slot.initialised c x m i (f.chunked c n total b)).stamped c.crc := rfl

/-- The host's write of a frame count to COUNT (10_state.md R31). -/
def State.withCount (s : State) (n : Nat) : State :=
  { s with regs := { s.regs with count := BitVec.ofNat 24 n } }

/-- The slots CHUNK.BUF writes, as it writes them. -/
theorem State.afterChunkBuf_slot_lt {s : State} (hstore : s.StoreWf) (hn : s.fitsStore s.frameCount) {i : Nat}
    (hi : i < s.frameCount) :
    s.afterChunkBuf.slot i = (s.slot i).chunked s.cfg s.frameCount s.regs.len.toNat
      (s.readPmem (s.regs.addr.toNat + i * s.cfg.fdMax)
        (frameLen s.cfg.fdMax s.regs.len.toNat s.frameCount i)) :=
  s.slot_updateSlots_lt _ i _ hstore hi hn (Slot.chunked_data_length ..)

theorem State.afterChunkBuf_slot_ge (s : State) {i : Nat} (hi : s.frameCount ≤ i) :
    s.afterChunkBuf.slot i = s.slot i := s.slot_updateSlots_ge _ i _ hi

theorem State.afterChunkBuf_storeWf {s : State} (hstore : s.StoreWf) : s.afterChunkBuf.StoreWf := by
  refine s.storeWf_updateSlots s.frameCount _ hstore ?_
  exact fun _ _ _ => Slot.chunked_data_length ..

/-- STAMP.ALL changes no field of a slot but the checksum. -/
theorem State.slot_eq_afterStampAll_slot {s : State} (hstore : s.StoreWf) (hn : s.fitsStore s.countOperand)
    (k : Nat) : s.slot k = { s.afterStampAll.slot k with checksum := (s.slot k).checksum } := by
  rcases Nat.lt_or_ge k s.countOperand with hk | hk
  · rw [afterStampAll_slot_lt hstore hn hk]
    rfl
  · rw [s.afterStampAll_slot_ge hk]

section Commute

variable {s : State} (hvalid : s.cfg.Valid) (hstore : s.StoreWf) (hn : s.fitsStore s.frameCount)

include hvalid hn

/-- With COUNT set to the number of frames CHUNK.BUF will make, INIT runs over just those. -/
theorem State.withCount_countOperand : (s.withCount s.frameCount).countOperand = s.frameCount :=
  toNat_ofNat_of_fitsStore hvalid hn

theorem State.withCount_fitsStore :
    (s.withCount s.frameCount).fitsStore (s.withCount s.frameCount).countOperand := by
  rw [withCount_countOperand hvalid hn]
  exact hn

theorem State.afterChunkBuf_countOperand : s.afterChunkBuf.countOperand = s.frameCount :=
  afterChunkBuf_count hvalid hn

include hstore

/-- Slot by slot, INIT then CHUNK.BUF leaves what CHUNK.BUF, INIT, STAMP.ALL leaves. -/
theorem State.slot_init_chunkBuf (k : Nat) :
    (s.withCount s.frameCount).afterInit.afterChunkBuf.slot k =
      s.afterChunkBuf.afterInit.afterStampAll.slot k := by
  have hcount := withCount_fitsStore hvalid hn
  have hcount' := afterChunkBuf_fitsStore hvalid hn
  have hchunked := afterChunkBuf_storeWf hstore
  have hinit : (s.withCount s.frameCount).afterInit.StoreWf := afterInit_storeWf hstore
  rcases Nat.lt_or_ge k s.frameCount with hk | hk
  · have hkInit : k < (s.withCount s.frameCount).countOperand := by rwa [withCount_countOperand hvalid hn]
    have hkInit' : k < s.afterChunkBuf.countOperand := by
      rwa [afterChunkBuf_countOperand hvalid hn]
    have hstamped : s.afterChunkBuf.afterInit.afterStampAll.slot k =
        (s.afterChunkBuf.afterInit.slot k).stamped s.cfg.crc :=
      afterStampAll_slot_lt (afterInit_storeWf hchunked) hcount' hkInit'
    rw [afterChunkBuf_slot_lt hinit hn hk,
      afterInit_slot_lt (s := s.withCount s.frameCount) hstore hcount hkInit, hstamped,
      afterInit_slot_lt hchunked hcount' hkInit', afterChunkBuf_slot_lt hstore hn hk]
    exact Slot.chunked_initialised ..
  · have hkInit : (s.withCount s.frameCount).countOperand ≤ k := by rwa [withCount_countOperand hvalid hn]
    have hkInit' : s.afterChunkBuf.countOperand ≤ k := by rwa [afterChunkBuf_countOperand hvalid hn]
    calc (s.withCount s.frameCount).afterInit.afterChunkBuf.slot k
        = (s.withCount s.frameCount).afterInit.slot k := afterChunkBuf_slot_ge _ hk
      _ = s.slot k := afterInit_slot_ge _ hkInit
      _ = s.afterChunkBuf.slot k := (s.afterChunkBuf_slot_ge hk).symm
      _ = s.afterChunkBuf.afterInit.slot k := (afterInit_slot_ge _ hkInit').symm
      _ = s.afterChunkBuf.afterInit.afterStampAll.slot k :=
        (s.afterChunkBuf.afterInit.afterStampAll_slot_ge hkInit').symm

/-- The two orders leave the same state: besides the slots they set COUNT to the same number. -/
theorem State.init_chunkBuf_eq :
    (s.withCount s.frameCount).afterInit.afterChunkBuf = s.afterChunkBuf.afterInit.afterStampAll := by
  have hinit : (s.withCount s.frameCount).afterInit.StoreWf := afterInit_storeWf hstore
  have hfs : (s.withCount s.frameCount).afterInit.afterChunkBuf.fs =
      s.afterChunkBuf.afterInit.afterStampAll.fs :=
    fs_eq_of_slot_eq (afterStampAll_storeWf (afterInit_storeWf (afterChunkBuf_storeWf hstore)))
      (afterChunkBuf_storeWf hinit) rfl (slot_init_chunkBuf hvalid hstore hn)
  calc (s.withCount s.frameCount).afterInit.afterChunkBuf
      = { s.afterChunkBuf.afterInit.afterStampAll with
          fs := (s.withCount s.frameCount).afterInit.afterChunkBuf.fs } := rfl
    _ = s.afterChunkBuf.afterInit.afterStampAll := by rw [hfs]

end Commute

/-- Settles O59: each command of both sequences succeeds, since COUNT holds the number of frames that fit. -/
theorem chunkAndInitCommute : Obligations.ChunkAndInitCommute := by
  intro s hvalid hstore n hn hfits
  have hcount' := State.afterChunkBuf_fitsStore hvalid hn
  have hcount := State.withCount_fitsStore hvalid hn
  have hpair : runCommands [.chunkBuf, .init] s = .next s.afterChunkBuf.afterInit :=
    runCommands_pair (exec_chunkBuf hn hfits) (exec_init hcount')
  refine ⟨_, _, _,
    (runCommands_append [.stampAll] hpair).trans (runCommands_cons [] (exec_stampAll hcount')),
    runCommands_pair (exec_init hcount)
      (exec_chunkBuf (s := (s.withCount s.frameCount).afterInit) hn hfits),
    State.init_chunkBuf_eq hvalid hstore hn, hpair, ?_⟩
  exact State.slot_eq_afterStampAll_slot
    (State.afterInit_storeWf (State.afterChunkBuf_storeWf hstore)) hcount'

end Sys2Proof.Machine
end
